-- ==== Sys2Proof/Word.lean ====
section
/-! DEFINITION. Word widths: a byte (00_scope.md R9) and a program word that carries a 12-bit access word (30_encoding.md R70). -/

namespace Sys2Proof

/-- Every register and every byte is 8 bits wide, unsigned (R9). -/
abbrev Byte := BitVec 8

/-- A stored program word: the 12-bit access word of R70 in bits 11:0, bits 15:12 zero. -/
abbrev Word := BitVec 16

end Sys2Proof
end

