-- ==== Sys2Proof/Syntax.lean ====
section
/-! DEFINITION. The spec's vocabulary: registers, phases, actions, responses, bus events, the instructions of the
opcode table, and the driver's statements (30_encoding.md R83). -/

namespace Sys2Proof

/-- The four registers of 10_state.md R22. -/
inductive Reg where
  | div | status | data | ctrl
  deriving DecidableEq, Repr

/-- The controller's protocol state (10_state.md R29). -/
inductive Phase where
  | off | idle | started | mt | mtNacked | mr | mrNacked | mrDone | busErr
  deriving DecidableEq, Repr

/-- The bus action in flight (10_state.md R30). `tx` holds the byte DATA held at issue, `rx` the EA value of the
issuing write. -/
inductive Action where
  | start
  | stop
  | tx (b : Byte)
  | rx (ea : Bool)
  deriving DecidableEq, Repr

/-- The environment's answers (41_controller_actions.md R130). -/
inductive Response where
  | hold
  | startOk
  | stopOk
  | txAck (a : Bool)
  | rxByte (x : Byte)
  | busErr
  deriving DecidableEq, Repr

/-- The bus events of the bus log (10_state.md R31). -/
inductive BusEvent where
  | start
  | rstart
  | addr (b : Byte) (ack : Bool)
  | txdata (b : Byte) (ack : Bool)
  | rxdata (b : Byte) (acked : Bool)
  | stop
  | busError
  | abort
  deriving DecidableEq, Repr

/-- Which agent moves next while an action is pending: the CPU, or the controller with the environment's answer
(20_memory.md R58, 41_controller_actions.md R130). -/
inductive Turn where
  | cpu
  | ctrl (r : Response)
  deriving DecidableEq, Repr, Inhabited

/-- The instructions: one constructor per row of the opcode table. The operands of a CTRL write class are the bits its
row leaves open (30_encoding.md R73), named as the CTRL fields of 10_state.md R23. -/
inductive Instr where
  | rdDiv
  | rdStatus
  | rdData
  | rdCtrl
  | wrDiv (v : Byte)
  | wrStatus (v : Byte)
  | wrData (v : Byte)
  | wrCtrlDisable (int ea sta sto : Bool)
  | wrCtrlConfig (ea sta sto : Bool)
  | wrCtrlStart (ea : Bool)
  | wrCtrlStop (ea : Bool)
  | wrCtrlStaSto (ea : Bool)
  | wrCtrlTx (ea : Bool)
  | wrCtrlRxAck
  | wrCtrlRxNack
  | wrCtrlIllegal (ea sta : Bool)
  | init
  | close
  | start
  | stop
  | wrbyte (b : Byte)
  | rdbyte (ack : Bool)
  | wrreg (dev reg val : Byte)
  | rdreg (dev reg : Byte)
  deriving DecidableEq, Repr

/-- The six driver operations a lifecycle violation can name (60_exceptions.md R221). -/
inductive DriverOp where
  | init | close | start | stop | writeByte | readByte
  deriving DecidableEq, Repr

/-- The driver's variables: the names the expansions of 30_encoding.md R84 use, and a program's own. -/
inductive Var where
  | c | st | s | ok | v
  | user (n : Nat)
  deriving DecidableEq, Repr

/-- An 8-bit expression of 30_encoding.md R83. -/
inductive Expr8 where
  | lit (v : Byte)
  | var (x : Var)
  | and (a b : Expr8)
  | or (a b : Expr8)
  | shl (a b : Expr8)
  deriving DecidableEq, Repr

/-- A condition of 30_encoding.md R83, and the test `if wedged` of 45_register_access_contract.md R200. What the members of `∈ {…}`
may be R83 leaves open; DESIGN CHOICE: any 8-bit expressions, as on the two sides of `=` and `!=` (log 25). -/
inductive Cond where
  | eq (a b : Expr8)
  | ne (a b : Expr8)
  | mem (a : Expr8) (set : List Expr8)
  | wedged
  deriving DecidableEq, Repr

/-- A call of a pseudo-instruction in a driver program; its operands are computed when it is called (R71). -/
inductive Call where
  | init
  | close
  | start
  | stop
  | wrbyte (b : Expr8)
  | rdbyte (ack : Bool)
  | wrreg (dev reg val : Expr8)
  | rdreg (dev reg : Expr8)
  deriving DecidableEq, Repr

/-- The kinds of CPU bus access that can reach the window (20_memory.md R50, R55, R62). -/
inductive BusKind where
  | read | write | fetch
  deriving DecidableEq, Repr

/-- A statement of a driver program (30_encoding.md R83). `word` is an access given by its access word (R70), `bus` a
CPU access given by address and width (20_memory.md R51, R55). R83 leaves two operands open, and the model fixes them (DESIGN CHOICE):
the `<mask>` of a wait is a literal byte (log 28), and a `return` carries an 8-bit expression or nothing (log 29). -/
inductive Stmt where
  | word (w : Word)
  | rd (r : Reg) (dst : Option Var)
  | wr (r : Reg) (e : Expr8)
  | waitSet (m : Byte)
  | waitClr (m : Byte)
  | assign (x : Var) (e : Expr8)
  | test (x : Var) (c : Cond)
  | ifGoto (c : Cond) (l : Nat)
  | goto (l : Nat)
  | label (l : Nat)
  | ret (e : Option Expr8)
  | call (p : Call)
  | bus (k : BusKind) (addr width : Nat) (v : Byte)
  deriving DecidableEq, Repr

end Sys2Proof
end

