-- ==== Sys2Proof/Config.lean ====
section
/-! DEFINITION. The parameters of 00_scope.md R8 and the free values: what the spec leaves open is an uninterpreted constant. -/

namespace Sys2Proof

/-- The parameters a model takes (R8). They are no state of the hardware (10_state.md R37): no step changes them. -/
structure Params where
  /-- TWI_BASE: address of the register window in the CPU's address space (OPEN). -/
  twiBase : Nat
  /-- INIT_PS: the prescaler value `initialize()` writes (OPEN). -/
  initPs : BitVec 2
  /-- INIT_DIV: the divisor value `initialize()` writes (OPEN). -/
  initDiv : Byte
  /-- START_CHECK: whether `start()` checks its status code (source behaviour: false). -/
  startCheck : Bool
  /-- POLL_LIMIT: maximum poll reads per wait; `none` is unbounded (source behaviour: none). -/
  pollLimit : Option Nat
  /-- F_CPU: used only by the informational SCL formula (OPEN). -/
  fCpu : Nat
  deriving DecidableEq, Repr

/-- TWI_BASE: OPEN in R8. -/
opaque Config.twiBase : Nat

/-- INIT_PS: OPEN in R8. -/
opaque Config.initPs : BitVec 2

/-- INIT_DIV: OPEN in R8. -/
opaque Config.initDiv : Byte

/-- F_CPU: OPEN in R8. -/
opaque Config.fCpu : Nat

/-- The n-th free choice of who moves and what the environment answers (R58, R130), used when the input queue is empty.
FREE VALUE (log 2). -/
opaque Config.freeTurn : Nat → Turn

/-- The n-th drawn byte: what RD DATA returns while an action is pending (40_register_access.md R112). FREE VALUE (log 3). -/
opaque Config.draw8 : Nat → Byte

end Sys2Proof
end

