-- ==== Sys2Proof/WellFormed.lean ====
section
/-! DEFINITION. What a well-formed instruction, statement, program and parameter set is. -/

namespace Sys2Proof

/-- The operand ranges of the opcode table: every operand is as wide as its field, but for the device address of the
contract, which is 7 bits (45_register_access_contract.md R202). -/
def Instr.wellFormed : Instr → Bool
  | .wrreg dev _ _ => dev.toNat ≤ 0x7F
  | .rdreg dev _ => dev.toNat ≤ 0x7F
  | .rdDiv | .rdStatus | .rdData | .rdCtrl | .wrDiv _ | .wrStatus _ | .wrData _ => true
  | .wrCtrlDisable _ _ _ _ | .wrCtrlConfig _ _ _ | .wrCtrlStart _ | .wrCtrlStop _ | .wrCtrlStaSto _ | .wrCtrlTx _ => true
  | .wrCtrlRxAck | .wrCtrlRxNack | .wrCtrlIllegal _ _ => true
  | .init | .close | .start | .stop | .wrbyte _ | .rdbyte _ => true

/-- The labels a program defines (R83). -/
def labelsOf (p : List Stmt) : List Nat :=
  p.filterMap fun t => match t with
    | .label l => some l
    | _ => none

/-- A statement stands in a program whose labels are `ls`: an access word fits 12 bits (R70), a jump's label is defined
exactly once (R86), a bus access moves at least one byte. -/
def Stmt.wellFormed (ls : List Nat) : Stmt → Bool
  | .word w => w.toNat < 4096
  | .ifGoto _ l | .goto l => ls.count l == 1
  | .bus _ _ width _ => 1 ≤ width
  | .rd _ _ | .wr _ _ | .waitSet _ | .waitClr _ | .assign _ _ | .test _ _ | .label _ | .ret _ | .call _ => true

/-- A well-formed driver program. -/
def programWellFormed (p : List Stmt) : Bool :=
  p.all (Stmt.wellFormed (labelsOf p))

/-- POLL_LIMIT = n has n ≥ 1 (43_transaction_primitives.md R171). -/
def Params.wellFormed (q : Params) : Bool :=
  q.pollLimit != some 0

end Sys2Proof
end

