-- ==== Sys2Proof/Decode.lean ====
section
/-! DEFINITION. The access word, the CTRL command word, the decoder (total, rejecting by name) and the encoder
(30_encoding.md R70 to R77, R84, R85). -/

namespace Sys2Proof

/-! ### Bit fields -/

/-- Bit `i` of a byte (00_scope.md R9). -/
def byteBit (v : Byte) (i : Nat) : Bool := v.getLsbD i

/-- A byte with bit `i` equal to `b` and every other bit 0. -/
def bitAt (b : Bool) (i : Nat) : Byte := if b then (1#8 <<< i) else 0#8

/-- The CTRL byte with the given fields, reserved bits 0 (10_state.md R23, 30_encoding.md R77). -/
def packCtrl (int ea sta sto en : Bool) : Byte :=
  bitAt int 7 ||| bitAt ea 6 ||| bitAt sta 5 ||| bitAt sto 4 ||| bitAt en 2

/-- Bit 11 of an access word: 1 = write (R70). -/
def wordIsWrite (w : Word) : Bool := w.getLsbD 11

/-- Bits 10:8 of an access word: the register offset (R70). -/
def wordOffset (w : Word) : BitVec 3 := w.extractLsb' 8 3

/-- Bits 7:0 of an access word: the byte written (R70). -/
def wordValue (w : Word) : Byte := w.extractLsb' 0 8

/-- The access word with the given fields (R70). -/
def accessWord (d : Bool) (o : BitVec 3) (v : Byte) : Word := 0#4 ++ BitVec.ofBool d ++ o ++ v

/-- The register at an offset; `none` for the reserved offsets (10_state.md R22, 20_memory.md R52). -/
def regAt (o : BitVec 3) : Option Reg :=
  match o.toNat with
  | 0 => some .div
  | 1 => some .status
  | 3 => some .data
  | 4 => some .ctrl
  | _ => none

/-- The offset of a register (10_state.md R22). -/
def offsetOf : Reg → BitVec 3
  | .div => 0
  | .status => 1
  | .data => 3
  | .ctrl => 4

/-- The access word of `RD <REG>` (R70). -/
def readWord (r : Reg) : Word := accessWord false (offsetOf r) 0

/-- The access word of `WR <REG>, v` (R70). -/
def writeWord (r : Reg) (v : Byte) : Word := accessWord true (offsetOf r) v

/-! ### The CTRL command word -/

/-- The classes of a CTRL write (R72, R73). `illegal` carries the phase the fault reports. -/
inductive CtrlClass where
  | reserved
  | disable
  | busy
  | config
  | staSto
  | start
  | stop
  | tx
  | rx (ea : Bool)
  | illegal (p : Phase)
  deriving DecidableEq, Repr

/-- The phase a command is judged by: OFF counts as IDLE, since the write enables (R72 step 8). -/
def commandPhase : Phase → Phase
  | .off => .idle
  | p => p

/-- Step 8 of R72: what a continue write means in a phase (R74). -/
def classifyContinue (v : Byte) (ph : Phase) : CtrlClass :=
  match commandPhase ph with
  | .started | .mt => .tx
  | .mr => .rx (byteBit v 6)
  | p => .illegal p

/-- `classifyCtrl` of R72: the checks run in this order and the first that applies wins. -/
def classifyCtrl (v : Byte) (ph : Phase) (pending : Option Action) : CtrlClass :=
  if v &&& 0x0B#8 ≠ 0#8 then .reserved
  else if byteBit v 2 = false then .disable
  else if pending ≠ none then .busy
  else if byteBit v 7 = false then .config
  else if byteBit v 5 = true ∧ byteBit v 4 = true then .staSto
  else if byteBit v 5 = true then (if ph = .busErr then .illegal .busErr else .start)
  else if byteBit v 4 = true then .stop
  else classifyContinue v ph

/-! ### The decoder -/

/-- Why a word is no instruction. -/
inductive Reject where
  /-- A CTRL write with a reserved bit set (40_register_access.md R101). -/
  | reservedBit (v : Byte)
  /-- An access at offset 2, 5, 6 or 7 (40_register_access.md R116). -/
  | unmappedRegister (off : BitVec 3)
  /-- Not an access word of R70: bits 15:12 set, or a read of one of the four registers whose bits 7:0 are not 0. A read word at a
  reserved offset is no such word whatever its bits 7:0: it is `unmappedRegister` (DESIGN CHOICE, log 12). -/
  | notAccessWord (w : Word)
  deriving DecidableEq, Repr

/-- The instruction of a continue write (R73, R74). -/
def decodeContinue (ph : Phase) (v : Byte) : Instr :=
  match commandPhase ph with
  | .started | .mt => .wrCtrlTx (byteBit v 6)
  | .mr => if byteBit v 6 then .wrCtrlRxAck else .wrCtrlRxNack
  | _ => .wrCtrlIllegal (byteBit v 6) false

/-- The instruction of a CTRL write: R72 applied to bits 7:0 (R85). The busy check is the instruction's own
(40_register_access.md R103 to R108, "Faults"), so it does not stand here. -/
def decodeCtrl (ph : Phase) (v : Byte) : Except Reject Instr :=
  if v &&& 0x0B#8 ≠ 0#8 then .error (.reservedBit v)
  else if byteBit v 2 = false then
    .ok (.wrCtrlDisable (byteBit v 7) (byteBit v 6) (byteBit v 5) (byteBit v 4))
  else if byteBit v 7 = false then .ok (.wrCtrlConfig (byteBit v 6) (byteBit v 5) (byteBit v 4))
  else if byteBit v 5 = true ∧ byteBit v 4 = true then .ok (.wrCtrlStaSto (byteBit v 6))
  else if byteBit v 5 = true then
    .ok (if ph = .busErr then .wrCtrlIllegal (byteBit v 6) true else .wrCtrlStart (byteBit v 6))
  else if byteBit v 4 = true then .ok (.wrCtrlStop (byteBit v 6))
  else .ok (decodeContinue ph v)

/-- A read access (R70: bits 7:0 are 0). -/
def decodeRead (w : Word) (r : Reg) : Except Reject Instr :=
  if wordValue w ≠ 0 then .error (.notAccessWord w)
  else .ok (match r with
    | .div => .rdDiv
    | .status => .rdStatus
    | .data => .rdData
    | .ctrl => .rdCtrl)

/-- A write access. -/
def decodeWrite (ph : Phase) (r : Reg) (v : Byte) : Except Reject Instr :=
  match r with
  | .div => .ok (.wrDiv v)
  | .status => .ok (.wrStatus v)
  | .data => .ok (.wrData v)
  | .ctrl => decodeCtrl ph v

/-- The decoder (R85): bits 11:8 first, then, for a CTRL write, R72 on bits 7:0 in the phase the controller is in, since
the bytes 0x84, 0xC4 and 0xA4 stand for several rows that only the phase tells apart (R73; log 9). The offset is judged before the
low byte of a read: a read word at a reserved offset with bits 7:0 not 0, which R70 does not form, is unmapped like the word with bits
7:0 equal to 0 (DESIGN CHOICE, log 12). -/
def decode (ph : Phase) (w : Word) : Except Reject Instr :=
  if 4096 ≤ w.toNat then .error (.notAccessWord w)
  else match regAt (wordOffset w) with
    | none => .error (.unmappedRegister (wordOffset w))
    | some r => if wordIsWrite w then decodeWrite ph r (wordValue w) else decodeRead w r

/-- The instruction the decoder reads from a table word, in the phase OFF of the reset state (log 9). -/
def decodeTableWord (_nbits w : Nat) : Option Instr :=
  if w < 65536 then
    match decode .off (BitVec.ofNat 16 w) with
    | .ok i => some i
    | .error _ => none
  else none

/-! ### The encoder -/

/-- The byte a CTRL write class writes (R73). -/
def ctrlByteOf : Instr → Option Byte
  | .wrCtrlDisable int ea sta sto => some (packCtrl int ea sta sto false)
  | .wrCtrlConfig ea sta sto => some (packCtrl false ea sta sto true)
  | .wrCtrlStart ea => some (packCtrl true ea true false true)
  | .wrCtrlStop ea => some (packCtrl true ea false true true)
  | .wrCtrlStaSto ea => some (packCtrl true ea true true true)
  | .wrCtrlTx ea => some (packCtrl true ea false false true)
  | .wrCtrlRxAck => some (packCtrl true true false false true)
  | .wrCtrlRxNack => some (packCtrl true false false false true)
  | .wrCtrlIllegal ea sta => some (packCtrl true ea sta false true)
  | .rdDiv | .rdStatus | .rdData | .rdCtrl | .wrDiv _ | .wrStatus _ | .wrData _ => none
  | .init | .close | .start | .stop | .wrbyte _ | .rdbyte _ | .wrreg _ _ _ | .rdreg _ _ => none

/-- The access word of a register access; a pseudo-instruction has none of its own (R84). -/
def encodeAccess : Instr → Option Word
  | .rdDiv => some (readWord .div)
  | .rdStatus => some (readWord .status)
  | .rdData => some (readWord .data)
  | .rdCtrl => some (readWord .ctrl)
  | .wrDiv v => some (writeWord .div v)
  | .wrStatus v => some (writeWord .status v)
  | .wrData v => some (writeWord .data v)
  | i => (ctrlByteOf i).map (writeWord .ctrl)

/-- The byte WR STATUS needs for a prescaler value (R76). -/
def prescalerByte (p : BitVec 2) : Byte := p.setWidth 8

/-- The address byte of a device and a direction, modulo 256 (R80): WRITE = 0, READ = 1. -/
def addressByte (dev : Byte) (read : Bool) : Byte := (dev <<< 1) ||| bitAt read 0

/-- The words of `start()` (43_transaction_primitives.md R172). -/
def startWords (q : Params) : List Word :=
  [writeWord .ctrl 0xA4, readWord .ctrl] ++ (if q.startCheck then [readWord .status] else [])

/-- The words of `stop()` (43_transaction_primitives.md R173). -/
def stopWords : List Word := [writeWord .ctrl 0x94, readWord .ctrl]

/-- The words of `writeByte(b)` (44_byte_transfer.md R180). -/
def wrbyteWords (b : Byte) : List Word :=
  [writeWord .data b, writeWord .ctrl 0x84, readWord .ctrl, readWord .status]

/-- The words of `readByte(ack)` on success (44_byte_transfer.md R182). -/
def rdbyteWords (ack : Bool) : List Word :=
  [writeWord .ctrl (if ack then 0xC4 else 0x84), readWord .ctrl, readWord .status, readWord .data]

/-- The access words of an instruction, in order: one for a register access; for a pseudo-instruction the words of its
expansion, each poll once (schedule S0 of 95_test_vectors.md), every step succeeding (R84). -/
def encode (q : Params) (i : Instr) : List Word :=
  match i with
  | .init => [writeWord .status (prescalerByte q.initPs), writeWord .div q.initDiv, writeWord .ctrl 0x04]
  | .close => [writeWord .ctrl 0x00]
  | .start => startWords q
  | .stop => stopWords
  | .wrbyte b => wrbyteWords b
  | .rdbyte ack => rdbyteWords ack
  | .wrreg dev reg val =>
      startWords q ++ wrbyteWords (addressByte dev false) ++ wrbyteWords reg ++ wrbyteWords val ++ stopWords
  | .rdreg dev reg =>
      startWords q ++ wrbyteWords (addressByte dev false) ++ wrbyteWords reg ++ startWords q ++
        wrbyteWords (addressByte dev true) ++ rdbyteWords false ++ stopWords
  | i => (encodeAccess i).toList

/-- The phases in which the decoder reads a CTRL row's word as that row (R73, the condition column of the table); the
other rows are read so in every phase. -/
def decodesIn : Instr → Phase → Bool
  | .wrCtrlStart _, ph => ph != .busErr
  | .wrCtrlTx _, ph => ph == .started || ph == .mt
  | .wrCtrlRxAck, ph => ph == .mr
  | .wrCtrlRxNack, ph => ph == .mr
  | .wrCtrlIllegal _ true, ph => ph == .busErr
  | .wrCtrlIllegal _ false, ph => !(ph == .started || ph == .mt || ph == .mr)
  | _, _ => true

end Sys2Proof
end

