-- ==== Sys2Proof/Machine/State.lean ====
section
/-! DEFINITION. The machine's state as plain data, its faults and refusals, and the reset state (10_state.md). -/

namespace Sys2Proof.Machine

/-- The fault kinds of 60_exceptions.md R221. A fault ends the run; the spec names each one where the source gives no
meaning, so each is safe: it errs toward unprovable (R220). -/
inductive Fault where
  /-- An access at offset 2, 5, 6 or 7. Raised when an access is decoded (40_register_access.md R116). Safe. -/
  | unmappedRegister (off : BitVec 3)
  /-- An access wider than one byte, or an instruction fetch, to the window. Raised by a bus access (20_memory.md R55, R62). Safe. -/
  | wideAccess
  /-- A CTRL write with bit 3, 1 or 0 set. Raised by a CTRL write (40_register_access.md R101). Safe. -/
  | reservedBit (v : Byte)
  /-- A write, other than a disable, while an action is pending. Raised by WR DIV, STATUS, DATA and CTRL (R109, R111, R113, R115). Safe. -/
  | writeWhileBusy (reg : Reg)
  /-- A CTRL write with INT, STA, STO and EN all set. Raised by a CTRL write (R109). Safe. -/
  | startStopTogether
  /-- A continue write outside STARTED, MT and MR, or a START in BUSERR; OFF is reported as IDLE. Raised by a CTRL write (R109). Safe. -/
  | illegalCommand (phase : Phase)
  /-- A primitive outside Ready or while wedged, or initialize/close inside an open transaction. Raised at a primitive's
  entry (42_bus_controller_lifecycle.md R160 to R162). Safe. -/
  | lifecycleViolation (op : DriverOp)
  /-- A contract call with a device address above 0x7F (45_register_access_contract.md R202). Safe. -/
  | badDeviceAddress (dev : Byte)
  deriving DecidableEq, Repr

/-- Why a step has no meaning. None of these is raised by an instruction of the opcode table. -/
inductive Refusal where
  /-- An instruction whose meaning is not written yet. Raised by no instruction of this model. Safe. -/
  | notModelled (mnemonic : String)
  /-- The driver program has no statement left and no action is pending, so no agent has a step (log 13). Raised by the step. Safe. -/
  | endOfRun
  /-- The word is not an access word of 30_encoding.md R70: bits 15:12 set, or a read of one of the four registers whose bits 7:0 are
  not 0 (log 12). Raised by the decoder. Safe. -/
  | notAccessWord (w : Word)
  /-- A jump to a label that the program does not define (log 16). Raised by a goto statement. Safe. -/
  | noSuchLabel (l : Nat)
  /-- A CPU access that touches no byte of the register window, one of width 0 among them: it is no access to this block (20_memory.md R50;
  log 15). Raised by a bus statement. Safe. -/
  | outsideWindow (addr : Nat)
  deriving DecidableEq, Repr

/-- The CTRL fields (10_state.md R23). Bits 3, 1 and 0 have no storage. -/
structure Ctrl where
  int : Bool
  ea : Bool
  sta : Bool
  sto : Bool
  en : Bool
  deriving DecidableEq, Repr

/-- The driver's lifecycle (10_state.md R33). -/
inductive Lifecycle where
  | uninit | ready | closed
  deriving DecidableEq, Repr

/-- Where a primitive in progress stands: its next register access (10_state.md R21). -/
inductive PrimPoint where
  | initDiv
  | initCtrl
  | startPoll
  | startStatus
  | stopPoll
  | wrbyteCtrl
  | wrbytePoll
  | wrbyteStatus
  | rdbytePoll
  | rdbyteStatus
  | rdbyteData
  deriving DecidableEq, Repr

/-- Which call of `writeRegister` is running or comes next (45_register_access_contract.md R200). -/
inductive WrStage where
  | start | addr | reg | val | stop | abort
  deriving DecidableEq, Repr

/-- Which call of `readRegister` is running or comes next (R201). `stop` keeps what `readByte` returned. -/
inductive RdStage where
  | start | addrW | reg | restart | addrR | read
  | stop (v : Option Byte)
  | abort
  deriving DecidableEq, Repr

/-- A contract call in progress (R200, R201). -/
inductive Contract where
  | wrreg (dev reg val : Byte) (stage : WrStage)
  | rdreg (dev reg : Byte) (stage : RdStage)
  deriving DecidableEq, Repr

/-- What a primitive, a contract call or a program returns. -/
inductive Ret where
  /-- `()`: INIT, CLOSE, STOP and an unchecked START. -/
  | unit
  /-- `Ok` of a checked START (43_transaction_primitives.md R172). -/
  | startOk
  /-- `StartFailed(s)` of a checked START (R172). -/
  | startFailed (s : Byte)
  /-- The success flag of `writeByte` and `writeRegister` (R180, R200). -/
  | bool (b : Bool)
  /-- The pair of `readByte` (R182). -/
  | read (ok : Bool) (v : Option Byte)
  /-- The result of `readRegister` (R201). -/
  | regValue (v : Option Byte)
  /-- A bounded wait gave up (R171). -/
  | busTimeout
  /-- A program's own `return` (R83, R86). -/
  | program (v : Option Byte)
  deriving DecidableEq, Repr

/-- The driver's variables (10_state.md R20, 30_encoding.md R83, R84). `user` lists a program's own variables in
canonical form; an unlisted one holds 0 (log 6). -/
structure Locals where
  c : Byte
  st : Byte
  s : Byte
  ok : Byte
  v : Byte
  user : List Host.Cell
  deriving DecidableEq, Repr

/-- The controller's registers and hidden state (10_state.md R22 to R31). -/
structure Controller where
  /-- CTRL (R23). -/
  ctrl : Ctrl
  /-- The status code in its 8-bit form (R25, R26, 00_scope.md R12). -/
  code : Byte
  /-- PS, STATUS bits 1:0 (R25). -/
  ps : BitVec 2
  /-- DATA (R28). -/
  data : Byte
  /-- DIV (R27). -/
  div : Byte
  /-- The protocol state (R29). -/
  phase : Phase
  /-- The action in flight (R30). -/
  pending : Option Action
  /-- The bus events so far, oldest first (R31). -/
  busLog : List BusEvent
  deriving DecidableEq, Repr

/-- The CPU agent's state (10_state.md R20, R21, R33). -/
structure Driver where
  /-- The driver's lifecycle (R33). -/
  lifecycle : Lifecycle
  /-- A transaction is open (R33). -/
  txnOpen : Bool
  /-- A bounded wait gave up (R33). -/
  wedged : Bool
  /-- The driver program (R37: a parameter; log 1). -/
  program : List Stmt
  /-- The index of the next statement (30_encoding.md R86). -/
  pos : Nat
  /-- The next access of the primitive in progress (R21). -/
  prim : Option PrimPoint
  /-- The contract call in progress. -/
  contract : Option Contract
  /-- Poll reads the wait in progress has made (43_transaction_primitives.md R171). -/
  polls : Nat
  /-- The driver's variables (R20). -/
  locals : Locals
  /-- The value the latest read access returned (30_encoding.md R70). -/
  result : Option Byte
  /-- What the latest primitive, contract call or program returned. -/
  ret : Option Ret
  deriving DecidableEq, Repr

/-- The whole state: the controller and the driver agent (10_state.md), the fault, the environment's coming choices and the
parameters. -/
structure State extends Controller, Driver where
  /-- The first fault raised (10_state.md R32). -/
  fault : Option Fault
  /-- The coming choices of who moves and what the environment answers (log 2). -/
  turns : List Turn
  /-- How many free values have been drawn (logs 2 and 3). -/
  draws : Nat
  /-- The parameters (00_scope.md R8). -/
  params : Params
  deriving DecidableEq, Repr

/-- The reset state (10_state.md R36, 70_reset_and_hazards.md R250). The parameters are the defaults of 00_scope.md R8,
the OPEN ones free (log 4); the driver's variables are 0 (log 6); the model's own fields are empty (log 7). -/
def State.reset : State where
  ctrl := { int := false, ea := false, sta := false, sto := false, en := false }
  code := 0xF8
  ps := 0
  data := 0xFF
  div := 0x00
  phase := .off
  pending := none
  busLog := []
  fault := none
  lifecycle := .uninit
  txnOpen := false
  wedged := false
  program := []
  pos := 0
  prim := none
  contract := none
  polls := 0
  locals := { c := 0, st := 0, s := 0, ok := 0, v := 0, user := [] }
  result := none
  ret := none
  turns := []
  draws := 0
  params :=
    { twiBase := Config.twiBase, initPs := Config.initPs, initDiv := Config.initDiv,
      startCheck := false, pollLimit := none, fCpu := Config.fCpu }

end Sys2Proof.Machine
end

