-- ==== Sys2Proof/Machine/Flags.lean ====
section
/-! DEFINITION. What a program reads from CTRL and STATUS, the phases' ownership, the status codes with their validation
sets, names and error classes, and the informational SCL formula. -/

namespace Sys2Proof.Machine

/-- The byte a CTRL read returns (30_encoding.md R77, 40_register_access.md R100). -/
def ctrlByte (s : State) : Byte := packCtrl s.ctrl.int s.ctrl.ea s.ctrl.sta s.ctrl.sto s.ctrl.en

/-- The byte a STATUS read returns: `code | PS`, bit 2 reading 0 (R77, R110). -/
def statusByte (s : State) : Byte := s.code ||| s.ps.setWidth 8

/-- The phases in which this master holds the bus (10_state.md R29). -/
def owned : Phase → Bool
  | .started | .mt | .mtNacked | .mr | .mrNacked | .mrDone => true
  | .off | .idle | .busErr => false

/-! ### Status codes (30_encoding.md R78) -/

/-- "No relevant state information". -/
def codeNoInfo : Byte := 0xF8

/-- The code of a completed START: 0x08 from IDLE, 0x10 as a repeated START (41_controller_actions.md R131). -/
def startCode : Phase → Byte
  | .idle => 0x08
  | _ => 0x10

/-- The code of a transmitted address byte (R133). -/
def addressCode (read ack : Bool) : Byte :=
  match read, ack with
  | false, true => 0x18
  | false, false => 0x20
  | true, true => 0x40
  | true, false => 0x48

/-- The phase after a transmitted address byte (R133). -/
def addressPhase (read ack : Bool) : Phase :=
  match read, ack with
  | false, true => .mt
  | false, false => .mtNacked
  | true, true => .mr
  | true, false => .mrNacked

/-- The code of a transmitted data byte (R134). -/
def dataCode (ack : Bool) : Byte := if ack then 0x28 else 0x30

/-- The phase after a transmitted data byte (R134). -/
def dataPhase (ack : Bool) : Phase := if ack then .mt else .mtNacked

/-- The code of a received byte (R136). -/
def receiveCode (ea : Bool) : Byte := if ea then 0x50 else 0x58

/-- The phase after a received byte (R136). -/
def receivePhase (ea : Bool) : Phase := if ea then .mr else .mrDone

/-- The code of a bus error (R139). -/
def codeBusErr : Byte := 0x00

/-! ### Validation (30_encoding.md R79, 70_reset_and_hazards.md R258) -/

/-- CODE_MASK applied to a status byte (00_scope.md R8). -/
def maskCode (st : Byte) : Byte := st &&& 0xF8#8

/-- `WRITE_OK` after the mask (44_byte_transfer.md R181). -/
def writeOk (st : Byte) : Bool := maskCode st == 0x18 || maskCode st == 0x28 || maskCode st == 0x40

/-- `READ_OK` after the mask (R184). -/
def readOk (st : Byte) : Bool := maskCode st == 0x50 || maskCode st == 0x58

/-- `START_OK` after the mask (43_transaction_primitives.md R172). -/
def startOk (st : Byte) : Bool := maskCode st == 0x08 || maskCode st == 0x10

/-- A driver variable's value for a test (30_encoding.md R84, `ok <- …`). False is 0, as the spec's programs test it (`ok = 0`:
95_test_vectors.md P1); the byte for true the spec leaves open, and 1 is the model's (DESIGN CHOICE, log 27). -/
def flagByte (b : Bool) : Byte := if b then 1 else 0

/-! ### The error taxonomy (44_byte_transfer.md R185) -/

/-- The source's error taxonomy. A hang (BusStuck) is never reported. -/
inductive ErrorClass where
  | ok
  | addressNotAcknowledged
  | dataNotAcknowledged
  | unexpectedStatusCode (s : Byte)
  | busTimeout
  deriving DecidableEq, Repr

/-- `classifyWrite` over a masked code (R185). -/
def classifyWrite (s : Byte) : ErrorClass :=
  if s = 0x18 ∨ s = 0x28 ∨ s = 0x40 then .ok
  else if s = 0x20 ∨ s = 0x48 then .addressNotAcknowledged
  else if s = 0x30 then .dataNotAcknowledged
  else .unexpectedStatusCode s

/-- `classifyRead` over a masked code (R185). -/
def classifyRead (s : Byte) : ErrorClass :=
  if s = 0x50 ∨ s = 0x58 then .ok else .unexpectedStatusCode s

/-- `classifyStart` over a masked code (R185). -/
def classifyStart (s : Byte) : ErrorClass :=
  if s = 0x08 ∨ s = 0x10 then .ok else .unexpectedStatusCode s

/-! ### The names of the codes (44_byte_transfer.md R186) -/

/-- The named protocol outcomes. -/
inductive StatusName where
  | busError | start | repStart | slaWAck | slaWNack | dataTxAck | dataTxNack | arbLost
  | slaRAck | slaRNack | dataRxAck | dataRxNack | noInfo
  | other (s : Byte)
  deriving DecidableEq, Repr

/-- `name` over a masked code. -/
def nameOfCode (s : Byte) : StatusName :=
  if s = 0x00 then .busError
  else if s = 0x08 then .start
  else if s = 0x10 then .repStart
  else if s = 0x18 then .slaWAck
  else if s = 0x20 then .slaWNack
  else if s = 0x28 then .dataTxAck
  else if s = 0x30 then .dataTxNack
  else if s = 0x38 then .arbLost
  else if s = 0x40 then .slaRAck
  else if s = 0x48 then .slaRNack
  else if s = 0x50 then .dataRxAck
  else if s = 0x58 then .dataRxNack
  else if s = 0xF8 then .noInfo
  else .other s

/-- `decode(raw)`: total over all raw values (R186). -/
def decodeStatus (raw : Byte) : StatusName := nameOfCode (maskCode raw)

/-! ### The clock (70_reset_and_hazards.md R266, informational) -/

/-- f_SCL in hertz, rounded down; no rule depends on it (log 20). -/
def sclFrequency (s : State) : Nat := s.params.fCpu / (16 + 2 * s.div.toNat * 4 ^ s.ps.toNat)

end Sys2Proof.Machine
end

