-- ==== Sys2Proof/Machine/Cells.lean ====
section
/-! DEFINITION. A sparse byte store as a list of cells in one canonical form: keys strictly rising, no entry equal to 0,
the value of an unlisted key. Used for a program's own variables (30_encoding.md R83) and the reference slave's register
file (95_test_vectors.md §4); the hardware itself has no memory (20_memory.md R50). -/

namespace Sys2Proof.Machine

/-- What an unlisted key reads as (a variable: log 6; a slave register: "all 0 at start", 95_test_vectors.md §4). -/
def Cells.unlisted : Byte := 0

/-- The byte at a key. -/
def Cells.read (k : Nat) : List Host.Cell → Byte
  | [] => Cells.unlisted
  | (a, x) :: rest => if a = k then x else Cells.read k rest

/-- Put a cell at the head, unless it holds the unlisted value. -/
def Cells.cons (k : Nat) (x : Byte) (rest : List Host.Cell) : List Host.Cell :=
  if x = Cells.unlisted then rest else (k, x) :: rest

/-- Write the byte at a key, keeping the canonical form. -/
def Cells.write (k : Nat) (x : Byte) : List Host.Cell → List Host.Cell
  | [] => Cells.cons k x []
  | (a, y) :: rest =>
    if a < k then (a, y) :: Cells.write k x rest
    else if a = k then Cells.cons k x rest
    else Cells.cons k x ((a, y) :: rest)

/-- Every key of the list is above `k`. -/
def Cells.above (k : Nat) (m : List Host.Cell) : Bool := m.all fun c => k < c.1

/-- The canonical form. -/
def Cells.wf : List Host.Cell → Bool
  | [] => true
  | (a, x) :: rest => x != Cells.unlisted && Cells.above a rest && Cells.wf rest

end Sys2Proof.Machine
end

