-- ==== Sys2Proof/Machine/Operands.lean ====
section
/-! DEFINITION. Operands: the driver's variables, its expressions and conditions (30_encoding.md R71, R83), the operands of a
call, and the CPU addresses of the window (20_memory.md R51). -/

namespace Sys2Proof.Machine

/-- A variable's value. -/
def getVar (x : Var) (l : Locals) : Byte :=
  match x with
  | .c => l.c
  | .st => l.st
  | .s => l.s
  | .ok => l.ok
  | .v => l.v
  | .user n => Cells.read n l.user

/-- Assign a variable. -/
def setVar (x : Var) (b : Byte) (l : Locals) : Locals :=
  match x with
  | .c => { l with c := b }
  | .st => { l with st := b }
  | .s => { l with s := b }
  | .ok => { l with ok := b }
  | .v => { l with v := b }
  | .user n => { l with user := Cells.write n b l.user }

/-- The value of an expression; `<<` is taken modulo 256 (R83). -/
def evalExpr (l : Locals) : Expr8 → Byte
  | .lit b => b
  | .var x => getVar x l
  | .and a b => evalExpr l a &&& evalExpr l b
  | .or a b => evalExpr l a ||| evalExpr l b
  | .shl a b => evalExpr l a <<< (evalExpr l b).toNat

/-- Whether a condition holds (R83); the members of a set are computed as the two sides of `=` are (log 25). -/
def evalCond (s : State) : Cond → Bool
  | .eq a b => evalExpr s.locals a == evalExpr s.locals b
  | .ne a b => evalExpr s.locals a != evalExpr s.locals b
  | .mem a set => (set.map (evalExpr s.locals)).contains (evalExpr s.locals a)
  | .wedged => s.wedged

/-- The instruction a call stands for, its operands computed now (R71). -/
def callInstr (l : Locals) : Call → Instr
  | .init => .init
  | .close => .close
  | .start => .start
  | .stop => .stop
  | .wrbyte b => .wrbyte (evalExpr l b)
  | .rdbyte ack => .rdbyte ack
  | .wrreg dev reg val => .wrreg (evalExpr l dev) (evalExpr l reg) (evalExpr l val)
  | .rdreg dev reg => .rdreg (evalExpr l dev) (evalExpr l reg)

/-- The CPU address of a window offset: `TWI_BASE + off` (20_memory.md R51). -/
def windowAddress (q : Params) (off : BitVec 3) : Nat := q.twiBase + off.toNat

/-- The window offset at a CPU address, if it lies in the window of 8 byte offsets (20_memory.md R50). -/
def windowOffset (q : Params) (addr : Nat) : Option (BitVec 3) :=
  if q.twiBase ≤ addr ∧ addr < q.twiBase + 8 then some (BitVec.ofNat 3 (addr - q.twiBase)) else none

/-- An access of `width` bytes at `addr` touches the window: one of its bytes lies there. An access of width 0, of which the spec does
not speak, has no byte and touches nothing (DESIGN CHOICE, log 15). -/
def touchesWindow (q : Params) (addr width : Nat) : Bool :=
  0 < width && addr < q.twiBase + 8 && q.twiBase < addr + width

end Sys2Proof.Machine
end

