-- ==== Sys2Proof/Machine/Ops.lean ====
section
/-! DEFINITION. The shared operations: sequencing, raising a fault (60_exceptions.md R220), the register operations of
40_register_access.md, the driver's guard, and a primitive's return. -/

namespace Sys2Proof.Machine

/-- The outcome of a step. -/
abbrev Out := Host.Outcome State Fault Refusal

/-- Go on with the next state, if there is one. -/
def andThen (o : Out) (f : State → Out) : Out :=
  match o with
  | .next s => f s
  | .fault k => .fault k
  | .refused r => .refused r

/-! ### Faults -/

/-- `raise Fault(kind)`: the step ends with the fault and no next state (R220). There is no trap entry and no return from a
fault (R227, R228). -/
def raiseFault (k : Fault) : Out := .fault k

/-- The state a fault leaves: nothing changes but `fault`, which keeps the first kind raised (R220, 10_state.md R32). -/
def recordFault (k : Fault) (s : State) : State :=
  { s with fault := some (s.fault.getD k) }

/-! ### The controller's registers -/

/-- `storeCtrl(v)`: INT is write-1-to-clear, the other fields are stored (40_register_access.md helpers). -/
def storeCtrl (v : Byte) (s : State) : State :=
  { s with ctrl :=
    { int := if byteBit v 7 then false else s.ctrl.int
      ea := byteBit v 6
      sta := byteBit v 5
      sto := byteBit v 4
      en := byteBit v 2 } }

/-- `enableIfOff()`: OFF becomes IDLE with code 0xF8, any other phase stays (40_register_access.md helpers). -/
def enableIfOff (s : State) : State :=
  { s with phase := commandPhase s.phase, code := if s.phase = .off then codeNoInfo else s.code }

/-- `issue(a)` (40_register_access.md helpers). -/
def issue (a : Action) (s : State) : State :=
  { s with pending := some a, code := codeNoInfo }

/-- A disable (40_register_access.md R102). -/
def disable (v : Byte) (s : State) : State :=
  { storeCtrl v s with
    busLog := if s.pending ≠ none ∨ owned s.phase = true then s.busLog ++ [.abort] else s.busLog
    pending := none, phase := .off, code := codeNoInfo }

/-- `WR CTRL, v`: the write is classified and control passes to the rule of its class (R101). -/
def writeCtrl (v : Byte) (s : State) : Out :=
  match classifyCtrl v s.phase s.pending with
  | .reserved => raiseFault (.reservedBit v)
  | .disable => .next (disable v s)
  | .busy => raiseFault (.writeWhileBusy .ctrl)
  | .config => .next (enableIfOff (storeCtrl v s))
  | .staSto => raiseFault .startStopTogether
  | .start => .next (issue .start (enableIfOff (storeCtrl v s)))
  | .stop => .next (issue .stop (enableIfOff (storeCtrl v s)))
  | .tx => .next (issue (.tx s.data) (storeCtrl v s))
  | .rx ea => .next (issue (.rx ea) (storeCtrl v s))
  | .illegal p => raiseFault (.illegalCommand p)

/-- A write that faults while an action is pending (R111, R113, R115). -/
def writeUnlessBusy (r : Reg) (f : State → State) (s : State) : Out :=
  if s.pending ≠ none then raiseFault (.writeWhileBusy r) else .next (f s)

/-- `WR <REG>, v` (40_register_access.md R101, R111, R113, R115). Bits 7:2 of a STATUS write are ignored (R76). -/
def writeReg (r : Reg) (v : Byte) (s : State) : Out :=
  match r with
  | .div => writeUnlessBusy .div (fun t => { t with div := v }) s
  | .status => writeUnlessBusy .status (fun t => { t with ps := v.extractLsb' 0 2 }) s
  | .data => writeUnlessBusy .data (fun t => { t with data := v }) s
  | .ctrl => writeCtrl v s

/-- `RD DATA`: a free value while an action is pending, else DATA (R112; log 3). -/
def readData (s : State) : Byte × State :=
  if s.pending ≠ none then (Config.draw8 s.draws, { s with draws := s.draws + 1 }) else (s.data, s)

/-- The value of `RD <REG>` and the state after it (R100, R110, R112, R114); no read has a side effect on the hardware
(20_memory.md R57). -/
def readReg (r : Reg) (s : State) : Byte × State :=
  match r with
  | .div => (s.div, s)
  | .status => (statusByte s, s)
  | .data => readData s
  | .ctrl => (ctrlByte s, s)

/-- A read access: the value read is the access's result (30_encoding.md R70). -/
def accessRead (r : Reg) (s : State) : State :=
  let p := readReg r s
  { p.2 with result := some p.1 }

/-! ### The driver agent -/

/-- The lifecycle guard of the four transaction primitives (42_bus_controller_lifecycle.md R162). -/
def guardReady (op : DriverOp) (s : State) (go : State → Out) : Out :=
  if s.lifecycle ≠ .ready ∨ s.wedged = true then raiseFault (.lifecycleViolation op) else go s

/-- The next statement of the program (30_encoding.md R86). -/
def advance (s : State) : State := { s with pos := s.pos + 1 }

/-- A primitive's next access. -/
def goOn (p : PrimPoint) (s : State) : State := { s with prim := some p, polls := 0 }

/-- A contract call ends with its result. -/
def contractDone (r : Ret) (s : State) : State := { s with contract := none, ret := some r }

/-- `writeRegister` goes on to another of its calls. -/
def wrStage (dev reg val : Byte) (st : WrStage) (s : State) : State :=
  { s with contract := some (.wrreg dev reg val st) }

/-- `readRegister` goes on to another of its calls. -/
def rdStage (dev reg : Byte) (st : RdStage) (s : State) : State :=
  { s with contract := some (.rdreg dev reg st) }

/-- The success flag of a primitive's result; a timeout is reported as false (44_byte_transfer.md R180). -/
def succeeded : Ret → Bool
  | .unit | .startOk => true
  | .bool b => b
  | .read ok _ => ok
  | .startFailed _ | .regValue _ | .busTimeout | .program _ => false

/-- The value of a `readByte` result; `none` on failure (44_byte_transfer.md R188). -/
def readValue : Ret → Option Byte
  | .read true v => v
  | _ => none

/-- What `writeRegister` does when one of its calls returns `r` (45_register_access_contract.md R200, R203). -/
def wrregReturn (dev reg val : Byte) (st : WrStage) (r : Ret) (s : State) : State :=
  let failed := if s.wedged then contractDone (.bool false) s else wrStage dev reg val .abort s
  match st with
  | .start => if s.wedged then contractDone (.bool false) s else wrStage dev reg val .addr s
  | .addr => if succeeded r then wrStage dev reg val .reg s else failed
  | .reg => if succeeded r then wrStage dev reg val .val s else failed
  | .val => if succeeded r then wrStage dev reg val .stop s else failed
  | .stop => contractDone (.bool (!s.wedged)) s
  | .abort => contractDone (.bool false) s

/-- What `readRegister` does when one of its calls returns `r` (R201, R203). -/
def rdregReturn (dev reg : Byte) (st : RdStage) (r : Ret) (s : State) : State :=
  let failed := if s.wedged then contractDone (.regValue none) s else rdStage dev reg .abort s
  match st with
  | .start => if s.wedged then contractDone (.regValue none) s else rdStage dev reg .addrW s
  | .addrW => if succeeded r then rdStage dev reg .reg s else failed
  | .reg => if succeeded r then rdStage dev reg .restart s else failed
  | .restart => if s.wedged then contractDone (.regValue none) s else rdStage dev reg .addrR s
  | .addrR => if succeeded r then rdStage dev reg .read s else failed
  | .read => if s.wedged then contractDone (.regValue none) s else rdStage dev reg (.stop (readValue r)) s
  | .stop v => contractDone (.regValue (if s.wedged then none else v)) s
  | .abort => contractDone (.regValue none) s

/-- A primitive returns `r`; a contract call in progress takes the result (in the same step: log 8). -/
def finishPrim (r : Ret) (s : State) : State :=
  let t := { s with prim := none, polls := 0, ret := some r }
  match t.contract with
  | none => t
  | some (.wrreg dev reg val st) => wrregReturn dev reg val st r t
  | some (.rdreg dev reg st) => rdregReturn dev reg st r t

/-! ### Poll loops (43_transaction_primitives.md R170, R171) -/

/-- One poll read: `RD CTRL -> c` (30_encoding.md R84). -/
def pollRead (s : State) : State :=
  let t := accessRead .ctrl s
  { t with locals := { t.locals with c := ctrlByte s }, polls := t.polls + 1 }

/-- WAITSET exits when a masked bit is set, WAITCLR when all are clear (R170). -/
def pollExits (untilSet : Bool) (m c : Byte) : Bool :=
  if untilSet then (c &&& m) != 0 else (c &&& m) == 0

/-- The read just made was the last one POLL_LIMIT allows (R171). -/
def pollLimitReached (s : State) : Bool :=
  match s.params.pollLimit with
  | none => false
  | some n => n ≤ s.polls

/-- One step of a poll loop: read; go on if the exit condition holds, give up if it was the last read allowed, else stay. -/
def pollStep (untilSet : Bool) (m : Byte) (onExit onTimeout : State → State) (s : State) : State :=
  let t := pollRead s
  if pollExits untilSet m t.locals.c then onExit { t with polls := 0 }
  else if pollLimitReached t then onTimeout { t with polls := 0, wedged := true }
  else t

/-- A poll step inside a primitive: on the limit it returns BusTimeout (R171). The variable `ok` keeps its value then: R84's
assignment of it stands after the wait and is not reached (DESIGN CHOICE, log 26; R180 says the timeout is reported as false). -/
def primPoll (untilSet : Bool) (m : Byte) (onExit : State → State) (s : State) : State :=
  pollStep untilSet m onExit (finishPrim .busTimeout) s

/-- `RD STATUS -> st` (30_encoding.md R84). -/
def readStatusVar (s : State) : State :=
  let t := accessRead .status s
  { t with locals := { t.locals with st := statusByte s } }

/-- `ok <- …` (30_encoding.md R84). -/
def setOk (b : Bool) (s : State) : State :=
  { s with locals := { s.locals with ok := flagByte b } }

end Sys2Proof.Machine
end

