-- ==== Sys2Proof/Machine/Controller.lean ====
section
/-! DEFINITION. The controller's completion step (41_controller_actions.md R130 to R139). -/

namespace Sys2Proof.Machine

/-- The responses the environment may give to a pending action (R130). -/
def admitted : Action → Response → Bool
  | _, .hold => true
  | .start, .startOk => true
  | .stop, .stopOk => true
  | .tx _, .txAck _ => true
  | .rx _, .rxByte _ => true
  | .stop, .busErr => false
  | _, .busErr => true
  | _, _ => false

/-- An action has completed with an outcome code; INT is set (R138). -/
def complete (code : Byte) (ph : Phase) (e : BusEvent) (s : State) : State :=
  { s with
    code := code, phase := ph, pending := none, busLog := s.busLog ++ [e]
    ctrl := { s.ctrl with int := true } }

/-- START completes: a START from IDLE, else a repeated START (R131). -/
def completeStart (s : State) : State :=
  complete (startCode s.phase) .started (if s.phase = .idle then .start else .rstart) s

/-- STOP completes: STO self-clears, INT is not set, and the condition is on the bus only if the bus was held (R132). -/
def completeStop (s : State) : State :=
  { s with
    busLog := if owned s.phase = true then s.busLog ++ [.stop] else s.busLog
    phase := .idle, pending := none, ctrl := { s.ctrl with sto := false }, code := codeNoInfo }

/-- A byte has been sent: an address byte in STARTED (R133), else a data byte (R134; only MT otherwise holds a pending Tx,
R135, log 17). -/
def completeTx (b : Byte) (ack : Bool) (s : State) : State :=
  if s.phase = .started then
    complete (addressCode (byteBit b 0) ack) (addressPhase (byteBit b 0) ack) (.addr b ack) s
  else complete (dataCode ack) (dataPhase ack) (.txdata b ack) s

/-- A byte has been received (R136). -/
def completeRx (ea : Bool) (x : Byte) (s : State) : State :=
  complete (receiveCode ea) (receivePhase ea) (.rxdata x ea) { s with data := x }

/-- The environment reports a bus error (R139). -/
def completeBusErr (s : State) : State := complete codeBusErr .busErr .busError s

/-- `ctrlStep(r)` for the pending action `a`. `Hold` changes nothing (R137). An answer that is not admitted is not offered
(R130); the model reads such an entry of its queue as `Hold` (log 2). -/
def ctrlStep (a : Action) (r : Response) (s : State) : State :=
  match a, r with
  | .start, .startOk => completeStart s
  | .stop, .stopOk => completeStop s
  | .tx b, .txAck ack => completeTx b ack s
  | .rx ea, .rxByte x => completeRx ea x s
  | .start, .busErr => completeBusErr s
  | .tx _, .busErr => completeBusErr s
  | .rx _, .busErr => completeBusErr s
  | _, _ => s

end Sys2Proof.Machine
end

