-- ==== Sys2Proof/Machine/Access.lean ====
section
/-! DEFINITION. The register reads and the plain register writes (40_register_access.md R100, R110 to R115). -/

namespace Sys2Proof.Machine

/-- `RD DIV` (R114). -/
def execRdDiv (s : State) : Out := .next (accessRead .div s)

/-- `RD STATUS` (R110). -/
def execRdStatus (s : State) : Out := .next (accessRead .status s)

/-- `RD DATA` (R112). -/
def execRdData (s : State) : Out := .next (accessRead .data s)

/-- `RD CTRL` (R100). -/
def execRdCtrl (s : State) : Out := .next (accessRead .ctrl s)

/-- `WR DIV, v` (R115). -/
def execWrDiv (v : Byte) (s : State) : Out := writeReg .div v s

/-- `WR STATUS, v` (R111). -/
def execWrStatus (v : Byte) (s : State) : Out := writeReg .status v s

/-- `WR DATA, v` (R113). -/
def execWrData (v : Byte) (s : State) : Out := writeReg .data v s

end Sys2Proof.Machine
end

