-- ==== Sys2Proof/Machine/Command.lean ====
section
/-! DEFINITION. The CTRL write classes (40_register_access.md R101 to R109). Each writes its row's byte. The hardware sees only
the byte (30_encoding.md R70), so the classes that have an effect classify it in the state they run in (R101); the decoder
picks the row whose class that is (log 10). -/

namespace Sys2Proof.Machine

/-- `WR CTRL` class DISABLE (R102). -/
def execWrCtrlDisable (int ea sta sto : Bool) (s : State) : Out := writeReg .ctrl (packCtrl int ea sta sto false) s

/-- `WR CTRL` class CONFIG (R103). -/
def execWrCtrlConfig (ea sta sto : Bool) (s : State) : Out := writeReg .ctrl (packCtrl false ea sta sto true) s

/-- `WR CTRL` class START (R104). -/
def execWrCtrlStart (ea : Bool) (s : State) : Out := writeReg .ctrl (packCtrl true ea true false true) s

/-- `WR CTRL` class STOP (R105). -/
def execWrCtrlStop (ea : Bool) (s : State) : Out := writeReg .ctrl (packCtrl true ea false true true) s

/-- `WR CTRL` class STASTO: it faults (R109). -/
def execWrCtrlStaSto (ea : Bool) (s : State) : Out := writeReg .ctrl (packCtrl true ea true true true) s

/-- `WR CTRL` class TX (R106). -/
def execWrCtrlTx (ea : Bool) (s : State) : Out := writeReg .ctrl (packCtrl true ea false false true) s

/-- `WR CTRL` class RX_ACK (R107). -/
def execWrCtrlRxAck (s : State) : Out := writeReg .ctrl (packCtrl true true false false true) s

/-- `WR CTRL` class RX_NACK (R108). -/
def execWrCtrlRxNack (s : State) : Out := writeReg .ctrl (packCtrl true false false false true) s

/-- `WR CTRL` class ILLEGAL: it faults, after the busy check, with the phase, OFF counted as IDLE (R109, 30_encoding.md R72
steps 3, 6 and 8). The open bits of the byte change nothing. -/
def execWrCtrlIllegal (_ea _sta : Bool) (s : State) : Out :=
  if s.pending ≠ none then raiseFault (.writeWhileBusy .ctrl)
  else raiseFault (.illegalCommand (commandPhase s.phase))

end Sys2Proof.Machine
end

