-- ==== Sys2Proof/Machine/Lifecycle.lean ====
section
/-! DEFINITION. The bus controller's lifecycle: INIT and CLOSE (42_bus_controller_lifecycle.md R160, R161). A primitive's first
access is made by the instruction itself, its later accesses by the steps of the driver (log 8). -/

namespace Sys2Proof.Machine

/-- `initialize()`: the guard, then `WR STATUS, INIT_PS` (R160). -/
def execInit (s : State) : Out :=
  if s.txnOpen = true ∨ s.wedged = true then raiseFault (.lifecycleViolation .init)
  else andThen (writeReg .status (prescalerByte s.params.initPs) s) fun t => .next (goOn .initDiv t)

/-- `initialize()`, second access: `WR DIV, INIT_DIV` (R160). -/
def resumeInitDiv (s : State) : Out :=
  andThen (writeReg .div s.params.initDiv s) fun t => .next (goOn .initCtrl t)

/-- `initialize()`, third access: `WR CTRL, 0x04`, then lifecycle Ready (R160). -/
def resumeInitCtrl (s : State) : Out :=
  andThen (writeReg .ctrl 0x04 s) fun t => .next (finishPrim .unit { t with lifecycle := .ready })

/-- `close()`: the guard, `WR CTRL, 0x00`, then lifecycle Closed (R161). -/
def execClose (s : State) : Out :=
  if s.txnOpen = true ∧ s.wedged = false then raiseFault (.lifecycleViolation .close)
  else andThen (writeReg .ctrl 0x00 s) fun t =>
    .next (finishPrim .unit { t with lifecycle := .closed, txnOpen := false, wedged := false })

end Sys2Proof.Machine
end

