-- ==== Sys2Proof/Machine/Transaction.lean ====
section
/-! DEFINITION. The transaction primitives START and STOP (43_transaction_primitives.md R172, R173). -/

namespace Sys2Proof.Machine

/-- `start()`: the guard, `WR CTRL, 0xA4`, `txnOpen <- true`; next comes the poll of INT (R172). -/
def beginStart (s : State) : Out :=
  guardReady .start s fun s =>
    andThen (writeReg .ctrl 0xA4 s) fun t => .next (goOn .startPoll { t with txnOpen := true })

/-- The poll of `start()` exits: return, or read the status when START_CHECK (R172). -/
def startPolled (s : State) : State :=
  if s.params.startCheck then goOn .startStatus s else finishPrim .unit s

/-- `start()`: one read of its poll loop (R172). -/
def resumeStartPoll (s : State) : State := primPoll true 0x80 startPolled s

/-- A checked `start()`: `RD STATUS -> st`, the masked code against START_OK (R172). -/
def resumeStartStatus (s : State) : State :=
  let t := setOk (startOk (statusByte s)) (readStatusVar s)
  let t := { t with locals := { t.locals with s := maskCode (statusByte s) } }
  finishPrim (if startOk (statusByte s) then .startOk else .startFailed (maskCode (statusByte s))) t

/-- `stop()`: the guard, `WR CTRL, 0x94`; next comes the poll of STO (R173). -/
def beginStop (s : State) : Out :=
  guardReady .stop s fun s => andThen (writeReg .ctrl 0x94 s) fun t => .next (goOn .stopPoll t)

/-- `stop()`: one read of its poll loop; on exit `txnOpen <- false` (R173). -/
def resumeStopPoll (s : State) : State :=
  primPoll false 0x10 (fun t => finishPrim .unit { t with txnOpen := false }) s

/-- The pseudo-instruction START (R172). -/
def execStart (s : State) : Out := beginStart s

/-- The pseudo-instruction STOP (R173). -/
def execStop (s : State) : Out := beginStop s

end Sys2Proof.Machine
end

