-- ==== Sys2Proof/Machine/Transfer.lean ====
section
/-! DEFINITION. The byte transfer engine: WRBYTE and RDBYTE (44_byte_transfer.md R180, R182). -/

namespace Sys2Proof.Machine

/-- `writeByte(b)`: the guard, `WR DATA, b` (R180). -/
def beginWrbyte (b : Byte) (s : State) : Out :=
  guardReady .writeByte s fun s => andThen (writeReg .data b s) fun t => .next (goOn .wrbyteCtrl t)

/-- `writeByte`, second access: `WR CTRL, 0x84` (R180). -/
def resumeWrbyteCtrl (s : State) : Out :=
  andThen (writeReg .ctrl 0x84 s) fun t => .next (goOn .wrbytePoll t)

/-- `writeByte`: one read of its poll loop (R180). -/
def resumeWrbytePoll (s : State) : State := primPoll true 0x80 (goOn .wrbyteStatus) s

/-- `writeByte`, last access: `RD STATUS -> st`; it returns `writeOk(st)` (R180, R181). -/
def resumeWrbyteStatus (s : State) : State :=
  finishPrim (.bool (writeOk (statusByte s))) (setOk (writeOk (statusByte s)) (readStatusVar s))

/-- `readByte(ack)`: the guard, then the write that carries the ACK policy and starts the reception (R182, R183). -/
def beginRdbyte (ack : Bool) (s : State) : Out :=
  guardReady .readByte s fun s =>
    andThen (writeReg .ctrl (if ack then 0xC4 else 0x84) s) fun t => .next (goOn .rdbytePoll t)

/-- `readByte`: one read of its poll loop (R182). -/
def resumeRdbytePoll (s : State) : State := primPoll true 0x80 (goOn .rdbyteStatus) s

/-- `readByte`: `RD STATUS -> st`; on failure it returns `(false, none)` (R182, R184, R188). -/
def resumeRdbyteStatus (s : State) : State :=
  let t := setOk (readOk (statusByte s)) (readStatusVar s)
  if readOk (statusByte s) then goOn .rdbyteData t else finishPrim (.read false none) t

/-- `readByte`, last access: `RD DATA -> v`; it returns `(true, some v)` (R182). -/
def resumeRdbyteData (s : State) : State :=
  let t := accessRead .data s
  let v := (readReg .data s).1
  finishPrim (.read true (some v)) { t with locals := { t.locals with v := v } }

/-- The pseudo-instruction WRBYTE (R180). -/
def execWrbyte (b : Byte) (s : State) : Out := beginWrbyte b s

/-- The pseudo-instruction RDBYTE (R182). -/
def execRdbyte (ack : Bool) (s : State) : Out := beginRdbyte ack s

end Sys2Proof.Machine
end

