-- ==== Sys2Proof/Machine/Contract.lean ====
section
/-! DEFINITION. The register-access contract: WRREG and RDREG (45_register_access_contract.md R200 to R203). -/

namespace Sys2Proof.Machine

/-- The contract's check of its device address, before anything else (R202, 60_exceptions.md R225). -/
def checkDevice (dev : Byte) (s : State) (go : State → Out) : Out :=
  if dev.toNat > 0x7F then raiseFault (.badDeviceAddress dev) else go s

/-- `writeRegister(dev, reg, val)`: the check, then `start()` (R200). -/
def execWrreg (dev reg val : Byte) (s : State) : Out :=
  checkDevice dev s fun s => beginStart (wrStage dev reg val .start s)

/-- `readRegister(dev, reg)`: the check, then `start()` (R201). -/
def execRdreg (dev reg : Byte) (s : State) : Out :=
  checkDevice dev s fun s => beginStart (rdStage dev reg .start s)

/-- The next call of a contract call in progress (R200, R201). -/
def resumeContract (c : Contract) (s : State) : Out :=
  match c with
  | .wrreg dev reg val st =>
    match st with
    | .start => beginStart s
    | .addr => beginWrbyte (addressByte dev false) s
    | .reg => beginWrbyte reg s
    | .val => beginWrbyte val s
    | .stop => beginStop s
    | .abort => beginStop s
  | .rdreg dev reg st =>
    match st with
    | .start => beginStart s
    | .addrW => beginWrbyte (addressByte dev false) s
    | .reg => beginWrbyte reg s
    | .restart => beginStart s
    | .addrR => beginWrbyte (addressByte dev true) s
    | .read => beginRdbyte false s
    | .stop _ => beginStop s
    | .abort => beginStop s

/-- The next access of a primitive in progress (10_state.md R21). -/
def resumePrim (p : PrimPoint) (s : State) : Out :=
  match p with
  | .initDiv => resumeInitDiv s
  | .initCtrl => resumeInitCtrl s
  | .startPoll => .next (resumeStartPoll s)
  | .startStatus => .next (resumeStartStatus s)
  | .stopPoll => .next (resumeStopPoll s)
  | .wrbyteCtrl => resumeWrbyteCtrl s
  | .wrbytePoll => .next (resumeWrbytePoll s)
  | .wrbyteStatus => .next (resumeWrbyteStatus s)
  | .rdbytePoll => .next (resumeRdbytePoll s)
  | .rdbyteStatus => .next (resumeRdbyteStatus s)
  | .rdbyteData => .next (resumeRdbyteData s)

end Sys2Proof.Machine
end

