-- ==== Sys2Proof/Machine/Dispatch.lean ====
section
/-! DEFINITION. One arm per instruction of the opcode table. -/

namespace Sys2Proof.Machine

def exec (i : Instr) (s : State) : Host.Outcome State Fault Refusal :=
  match i with
  | .rdDiv => Sys2Proof.Machine.execRdDiv s
  | .rdStatus => Sys2Proof.Machine.execRdStatus s
  | .rdData => Sys2Proof.Machine.execRdData s
  | .rdCtrl => Sys2Proof.Machine.execRdCtrl s
  | .wrDiv v => Sys2Proof.Machine.execWrDiv v s
  | .wrStatus v => Sys2Proof.Machine.execWrStatus v s
  | .wrData v => Sys2Proof.Machine.execWrData v s
  | .wrCtrlDisable int ea sta sto => Sys2Proof.Machine.execWrCtrlDisable int ea sta sto s
  | .wrCtrlConfig ea sta sto => Sys2Proof.Machine.execWrCtrlConfig ea sta sto s
  | .wrCtrlStart ea => Sys2Proof.Machine.execWrCtrlStart ea s
  | .wrCtrlStop ea => Sys2Proof.Machine.execWrCtrlStop ea s
  | .wrCtrlStaSto ea => Sys2Proof.Machine.execWrCtrlStaSto ea s
  | .wrCtrlTx ea => Sys2Proof.Machine.execWrCtrlTx ea s
  | .wrCtrlRxAck => Sys2Proof.Machine.execWrCtrlRxAck s
  | .wrCtrlRxNack => Sys2Proof.Machine.execWrCtrlRxNack s
  | .wrCtrlIllegal ea sta => Sys2Proof.Machine.execWrCtrlIllegal ea sta s
  | .init => Sys2Proof.Machine.execInit s
  | .close => Sys2Proof.Machine.execClose s
  | .start => Sys2Proof.Machine.execStart s
  | .stop => Sys2Proof.Machine.execStop s
  | .wrbyte b => Sys2Proof.Machine.execWrbyte b s
  | .rdbyte ack => Sys2Proof.Machine.execRdbyte ack s
  | .wrreg dev reg val => Sys2Proof.Machine.execWrreg dev reg val s
  | .rdreg dev reg => Sys2Proof.Machine.execRdreg dev reg s

end Sys2Proof.Machine
end

