-- ==== Sys2Proof/Machine/Driver.lean ====
section
/-! DEFINITION. The CPU agent: the statements of a driver program (30_encoding.md R83, R86), fetching and decoding, and which agent
moves (20_memory.md R58). -/

namespace Sys2Proof.Machine

/-- The statement at the driver's position (R86). -/
def fetch (s : State) : Option Stmt := s.program[s.pos]?

/-- The outcome of a word that is no instruction: the fault the spec names, or a refusal by name. -/
def rejected : Reject → Out
  | .reservedBit v => raiseFault (.reservedBit v)
  | .unmappedRegister off => raiseFault (.unmappedRegister off)
  | .notAccessWord w => .refused (.notAccessWord w)

/-- Decode an access word in the phase the controller is in and run the instruction (30_encoding.md R85). -/
def runWord (w : Word) (s : State) : Out :=
  match decode s.phase w with
  | .ok i => exec i s
  | .error e => rejected e

/-- `-> <var>`: the access's result goes into a driver variable (R83). -/
def storeResult (dst : Option Var) (s : State) : State :=
  match dst, s.result with
  | some x, some b => { s with locals := setVar x b s.locals }
  | _, _ => s

/-- The index of a label's first definition, counting from `n` (R86). -/
def labelIndex (l : Nat) : List Stmt → Nat → Option Nat
  | [], _ => none
  | .label k :: rest, n => if k = l then some n else labelIndex l rest (n + 1)
  | _ :: rest, n => labelIndex l rest (n + 1)

/-- `goto`: the position becomes the label's index (R86); a label that is not there is refused (log 16). -/
def jump (l : Nat) (s : State) : Out :=
  match labelIndex l s.program 0 with
  | some n => .next { s with pos := n }
  | none => .refused (.noSuchLabel l)

/-- A wait statement: one poll read; the position stays until the wait exits (R86), or gives up at POLL_LIMIT (log 14). -/
def waitStmt (untilSet : Bool) (m : Byte) (s : State) : State :=
  pollStep untilSet m advance (fun t => advance { t with ret := some .busTimeout }) s

/-- A CPU bus access by address and width: wider than one byte, or an instruction fetch, it faults; else it is the access of
its offset (20_memory.md R51, R55, R62, 60_exceptions.md R225). An access of width 0 touches no byte of the window and is refused
(DESIGN CHOICE, log 15). -/
def busAccess (k : BusKind) (addr width : Nat) (v : Byte) (s : State) : Out :=
  if touchesWindow s.params addr width = false then .refused (.outsideWindow addr)
  else if width ≠ 1 ∨ k = .fetch then raiseFault .wideAccess
  else match windowOffset s.params addr with
    | none => .refused (.outsideWindow addr)
    | some off => runWord (accessWord (k == .write) off (if k = .write then v else 0)) s

/-- One statement (R83). What `return` may carry R83 leaves open: an 8-bit expression or nothing (DESIGN CHOICE, log 29). -/
def runStmt (t : Stmt) (s : State) : Out :=
  match t with
  | .word w => runWord w (advance s)
  | .rd r dst => andThen (runWord (readWord r) (advance s)) fun u => .next (storeResult dst u)
  | .wr r e => runWord (writeWord r (evalExpr s.locals e)) (advance s)
  | .waitSet m => .next (waitStmt true m s)
  | .waitClr m => .next (waitStmt false m s)
  | .assign x e => .next (advance { s with locals := setVar x (evalExpr s.locals e) s.locals })
  | .test x c => .next (advance { s with locals := setVar x (flagByte (evalCond s c)) s.locals })
  | .ifGoto c l => if evalCond s c then jump l s else .next (advance s)
  | .goto l => jump l s
  | .label _ => .next (advance s)
  | .ret e => .next { s with pos := s.program.length, ret := some (.program (e.map (evalExpr s.locals))) }
  | .call p => exec (callInstr s.locals p) (advance s)
  | .bus k addr width v => busAccess k addr width v (advance s)

/-- The CPU has a step: a primitive or a contract call in progress, or a statement at its position. -/
def cpuReady (s : State) : Bool :=
  s.prim.isSome || s.contract.isSome || (fetch s).isSome

/-- One step of the CPU: the next access of the primitive in progress, else the next call of the contract in progress, else
the next statement of the program. -/
def cpuStep (s : State) : Out :=
  match s.prim with
  | some p => resumePrim p s
  | none =>
    match s.contract with
    | some c => resumeContract c s
    | none =>
      match fetch s with
      | some t => runStmt t s
      | none => .refused .endOfRun

/-- The next choice of who moves: from the queue, or a free value when the queue is empty (log 2). -/
def takeTurn (s : State) : Turn × State :=
  match s.turns with
  | [] => (Config.freeTurn s.draws, { s with draws := s.draws + 1 })
  | t :: ts => (t, { s with turns := ts })

/-- A step while an action is pending: the CPU or the controller moves (20_memory.md R58, R226). A CPU with no statement left
does nothing (log 13). -/
def busyStep (a : Action) (s : State) : Out :=
  match takeTurn s with
  | (.cpu, t) => if cpuReady t then cpuStep t else .next t
  | (.ctrl r, t) => .next (ctrlStep a r t)

/-- A step of the machine that has not faulted: while no action is pending only the CPU has a step (41_controller_actions.md
R130). -/
def liveStep (s : State) : Out :=
  match s.pending with
  | none => cpuStep s
  | some a => busyStep a s

/-- One step; the faulted state takes none (60_exceptions.md R220). -/
def machineStep (s : State) : Out :=
  match s.fault with
  | some k => .fault k
  | none => liveStep s

/-- A program with one statement at position `n`, the statements around it kept. -/
def placeStmt (t : Stmt) (n : Nat) (p : List Stmt) : List Stmt :=
  p.take n ++ List.replicate (n - p.length) (.word 0) ++ t :: p.drop (n + 1)

/-- The state whose next step is the CPU's and fetches the access word `w` (log 1). -/
def placeWord (w : Nat) (s : State) : State :=
  { s with
    program := placeStmt (.word (BitVec.ofNat 16 w)) s.pos s.program
    prim := none, contract := none, fault := none
    turns := if s.pending = none then s.turns else .cpu :: s.turns }

end Sys2Proof.Machine
end

