-- ==== Sys2Proof/Machine/Slave.lean ====
section
/-! DEFINITION. The reference slave of 95_test_vectors.md §4 (92_eei_decisions.md D45): one concrete environment, not part of the
machine's state. -/

namespace Sys2Proof.Machine

/-- What the slave takes the next byte for. -/
inductive SlaveMode where
  | none | wFirst | w | r
  deriving DecidableEq, Repr

/-- The reference slave: its 7-bit address, its registers (all 0 at start), its pointer and its mode. -/
structure Slave where
  addr : BitVec 7
  present : Bool
  regs : List Host.Cell
  ptr : Byte
  mode : SlaveMode
  deriving DecidableEq, Repr

/-- The slave at start. -/
def Slave.fresh (addr : BitVec 7) (present : Bool) : Slave :=
  { addr := addr, present := present, regs := [], ptr := 0, mode := .none }

/-- A byte addressed to this slave: it is present and bits 7:1 are its address. -/
def slaveAddressed (d : Slave) (b : Byte) : Bool := d.present && b.extractLsb' 1 7 == d.addr

/-- The answer to an address byte. -/
def slaveAddress (b : Byte) (d : Slave) : Response × Slave :=
  if slaveAddressed d b then
    (.txAck true, { d with mode := if byteBit b 0 then .r else .wFirst })
  else (.txAck false, { d with mode := .none })

/-- The answer to a data byte: the first one sets the pointer, the next ones write registers. In the modes the table gives
no row for, which no run reaches, it holds (log 19). -/
def slaveData (b : Byte) (d : Slave) : Response × Slave :=
  match d.mode with
  | .wFirst => (.txAck true, { d with ptr := b, mode := .w })
  | .w => (.txAck true, { d with regs := Cells.write d.ptr.toNat b d.regs, ptr := d.ptr + 1 })
  | .r | .none => (.hold, d)

/-- The answer to a reception: the register at the pointer (log 19 for the other modes). -/
def slaveReceive (d : Slave) : Response × Slave :=
  match d.mode with
  | .r => (.rxByte (Cells.read d.ptr.toNat d.regs), { d with ptr := d.ptr + 1 })
  | .wFirst | .w | .none => (.hold, d)

/-- The reference slave's answer to a pending action in a phase (95_test_vectors.md §4). -/
def slaveAnswer (ph : Phase) (a : Action) (d : Slave) : Response × Slave :=
  match a with
  | .start => (.startOk, { d with mode := .none })
  | .stop => (.stopOk, { d with mode := .none })
  | .tx b => if ph = .started then slaveAddress b d else slaveData b d
  | .rx _ => slaveReceive d

end Sys2Proof.Machine
end

