-- ==== Sys2Proof/Machine/System.lean ====
section
/-! DEFINITION. Runs: a number of steps, the run that records its fault, and the machine closed with the reference slave under schedule
S0 of 95_test_vectors.md. -/

namespace Sys2Proof.Machine

/-- `n` steps, stopping at the first fault or refusal. -/
def run : Nat → State → Out
  | 0, s => .next s
  | n + 1, s => andThen (step s) (run n)

/-- One step with the fault recorded in the state (60_exceptions.md R220): a faulting step leaves the state as it was but for
`fault`; a step that is refused leaves it. -/
def recordStep (s : State) : State :=
  match step s with
  | .next t => t
  | .fault k => recordFault k s
  | .refused _ => s

/-- One step of the machine and the reference slave: under schedule S0 the controller moves as soon as an action is pending,
with the slave's answer. -/
def systemStep (p : State × Slave) : Option (State × Slave) :=
  let (s, d) := p
  match s.pending with
  | some a =>
    let (r, e) := slaveAnswer s.phase a d
    match step { s with turns := .ctrl r :: s.turns } with
    | .next t => some (t, e)
    | .fault _ => none
    | .refused _ => none
  | none =>
    match step s with
    | .next t => some (t, d)
    | .fault _ => none
    | .refused _ => none

/-- `n` steps of the closed system. -/
def systemRun : Nat → State × Slave → Option (State × Slave)
  | 0, p => some p
  | n + 1, p => (systemStep p).bind (systemRun n)

end Sys2Proof.Machine
end

