-- ==== Sys2Proof/Safety.lean ====
section
/-! DEFINITION. What claims are stated in: the invariants of 10_state.md R34 and R29, the primitive boundary of
70_reset_and_hazards.md R262, the complete run of R264, hangs (60_exceptions.md R223) and the states claims start from. -/

namespace Sys2Proof.Machine

/-! ### Well-formed data -/

/-- The driver's own variables are in canonical form. -/
abbrev localsWf (s : State) : Prop := Cells.wf s.locals.user = true

/-! ### What a step leaves alone -/

/-- Two states agree on everything of the controller: the registers, the phase, the action in flight, the bus log. -/
abbrev SameHardware (s t : State) : Prop := t.toController = s.toController

/-! ### The hardware invariant -/

/-- The codes a phase shows while no action is pending (10_state.md R29). -/
def phaseCodes : Phase → List Byte
  | .off | .idle => [0xF8]
  | .started => [0x08, 0x10]
  | .mt => [0x18, 0x28]
  | .mtNacked => [0x20, 0x30]
  | .mr => [0x40, 0x50]
  | .mrNacked => [0x48]
  | .mrDone => [0x58]
  | .busErr => [0x00]

/-- The phases in which an action can be pending (30_encoding.md R72, 41_controller_actions.md R135). -/
def actionPhase : Action → Phase → Bool
  | .start, ph => ph != .off && ph != .busErr
  | .stop, ph => ph != .off
  | .tx _, ph => ph == .started || ph == .mt
  | .rx _, ph => ph == .mr

/-- R34.1: the phase is OFF exactly when EN = 0. -/
abbrev offIffDisabled (s : State) : Prop := s.phase = .off ↔ s.ctrl.en = false

/-- R34.2, with the phases of R135: a pending action means INT = 0, code 0xF8 and a phase that can hold it. -/
abbrev pendingConsistent (s : State) : Prop :=
  ∀ a, s.pending = some a → s.ctrl.int = false ∧ s.code = 0xF8 ∧ actionPhase a s.phase = true

/-- R34.3 and the code column of R29: with no action pending the code is one of its phase's. -/
abbrev codeFitsPhase (s : State) : Prop := s.pending = none → s.code ∈ phaseCodes s.phase

/-- R34.4: a pending STOP means STO = 1. -/
abbrev stopRequested (s : State) : Prop := s.pending = some .stop → s.ctrl.sto = true

/-- R34.5: the low three bits of the code are 0. -/
abbrev codeLowBitsZero (s : State) : Prop := s.code &&& 0x07 = 0

/-- R34.6: the reserved bits of CTRL read 0. -/
abbrev ctrlReservedZero (s : State) : Prop := ctrlByte s &&& 0x0B = 0

/-- The invariant of 10_state.md R34. -/
structure HardwareInv (s : State) : Prop where
  off_iff_disabled : offIffDisabled s
  pending_consistent : pendingConsistent s
  code_fits_phase : codeFitsPhase s
  stop_requested : stopRequested s
  code_low_bits_zero : codeLowBitsZero s
  ctrl_reserved_zero : ctrlReservedZero s

/-! ### The primitive boundary -/

/-- A statement that makes no register access of its own: local computation or a call of a pseudo-instruction. -/
def Stmt.onlyCalls : Stmt → Bool
  | .assign _ _ | .test _ _ | .ifGoto _ _ | .goto _ | .label _ | .ret _ | .call _ => true
  | .word _ | .rd _ _ | .wr _ _ | .waitSet _ | .waitClr _ | .bus _ _ _ _ => false

/-- The program is a driver that reaches the controller only through the pseudo-instructions. -/
abbrev onlyCalls (s : State) : Prop := s.program.all Stmt.onlyCalls = true

/-- What may be pending where a primitive stands: at a poll its own action, or nothing and the flag it waits for; elsewhere
nothing. -/
def pointPending (s : State) : PrimPoint → Prop
  | .startPoll => s.pending = some .start ∨ (s.pending = none ∧ s.ctrl.int = true)
  | .stopPoll => s.pending = some .stop ∨ (s.pending = none ∧ s.ctrl.sto = false)
  | .wrbytePoll | .rdbytePoll =>
      (∃ b, s.pending = some (.tx b)) ∨ (∃ ea, s.pending = some (.rx ea)) ∨
        (s.pending = none ∧ s.ctrl.int = true)
  | _ => s.pending = none

/-- 70_reset_and_hazards.md R262: no action is pending at a primitive boundary unless the driver is wedged. -/
def boundaryQuiet (s : State) : Prop :=
  match s.prim with
  | some p => pointPending s p
  | none => s.wedged = false → s.pending = none

/-- The driver invariant behind R262. -/
structure DriverInv (s : State) : Prop where
  only_calls : onlyCalls s
  boundary_quiet : boundaryQuiet s

/-! ### Runs -/

/-- A driver run is complete: no primitive is executing, nothing is pending, no transaction is open, and the driver is not
wedged (70_reset_and_hazards.md R264). -/
abbrev completeRun (s : State) : Prop :=
  s.prim = none ∧ s.contract = none ∧ s.pending = none ∧ s.txnOpen = false ∧ s.wedged = false

/-- The environment answers `Hold`, or the CPU moves, at every coming choice of the queue. -/
def idleTurns (ts : List Turn) : Bool := ts.all fun t => t == .cpu || t == .ctrl .hold

/-- The coming choices `ts`, then a controller step with the answer `r`, then `rest`. -/
abbrev thenAnswer (ts : List Turn) (r : Response) (rest : List Turn) : List Turn := ts ++ .ctrl r :: rest

/-- The coming choices under a schedule: for each entry its choices, then its answer; after the last entry, `rest`. -/
def answerTurns : List (List Turn × Response) → List Turn → List Turn
  | [], rest => rest
  | (ts, r) :: more, rest => thenAnswer ts r (answerTurns more rest)

/-- How many of the coming choices are the CPU's. -/
def cpuTurns (ts : List Turn) : Nat := ts.count .cpu

/-- The driver agent stands at a call boundary: no primitive and no contract call in progress, no fault. -/
abbrev atBoundary (s : State) : Prop := s.fault = none ∧ s.prim = none ∧ s.contract = none

/-- The driver may call a transaction primitive (42_bus_controller_lifecycle.md R162). -/
abbrev driverReady (s : State) : Prop := s.lifecycle = .ready ∧ s.wedged = false

/-- Ready and quiet: the state in which the contract's calls start (95_test_vectors.md, state RS, but for the values no rule
needs). -/
abbrev readyState (s : State) : Prop :=
  atBoundary s ∧ driverReady s ∧ s.txnOpen = false ∧ s.phase = .idle ∧ s.pending = none

end Sys2Proof.Machine
end

