-- ==== Sys2Proof/Certificates/Slice0/Obligations.lean ====
section
/-! DEFINITION. The statements for the provers. Every statement about a next state gives the whole of it, so its frame is part of
it: `{ s with … }` leaves every field alone that it does not name. -/

open Sys2Proof Sys2Proof.Machine

/-! ### Register reads (40_register_access.md) -/

/-- R100: RD CTRL returns INT, EA, STA, STO and EN at bits 7, 6, 5, 4 and 2, the reserved bits read 0, also while an action is
pending, and nothing but the access's result changes. -/
def Obligations.ReadCtrlReturnsTheFields : Prop :=
  ∀ s : State, ∃ b : Byte,
    exec .rdCtrl s = .next { s with result := some b } ∧
    b.getLsbD 7 = s.ctrl.int ∧ b.getLsbD 6 = s.ctrl.ea ∧ b.getLsbD 5 = s.ctrl.sta ∧ b.getLsbD 4 = s.ctrl.sto ∧
    b.getLsbD 3 = false ∧ b.getLsbD 2 = s.ctrl.en ∧ b.getLsbD 1 = false ∧ b.getLsbD 0 = false

/-- R110: RD STATUS returns `code | PS`; masked with 0xF8 it is the code, bits 1:0 are PS and bit 2 reads 0. -/
def Obligations.ReadStatusReturnsCodeAndPrescaler : Prop :=
  ∀ s : State,
    exec .rdStatus s = .next { s with result := some (s.code ||| s.ps.setWidth 8) } ∧
    (codeLowBitsZero s →
      (s.code ||| s.ps.setWidth 8) &&& 0xF8 = s.code ∧ (s.code ||| s.ps.setWidth 8).getLsbD 2 = false ∧
      (s.code ||| s.ps.setWidth 8).extractLsb' 0 2 = s.ps)

/-- R112, R114: RD DATA returns DATA, or a free byte while an action is pending; RD DIV returns DIV. The draw counter is the model's
own (log 3). -/
def Obligations.ReadDataAndDivReturnTheRegister : Prop :=
  ∀ s : State,
    (s.pending = none → exec .rdData s = .next { s with result := some s.data }) ∧
    (s.pending ≠ none → ∃ x : Byte, exec .rdData s = .next { s with result := some x, draws := s.draws + 1 }) ∧
    exec .rdDiv s = .next { s with result := some s.div }

/-! ### Plain register writes -/

/-- R111, R113, R115: with no action pending WR DIV and WR DATA store the byte and WR STATUS stores its bits 1:0 in PS and leaves
the code; with one pending each faults with WriteWhileBusy. -/
def Obligations.PlainWritesStoreOrFaultBusy : Prop :=
  ∀ (v : Byte) (s : State),
    (s.pending = none →
      exec (.wrDiv v) s = .next { s with div := v } ∧
      exec (.wrStatus v) s = .next { s with ps := v.extractLsb' 0 2 } ∧
      exec (.wrData v) s = .next { s with data := v }) ∧
    (s.pending ≠ none →
      exec (.wrDiv v) s = .fault (.writeWhileBusy .div) ∧
      exec (.wrStatus v) s = .fault (.writeWhileBusy .status) ∧
      exec (.wrData v) s = .fault (.writeWhileBusy .data))

/-! ### CTRL write classes -/

/-- R102: a disable is always accepted; it stores the bits, clears INT if bit 7 is written 1, discards the pending action, logs
ABORT if one was pending or the bus was held, and keeps DATA, DIV and PS. -/
def Obligations.DisableAbortsAndKeepsData : Prop :=
  ∀ (int ea sta sto : Bool) (s : State),
    exec (.wrCtrlDisable int ea sta sto) s = .next { s with
      ctrl := { int := s.ctrl.int && !int, ea := ea, sta := sta, sto := sto, en := false }
      busLog := if s.pending ≠ none ∨ s.phase ∈ [.started, .mt, .mtNacked, .mr, .mrNacked, .mrDone]
        then s.busLog ++ [.abort] else s.busLog
      pending := none, phase := .off, code := 0xF8 }

/-- R103: CONFIG stores EA, STA, STO and EN, leaves INT, issues nothing, and enables the controller if it was off; it faults while
an action is pending. -/
def Obligations.ConfigStoresAndEnables : Prop :=
  ∀ (ea sta sto : Bool) (s : State),
    (s.pending = none →
      exec (.wrCtrlConfig ea sta sto) s = .next { s with
        ctrl := { int := s.ctrl.int, ea := ea, sta := sta, sto := sto, en := true }
        phase := if s.phase = .off then .idle else s.phase
        code := if s.phase = .off then 0xF8 else s.code }) ∧
    (s.pending ≠ none → exec (.wrCtrlConfig ea sta sto) s = .fault (.writeWhileBusy .ctrl))

/-- R104: the START command issues Start in every phase but BUSERR, enabling the controller if it was off; it faults while an action
is pending, and in BUSERR. -/
def Obligations.StartCommandIssuesStart : Prop :=
  ∀ (ea : Bool) (s : State),
    (s.pending = none → s.phase ≠ .busErr →
      exec (.wrCtrlStart ea) s = .next { s with
        ctrl := { int := false, ea := ea, sta := true, sto := false, en := true }
        phase := if s.phase = .off then .idle else s.phase
        pending := some .start, code := 0xF8 }) ∧
    (s.pending ≠ none → exec (.wrCtrlStart ea) s = .fault (.writeWhileBusy .ctrl)) ∧
    (s.pending = none → s.phase = .busErr → exec (.wrCtrlStart ea) s = .fault (.illegalCommand .busErr))

/-- R105: the STOP command issues Stop in every phase; it faults while an action is pending. -/
def Obligations.StopCommandIssuesStop : Prop :=
  ∀ (ea : Bool) (s : State),
    (s.pending = none →
      exec (.wrCtrlStop ea) s = .next { s with
        ctrl := { int := false, ea := ea, sta := false, sto := true, en := true }
        phase := if s.phase = .off then .idle else s.phase
        pending := some .stop, code := 0xF8 }) ∧
    (s.pending ≠ none → exec (.wrCtrlStop ea) s = .fault (.writeWhileBusy .ctrl))

/-- R106: the TX command, in STARTED or MT, issues Tx with the byte DATA holds at the write; it faults while an action is pending.
-/
def Obligations.TransmitCommandIssuesTx : Prop :=
  ∀ (ea : Bool) (s : State), s.phase = .started ∨ s.phase = .mt →
    (s.pending = none →
      exec (.wrCtrlTx ea) s = .next { s with
        ctrl := { int := false, ea := ea, sta := false, sto := false, en := true }
        pending := some (.tx s.data), code := 0xF8 }) ∧
    (s.pending ≠ none → exec (.wrCtrlTx ea) s = .fault (.writeWhileBusy .ctrl))

/-- R107, R108: the RX commands, in MR, issue Rx with the EA value of the write; they fault while an action is pending. -/
def Obligations.ReceiveCommandsIssueRx : Prop :=
  ∀ s : State, s.phase = .mr →
    (s.pending = none →
      exec .wrCtrlRxAck s = .next { s with
        ctrl := { int := false, ea := true, sta := false, sto := false, en := true }
        pending := some (.rx true), code := 0xF8 } ∧
      exec .wrCtrlRxNack s = .next { s with
        ctrl := { int := false, ea := false, sta := false, sto := false, en := true }
        pending := some (.rx false), code := 0xF8 }) ∧
    (s.pending ≠ none →
      exec .wrCtrlRxAck s = .fault (.writeWhileBusy .ctrl) ∧
      exec .wrCtrlRxNack s = .fault (.writeWhileBusy .ctrl))

/-- R109, on the instructions (that the ILLEGAL instruction faults in every phase is the model's choice, log 10): STASTO always
faults, with WriteWhileBusy while an action is pending and else with StartStopTogether; ILLEGAL always faults, with WriteWhileBusy
while an action is pending and else with IllegalCommand of the phase, OFF counted as IDLE. -/
def Obligations.FaultingClassesAlwaysFault : Prop :=
  ∀ (ea sta : Bool) (s : State),
    exec (.wrCtrlStaSto ea) s = .fault (if s.pending = none then .startStopTogether else .writeWhileBusy .ctrl) ∧
    exec (.wrCtrlIllegal ea sta) s = .fault (if s.pending = none
      then .illegalCommand (if s.phase = .off then .idle else s.phase) else .writeWhileBusy .ctrl)

/-- R109, on the written byte: what a step does that fetches `WR CTRL, v` of a faulting class. -/
def Obligations.FaultingCtrlBytesFault : Prop :=
  ∀ (v : Byte) (s : State), s.fault = none → s.prim = none → s.contract = none →
    s.program[s.pos]? = some (.word (writeWord .ctrl v)) →
    (v &&& 0x0B = 0 → v.getLsbD 2 = true → (∃ a ts, s.pending = some a ∧ s.turns = .cpu :: ts) →
      step s = .fault (.writeWhileBusy .ctrl)) ∧
    (v &&& 0xBF = 0xB4 → s.pending = none → step s = .fault .startStopTogether) ∧
    (v &&& 0xBF = 0x84 → s.pending = none → s.phase ∉ [.started, .mt, .mr] →
      step s = .fault (.illegalCommand (if s.phase = .off then .idle else s.phase))) ∧
    (v &&& 0xBF = 0xA4 → s.pending = none → s.phase = .busErr → step s = .fault (.illegalCommand .busErr))

/-- R101's RESERVED class: a CTRL write with bit 3, 1 or 0 set faults with ReservedBit, before the busy check. -/
def Obligations.ReservedBitsFaultFirst : Prop :=
  ∀ (v : Byte) (s : State), s.fault = none → s.prim = none → s.contract = none →
    s.program[s.pos]? = some (.word (writeWord .ctrl v)) →
    s.pending = none ∨ (∃ ts, s.turns = .cpu :: ts) →
    v.getLsbD 3 = true ∨ v.getLsbD 1 = true ∨ v.getLsbD 0 = true →
    step s = .fault (.reservedBit v)

/-- R116: an access at offset 2, 5, 6 or 7 faults with UnmappedRegister, read or write, whatever the byte and the phase, also while
an action is pending (on the CPU's turn). -/
def Obligations.UnmappedOffsetsFault : Prop :=
  ∀ (d : Bool) (off : BitVec 3) (v : Byte) (s : State),
    s.fault = none → s.prim = none → s.contract = none → s.pending = none ∨ (∃ ts, s.turns = .cpu :: ts) →
    s.program[s.pos]? = some (.word (accessWord d off (if d then v else 0))) →
    off = 2 ∨ off = 5 ∨ off = 6 ∨ off = 7 →
    step s = .fault (.unmappedRegister off)

/-- R51, R55, R62: an access to the window wider than one byte, aligned or not, and an instruction fetch from it fault with
WideAccess, also where only some of the access's bytes lie in the window (that a partly overlapping access faults is the model's
choice, log 15); with no action pending, a one-byte read or write at `TWI_BASE + off` does what its access word does. -/
def Obligations.WideAccessesFault : Prop :=
  ∀ (k : BusKind) (addr width : Nat) (v : Byte) (s : State),
    s.fault = none → s.prim = none → s.contract = none → s.pending = none ∨ (∃ ts, s.turns = .cpu :: ts) →
    s.program[s.pos]? = some (.bus k addr width v) →
    (s.params.twiBase < addr + width → addr < s.params.twiBase + 8 → 1 < width ∨ (k = .fetch ∧ 1 ≤ width) →
      step s = .fault .wideAccess) ∧
    (∀ off : BitVec 3, addr = s.params.twiBase + off.toNat → width = 1 → k ≠ .fetch → s.pending = none →
      step s = runWord (accessWord (k == .write) off (if k = .write then v else 0)) { s with pos := s.pos + 1 })

/-- R72, R85: in every phase the decoder reads `WR CTRL, v` as an instruction of the class `classifyCtrl` gives the byte, and that
instruction writes the byte v. -/
def Obligations.DecoderFollowsClassification : Prop :=
  ∀ (v : Byte) (ph : Phase),
    match classifyCtrl v ph none with
    | .reserved => decode ph (writeWord .ctrl v) = .error (.reservedBit v)
    | .busy => False
    | .disable => ∃ int ea sta sto, decode ph (writeWord .ctrl v) = .ok (.wrCtrlDisable int ea sta sto) ∧
        packCtrl int ea sta sto false = v
    | .config => ∃ ea sta sto, decode ph (writeWord .ctrl v) = .ok (.wrCtrlConfig ea sta sto) ∧
        packCtrl false ea sta sto true = v
    | .staSto => ∃ ea, decode ph (writeWord .ctrl v) = .ok (.wrCtrlStaSto ea) ∧ packCtrl true ea true true true = v
    | .start => ∃ ea, decode ph (writeWord .ctrl v) = .ok (.wrCtrlStart ea) ∧ packCtrl true ea true false true = v
    | .stop => ∃ ea, decode ph (writeWord .ctrl v) = .ok (.wrCtrlStop ea) ∧ packCtrl true ea false true true = v
    | .tx => ∃ ea, decode ph (writeWord .ctrl v) = .ok (.wrCtrlTx ea) ∧ packCtrl true ea false false true = v
    | .rx true => decode ph (writeWord .ctrl v) = .ok .wrCtrlRxAck ∧ v = 0xC4
    | .rx false => decode ph (writeWord .ctrl v) = .ok .wrCtrlRxNack ∧ v = 0x84
    | .illegal p => ∃ ea sta, decode ph (writeWord .ctrl v) = .ok (.wrCtrlIllegal ea sta) ∧
        packCtrl true ea sta false true = v ∧ p = (if ph = .off then .idle else ph)

/-- R183: in MR the two-write form of `readByte` (CONFIG 0x44 or 0x04, then 0xC4 or 0x84) reaches the state of the single write. -/
def Obligations.TwoWriteReceiveReachesTheSameState : Prop :=
  ∀ (ack : Bool) (s : State), s.phase = .mr → s.pending = none →
    ∃ t u, exec (.wrCtrlConfig ack false false) s = .next t ∧
      exec (if ack then .wrCtrlRxAck else .wrCtrlRxNack) t = .next u ∧
      exec (if ack then .wrCtrlRxAck else .wrCtrlRxNack) s = .next u

/-! ### Controller completions (41_controller_actions.md) -/

/-- R131: StartOk. -/
def Obligations.StartCompletion : Prop :=
  ∀ (s : State) (ts : List Turn), s.fault = none → s.pending = some .start → s.turns = .ctrl .startOk :: ts →
    step s = .next { s with
      turns := ts
      code := if s.phase = .idle then 0x08 else 0x10
      busLog := s.busLog ++ [if s.phase = .idle then .start else .rstart]
      phase := .started, pending := none, ctrl := { s.ctrl with int := true } }

/-- R132: StopOk. STO self-clears, INT is not set, and STOP is on the bus only from an owned phase. -/
def Obligations.StopCompletion : Prop :=
  ∀ (s : State) (ts : List Turn), s.fault = none → s.pending = some .stop → s.turns = .ctrl .stopOk :: ts →
    step s = .next { s with
      turns := ts
      busLog := if s.phase ∈ [.started, .mt, .mtNacked, .mr, .mrNacked, .mrDone] then s.busLog ++ [.stop] else s.busLog
      phase := .idle, pending := none, ctrl := { s.ctrl with sto := false }, code := 0xF8 }

/-- R133, R134: TxAck. In STARTED the byte is an address whose bit 0 is the direction, in MT it is a data byte. -/
def Obligations.TransmitCompletion : Prop :=
  ∀ (s : State) (b : Byte) (a : Bool) (ts : List Turn),
    s.fault = none → s.pending = some (.tx b) → s.turns = .ctrl (.txAck a) :: ts →
    (s.phase = .started → step s = .next { s with
      turns := ts, busLog := s.busLog ++ [.addr b a]
      code := if b.getLsbD 0 = false then (if a then 0x18 else 0x20) else (if a then 0x40 else 0x48)
      phase := if b.getLsbD 0 = false then (if a then .mt else .mtNacked) else (if a then .mr else .mrNacked)
      pending := none, ctrl := { s.ctrl with int := true } }) ∧
    (s.phase = .mt → step s = .next { s with
      turns := ts, busLog := s.busLog ++ [.txdata b a]
      code := if a then 0x28 else 0x30
      phase := if a then .mt else .mtNacked
      pending := none, ctrl := { s.ctrl with int := true } })

/-- R136: RxByte. -/
def Obligations.ReceptionCompletion : Prop :=
  ∀ (s : State) (ea : Bool) (x : Byte) (ts : List Turn),
    s.fault = none → s.pending = some (.rx ea) → s.turns = .ctrl (.rxByte x) :: ts →
    step s = .next { s with
      turns := ts, data := x, busLog := s.busLog ++ [.rxdata x ea]
      code := if ea then 0x50 else 0x58
      phase := if ea then .mr else .mrDone
      pending := none, ctrl := { s.ctrl with int := true } }

/-- R139: BusErr to a Start, Tx or Rx. -/
def Obligations.BusErrorCompletion : Prop :=
  ∀ (s : State) (a : Action) (ts : List Turn),
    s.fault = none → s.pending = some a → a ≠ .stop → s.turns = .ctrl .busErr :: ts →
    step s = .next { s with
      turns := ts, busLog := s.busLog ++ [.busError], code := 0x00, phase := .busErr, pending := none
      ctrl := { s.ctrl with int := true } }

/-- R137: Hold changes nothing but the environment's queue. -/
def Obligations.HoldChangesNothing : Prop :=
  ∀ (s : State) (a : Action) (ts : List Turn), s.fault = none → s.pending = some a → s.turns = .ctrl .hold :: ts →
    step s = .next { s with turns := ts }

/-- R130, with the model's reading of an answer that is not admitted as `Hold` (log 2): an answer changes the controller exactly
when it is admitted for the pending action and is not `Hold`, and then no action is pending any more; while no action is pending
there is no controller step, so no step consumes an entry of the environment's queue. -/
def Obligations.OnlyAdmittedAnswersComplete : Prop :=
  (∀ (s : State) (a : Action) (r : Response) (ts : List Turn),
    s.fault = none → s.pending = some a → s.turns = .ctrl r :: ts →
    ∃ t, step s = .next t ∧ t.turns = ts ∧ t.toDriver = s.toDriver ∧
      (t.pending = none ↔ admitted a r = true ∧ r ≠ .hold) ∧
      (¬(admitted a r = true ∧ r ≠ .hold) → SameHardware s t)) ∧
  (∀ s t : State, s.pending = none → step s = .next t → t.turns = s.turns)

/-- R138: from a state of the hardware invariant, a controller step sets INT exactly when it completes a Start, Tx or Rx or reports
a bus error. -/
def Obligations.IntSetExactlyByCompletions : Prop :=
  ∀ (s t : State) (a : Action) (r : Response) (ts : List Turn),
    HardwareInv s → s.fault = none → s.pending = some a → s.turns = .ctrl r :: ts → step s = .next t →
    (t.ctrl.int = true ↔ (a ≠ .stop ∧ admitted a r = true ∧ r ≠ .hold))

/-! ### Lifecycle (42_bus_controller_lifecycle.md) -/

/-- R160: INIT faults inside an open transaction or while wedged; else, with no action pending, its first access writes INIT_PS to
PS (with one pending that access faults), and called by a program its three accesses, in three steps (one access a step: log 8),
write the clock configuration and enable the controller. -/
def Obligations.InitConfiguresAndEnables : Prop :=
  ∀ s : State,
    (s.txnOpen = true ∨ s.wedged = true → exec .init s = .fault (.lifecycleViolation .init)) ∧
    (s.txnOpen = false → s.wedged = false → s.pending = none →
      exec .init s = .next { s with ps := s.params.initPs, prim := some .initDiv, polls := 0 }) ∧
    (s.txnOpen = false → s.wedged = false → s.pending ≠ none → exec .init s = .fault (.writeWhileBusy .status)) ∧
    (s.txnOpen = false → s.wedged = false → s.pending = none → atBoundary s →
      s.program[s.pos]? = some (.call .init) →
      run 3 s = .next { s with
        ps := s.params.initPs, div := s.params.initDiv
        ctrl := { int := s.ctrl.int, ea := false, sta := false, sto := false, en := true }
        phase := if s.phase = .off then .idle else s.phase
        code := if s.phase = .off then 0xF8 else s.code
        lifecycle := .ready, pos := s.pos + 1, prim := none, polls := 0, ret := some .unit })

/-- R161: `close()` is one access; it faults inside an open transaction unless wedged. -/
def Obligations.CloseDisablesOrFaults : Prop :=
  ∀ s : State, s.contract = none →
    (s.txnOpen = true → s.wedged = false → exec .close s = .fault (.lifecycleViolation .close)) ∧
    (s.txnOpen = false ∨ s.wedged = true →
      exec .close s = .next { s with
        ctrl := { int := s.ctrl.int, ea := false, sta := false, sto := false, en := false }
        busLog := if s.pending ≠ none ∨ s.phase ∈ [.started, .mt, .mtNacked, .mr, .mrNacked, .mrDone]
          then s.busLog ++ [.abort] else s.busLog
        pending := none, phase := .off, code := 0xF8
        lifecycle := .closed, txnOpen := false, wedged := false
        prim := none, polls := 0, ret := some .unit })

/-- R162: each of the four transaction primitives faults with LifecycleViolation outside Ready and while wedged. -/
def Obligations.LifecycleGuardFaults : Prop :=
  ∀ (b : Byte) (ack : Bool) (s : State), s.lifecycle ≠ .ready ∨ s.wedged = true →
    exec .start s = .fault (.lifecycleViolation .start) ∧
    exec .stop s = .fault (.lifecycleViolation .stop) ∧
    exec (.wrbyte b) s = .fault (.lifecycleViolation .writeByte) ∧
    exec (.rdbyte ack) s = .fault (.lifecycleViolation .readByte)

/-- The source's idempotence property (95_test_vectors.md L1-4, program P4): with the controller off, closing any number of times
before `initialize()` reaches the controller state that `initialize()` reaches without closing. -/
def Obligations.RepeatedCloseThenInitIsInit : Prop :=
  ∀ (n : Nat) (s t : State), atBoundary s → s.pending = none → s.txnOpen = false → s.wedged = false →
    s.phase = .off → s.pos = 0 → s.program = [.call .init] → run 3 s = .next t →
    ∃ u, run (n + 3) { s with program := List.replicate n (.call .close) ++ [.call .init] } = .next u ∧
      SameHardware t u ∧ u.lifecycle = .ready ∧ u.txnOpen = false ∧ u.wedged = false ∧ atBoundary u

/-! ### Transaction primitives (43_transaction_primitives.md) -/

/-- R172, R173, first access, in a ready driver (one access a step: log 8): with no action pending, START issues the START command
0xA4 and opens the transaction, its next access polling INT, or faults in BUSERR; STOP issues the STOP command 0x94, its next access
polling STO; with an action pending both fault with WriteWhileBusy. -/
def Obligations.TransactionPrimitivesBegin : Prop :=
  ∀ s : State, driverReady s →
    (s.pending = none → s.phase ≠ .busErr → exec .start s = .next { s with
      ctrl := { int := false, ea := false, sta := true, sto := false, en := true }
      phase := if s.phase = .off then .idle else s.phase
      pending := some .start, code := 0xF8, txnOpen := true, prim := some .startPoll, polls := 0 }) ∧
    (s.pending = none → s.phase = .busErr → exec .start s = .fault (.illegalCommand .busErr)) ∧
    (s.pending = none → exec .stop s = .next { s with
      ctrl := { int := false, ea := false, sta := false, sto := true, en := true }
      phase := if s.phase = .off then .idle else s.phase
      pending := some .stop, code := 0xF8, prim := some .stopPoll, polls := 0 }) ∧
    (s.pending ≠ none → exec .start s = .fault (.writeWhileBusy .ctrl) ∧ exec .stop s = .fault (.writeWhileBusy .ctrl))

/-- R172, under BUS_LIVE (41_controller_actions.md R142) and no POLL_LIMIT, in steps of one access (log 8): whatever polls and holds
come first, when the environment answers StartOk the primitive returns with the transaction open. -/
def Obligations.StartCompletesUnderEverySchedule : Prop :=
  ∀ (s : State) (ts rest : List Turn), atBoundary s → driverReady s → s.pending = none → s.phase ≠ .busErr →
    s.program[s.pos]? = some (.call .start) → s.params.pollLimit = none →
    idleTurns ts = true → s.turns = ts ++ .ctrl .startOk :: rest →
    ∃ l r, run (ts.length + (if s.params.startCheck then 4 else 3)) s = .next { s with
      ctrl := { int := true, ea := false, sta := true, sto := false, en := true }
      code := if s.phase = .off ∨ s.phase = .idle then 0x08 else 0x10
      busLog := s.busLog ++ [if s.phase = .off ∨ s.phase = .idle then .start else .rstart]
      phase := .started, txnOpen := true, pos := s.pos + 1, polls := 0, turns := rest
      locals := l, result := r
      ret := some (if s.params.startCheck then .startOk else .unit) } ∧ l.user = s.locals.user ∧ l.v = s.locals.v

/-- R173, under BUS_LIVE and no POLL_LIMIT, in steps of one access (log 8). -/
def Obligations.StopCompletesUnderEverySchedule : Prop :=
  ∀ (s : State) (ts rest : List Turn), atBoundary s → driverReady s → s.pending = none →
    s.program[s.pos]? = some (.call .stop) → s.params.pollLimit = none →
    idleTurns ts = true → s.turns = ts ++ .ctrl .stopOk :: rest →
    run (ts.length + 3) s = .next { s with
      ctrl := { int := false, ea := false, sta := false, sto := false, en := true }
      code := 0xF8
      busLog := if s.phase ∈ [.started, .mt, .mtNacked, .mr, .mrNacked, .mrDone] then s.busLog ++ [.stop] else s.busLog
      phase := .idle, txnOpen := false, pos := s.pos + 1, polls := 0, turns := rest
      locals := { s.locals with c := 0x04 }, result := some 0x04, ret := some .unit }

/-! ### Byte transfer (44_byte_transfer.md) -/

/-- R180, R182, first access, in a ready driver (one access a step: log 8): with no action pending, WRBYTE writes DATA, its next access
being the CTRL write; RDBYTE in MR issues the reception with its ACK policy, its next access polling INT, and in STARTED and MT the
same write transmits DATA; with an action pending both fault with WriteWhileBusy. -/
def Obligations.ByteTransfersBegin : Prop :=
  ∀ (b : Byte) (ack : Bool) (s : State), driverReady s →
    (s.pending = none → exec (.wrbyte b) s = .next { s with data := b, prim := some .wrbyteCtrl, polls := 0 }) ∧
    (s.pending = none → s.phase ∈ [.started, .mt, .mr] → exec (.rdbyte ack) s = .next { s with
      ctrl := { int := false, ea := ack, sta := false, sto := false, en := true }
      pending := some (if s.phase = .mr then .rx ack else .tx s.data), code := 0xF8
      prim := some .rdbytePoll, polls := 0 }) ∧
    (s.pending ≠ none → exec (.wrbyte b) s = .fault (.writeWhileBusy .data) ∧
      exec (.rdbyte ack) s = .fault (.writeWhileBusy .ctrl))

/-- R180, under BUS_LIVE and no POLL_LIMIT, in steps of one access (log 8): in STARTED the byte goes out as an address, in MT as
data, the code and the phase are those of that byte, and the result is the slave's acknowledge (that `ok` holds 1 for true is the
model's choice, log 27). -/
def Obligations.WriteByteReportsTheAcknowledge : Prop :=
  ∀ (s : State) (b : Byte) (a : Bool) (ts rest : List Turn),
    atBoundary s → driverReady s → s.pending = none → s.phase = .started ∨ s.phase = .mt →
    s.program[s.pos]? = some (.call (.wrbyte (.lit b))) → s.params.pollLimit = none →
    idleTurns ts = true → s.turns = ts ++ .ctrl (.txAck a) :: rest →
    ∃ l r c p, run (ts.length + 5) s = .next { s with
      ctrl := { int := true, ea := false, sta := false, sto := false, en := true }
      data := b, code := c, phase := p
      busLog := s.busLog ++ [if s.phase = .started then .addr b a else .txdata b a]
      pos := s.pos + 1, polls := 0, turns := rest, locals := l, result := r, ret := some (.bool a) } ∧
      l.ok = (if a then 1 else 0) ∧ l.st = c ||| s.ps.setWidth 8 ∧ r = some l.st ∧
      l.user = s.locals.user ∧ l.v = s.locals.v ∧ l.s = s.locals.s ∧
      (s.phase = .started →
        c = (if b.getLsbD 0 = false then (if a then 0x18 else 0x20) else (if a then 0x40 else 0x48)) ∧
        p = (if b.getLsbD 0 = false then (if a then .mt else .mtNacked) else (if a then .mr else .mrNacked))) ∧
      (s.phase = .mt → c = (if a then 0x28 else 0x30) ∧ p = (if a then .mt else .mtNacked))

/-- R182, in MR, under BUS_LIVE and no POLL_LIMIT, in steps of one access (log 8): the received byte is returned, DATA holds it, and
the ACK policy picks the phase (that `ok` holds 1 for true is the model's choice, log 27). -/
def Obligations.ReadByteReturnsTheReceivedByte : Prop :=
  ∀ (s : State) (ack : Bool) (x : Byte) (ts rest : List Turn),
    atBoundary s → driverReady s → s.pending = none → s.phase = .mr →
    s.program[s.pos]? = some (.call (.rdbyte ack)) → s.params.pollLimit = none →
    idleTurns ts = true → s.turns = ts ++ .ctrl (.rxByte x) :: rest →
    ∃ l, run (ts.length + 5) s = .next { s with
      ctrl := { int := true, ea := ack, sta := false, sto := false, en := true }
      data := x, code := if ack then 0x50 else 0x58, phase := if ack then .mr else .mrDone
      busLog := s.busLog ++ [.rxdata x ack]
      pos := s.pos + 1, polls := 0, turns := rest, locals := l, result := some x
      ret := some (.read true (some x)) } ∧ l.v = x ∧ l.ok = 1 ∧
      l.st = (if ack then 0x50 else 0x58) ||| s.ps.setWidth 8 ∧ l.user = s.locals.user ∧ l.s = s.locals.s

/-- R180, R182, R139: a bus error makes `writeByte` return false and `readByte` return `(false, none)`; DATA is as `writeByte` wrote
it, and unchanged by `readByte`. -/
def Obligations.BusErrorFailsTheByte : Prop :=
  ∀ (s : State) (b : Byte) (ack : Bool) (rest : List Turn),
    atBoundary s → driverReady s → s.pending = none → s.phase ∈ [.started, .mt, .mr] → s.params.pollLimit = none →
    s.turns = .ctrl .busErr :: rest →
    (s.program[s.pos]? = some (.call (.wrbyte (.lit b))) →
      ∃ t, run 5 s = .next t ∧ t.ret = some (.bool false) ∧ t.phase = .busErr ∧ t.code = 0x00 ∧ t.data = b ∧
        t.busLog = s.busLog ++ [.busError] ∧ t.prim = none ∧ t.pending = none) ∧
    (s.program[s.pos]? = some (.call (.rdbyte ack)) →
      ∃ t, run 4 s = .next t ∧ t.ret = some (.read false none) ∧ t.phase = .busErr ∧ t.code = 0x00 ∧ t.data = s.data ∧
        t.busLog = s.busLog ++ [.busError] ∧ t.prim = none ∧ t.pending = none)

/-- The corner cases of R180 and R182, by the phase rule R74: in MR a `writeByte` receives a byte with NACK and returns false, DATA
overwritten by the received byte; in STARTED and MT a `readByte` transmits DATA and returns `(false, none)`. -/
def Obligations.TransfersOutsideTheirRole : Prop :=
  ∀ (s : State) (b x : Byte) (ack a : Bool) (rest : List Turn),
    atBoundary s → driverReady s → s.pending = none → s.params.pollLimit = none →
    (s.phase = .mr → s.program[s.pos]? = some (.call (.wrbyte (.lit b))) → s.turns = .ctrl (.rxByte x) :: rest →
      ∃ t, run 5 s = .next t ∧ t.ret = some (.bool false) ∧ t.phase = .mrDone ∧ t.code = 0x58 ∧ t.data = x ∧
        t.busLog = s.busLog ++ [.rxdata x false] ∧ t.prim = none ∧ t.pending = none ∧ t.pos = s.pos + 1) ∧
    (s.phase = .started ∨ s.phase = .mt → s.program[s.pos]? = some (.call (.rdbyte ack)) →
      s.turns = .ctrl (.txAck a) :: rest →
      ∃ t, run 4 s = .next t ∧ t.ret = some (.read false none) ∧ t.data = s.data ∧ t.ctrl.ea = ack ∧
        t.busLog = s.busLog ++ [if s.phase = .started then .addr s.data a else .txdata s.data a] ∧
        t.prim = none ∧ t.pending = none ∧ t.pos = s.pos + 1)

/-- The faults of R180 and R182 by phase: with no action pending and outside STARTED, MT and MR (OFF counted as IDLE), `readByte`
faults with IllegalCommand at its CTRL write, and `writeByte` stores DATA first and faults at its second access. -/
def Obligations.TransfersInTerminalPhasesFault : Prop :=
  ∀ (s : State) (b : Byte) (ack : Bool), atBoundary s → driverReady s → s.pending = none → s.phase ∉ [.started, .mt, .mr] →
    exec (.rdbyte ack) s = .fault (.illegalCommand (if s.phase = .off then .idle else s.phase)) ∧
    (s.program[s.pos]? = some (.call (.wrbyte (.lit b))) →
      run 1 s = .next { s with data := b, pos := s.pos + 1, prim := some .wrbyteCtrl, polls := 0 } ∧
      run 2 s = .fault (.illegalCommand (if s.phase = .off then .idle else s.phase)))

/-- R181 and R184, and how the error classes and names of 44_byte_transfer.md §3 agree with them: for every raw status byte,
`writeOk` holds exactly when the masked code is 0x18, 0x28 or 0x40 and `readOk` exactly when it is 0x50 or 0x58, so the prescaler
bits do not matter; the error classes agree with them and with the codes' names. -/
def Obligations.ValidationIgnoresThePrescaler : Prop :=
  ∀ st : Byte,
    (writeOk st = true ↔ st &&& 0xF8 ∈ [(0x18 : Byte), 0x28, 0x40]) ∧
    (readOk st = true ↔ st &&& 0xF8 ∈ [(0x50 : Byte), 0x58]) ∧
    (classifyWrite (st &&& 0xF8) = .ok ↔ writeOk st = true) ∧
    (classifyRead (st &&& 0xF8) = .ok ↔ readOk st = true) ∧
    (classifyWrite (st &&& 0xF8) = .addressNotAcknowledged ↔ decodeStatus st ∈ [.slaWNack, .slaRNack]) ∧
    (classifyWrite (st &&& 0xF8) = .dataNotAcknowledged ↔ decodeStatus st = .dataTxNack) ∧
    decodeStatus (st &&& 0xF8) = decodeStatus st

/-! ### The register-access contract (45_register_access_contract.md) -/

/-- R202: a device address above 0x7F faults with BadDeviceAddress, before any other check. -/
def Obligations.BadDeviceAddressFaults : Prop :=
  ∀ (dev reg val : Byte) (s : State), dev.toNat > 0x7F →
    exec (.wrreg dev reg val) s = .fault (.badDeviceAddress dev) ∧
    exec (.rdreg dev reg) s = .fault (.badDeviceAddress dev)

/-- R200, R201: with a 7-bit address WRREG and RDREG begin with the first access of `start()` (one access a step: log 8), or fault as
`start()` does: outside Ready or while wedged, while an action is pending, and in BUSERR. -/
def Obligations.ContractCallsBeginWithStart : Prop :=
  ∀ (dev reg val : Byte) (s : State), dev.toNat ≤ 0x7F →
    ∀ i c, (i = Instr.wrreg dev reg val ∧ c = Contract.wrreg dev reg val .start) ∨
        (i = Instr.rdreg dev reg ∧ c = Contract.rdreg dev reg .start) →
      (driverReady s → s.pending = none → s.phase ≠ .busErr →
        exec i s = .next { s with
          ctrl := { int := false, ea := false, sta := true, sto := false, en := true }
          phase := if s.phase = .off then .idle else s.phase
          pending := some .start, code := 0xF8, txnOpen := true, contract := some c
          prim := some .startPoll, polls := 0 }) ∧
      (¬driverReady s → exec i s = .fault (.lifecycleViolation .start)) ∧
      (driverReady s → s.pending ≠ none → exec i s = .fault (.writeWhileBusy .ctrl)) ∧
      (driverReady s → s.pending = none → s.phase = .busErr → exec i s = .fault (.illegalCommand .busErr))

/-- R200, the successful run: when every byte is acknowledged, under every schedule, `writeRegister` returns true, with the
transaction on the bus and the bus released. -/
def Obligations.WriteRegisterPutsItsTransactionOnTheBus : Prop :=
  ∀ (s : State) (dev reg val : Byte) (t1 t2 t3 t4 t5 rest : List Turn),
    readyState s → dev.toNat ≤ 0x7F → s.params.pollLimit = none →
    s.program[s.pos]? = some (.call (.wrreg (.lit dev) (.lit reg) (.lit val))) →
    (∀ ts ∈ [t1, t2, t3, t4, t5], idleTurns ts = true) →
    s.turns = thenAnswer t1 .startOk (thenAnswer t2 (.txAck true) (thenAnswer t3 (.txAck true)
      (thenAnswer t4 (.txAck true) (thenAnswer t5 .stopOk rest)))) →
    ∃ n t, run n s = .next t ∧ t.ret = some (.bool true) ∧
      t.busLog = s.busLog ++
        [.start, .addr (dev <<< 1) true, .txdata reg true, .txdata val true, .stop] ∧
      completeRun t ∧ t.fault = none ∧ t.phase = .idle ∧ t.code = 0xF8 ∧ t.data = val ∧ t.div = s.div ∧ t.ps = s.ps ∧
      t.ctrl = { int := false, ea := false, sta := false, sto := false, en := true } ∧
      t.pos = s.pos + 1 ∧ t.turns = rest ∧ t.lifecycle = .ready

/-- R200, R201, R203 and the source's scenario 2 (95_test_vectors.md L1-6), under every schedule: when a byte of `writeRegister` or
`readRegister` is not acknowledged, or a byte of theirs ends in a bus error, the contract sends no further byte, issues `stop()` (which
puts a STOP on a bus still owned), and returns failure: false, or none. -/
def Obligations.ContractCallsAbortOnAFailedByte : Prop :=
  ∀ (s : State) (dev reg : Byte) (sched : List (List Turn × Response)) (rest : List Turn),
    readyState s → dev.toNat ≤ 0x7F → s.params.pollLimit = none →
    (∀ q ∈ sched, idleTurns q.1 = true) → s.turns = answerTurns sched rest →
    (∀ val, s.program[s.pos]? = some (.call (.wrreg (.lit dev) (.lit reg) (.lit val))) →
      ∀ answers log, (answers, log) ∈
        [([.txAck false], [.addr (dev <<< 1) false, .stop]),
         ([.txAck true, .txAck false], [.addr (dev <<< 1) true, .txdata reg false, .stop]),
         ([.txAck true, .txAck true, .txAck false],
           [.addr (dev <<< 1) true, .txdata reg true, .txdata val false, .stop]),
         ([.busErr], [.busError]),
         ([.txAck true, .busErr], [.addr (dev <<< 1) true, .busError]),
         ([.txAck true, .txAck true, .busErr], [.addr (dev <<< 1) true, .txdata reg true, .busError])] →
      sched.map Prod.snd = .startOk :: (answers ++ [.stopOk]) →
      ∃ n t, run n s = .next t ∧ t.ret = some (.bool false) ∧ t.busLog = s.busLog ++ .start :: log ∧
        completeRun t ∧ t.fault = none ∧ t.phase = .idle ∧ t.code = 0xF8 ∧ t.lifecycle = .ready ∧
        t.pos = s.pos + 1 ∧ t.turns = rest) ∧
    (s.program[s.pos]? = some (.call (.rdreg (.lit dev) (.lit reg))) →
      ∀ answers log, (answers, log) ∈
        [([.txAck false], [.addr (dev <<< 1) false, .stop]),
         ([.txAck true, .txAck false], [.addr (dev <<< 1) true, .txdata reg false, .stop]),
         ([.txAck true, .txAck true, .startOk, .txAck false],
           [.addr (dev <<< 1) true, .txdata reg true, .rstart, .addr (dev <<< 1 ||| 1) false, .stop]),
         ([.busErr], [.busError]),
         ([.txAck true, .busErr], [.addr (dev <<< 1) true, .busError]),
         ([.txAck true, .txAck true, .startOk, .busErr],
           [.addr (dev <<< 1) true, .txdata reg true, .rstart, .busError]),
         ([.txAck true, .txAck true, .startOk, .txAck true, .busErr],
           [.addr (dev <<< 1) true, .txdata reg true, .rstart, .addr (dev <<< 1 ||| 1) true, .busError])] →
      sched.map Prod.snd = .startOk :: (answers ++ [.stopOk]) →
      ∃ n t, run n s = .next t ∧ t.ret = some (.regValue none) ∧ t.busLog = s.busLog ++ .start :: log ∧
        completeRun t ∧ t.fault = none ∧ t.phase = .idle ∧ t.code = 0xF8 ∧ t.lifecycle = .ready ∧
        t.pos = s.pos + 1 ∧ t.turns = rest)

/-- R201, the successful run: when every byte is acknowledged and the slave sends x, under every schedule, `readRegister` returns
`some x`. -/
def Obligations.ReadRegisterReturnsTheByte : Prop :=
  ∀ (s : State) (dev reg x : Byte) (t1 t2 t3 t4 t5 t6 t7 rest : List Turn),
    readyState s → dev.toNat ≤ 0x7F → s.params.pollLimit = none →
    s.program[s.pos]? = some (.call (.rdreg (.lit dev) (.lit reg))) →
    (∀ ts ∈ [t1, t2, t3, t4, t5, t6, t7], idleTurns ts = true) →
    s.turns = thenAnswer t1 .startOk (thenAnswer t2 (.txAck true) (thenAnswer t3 (.txAck true) (thenAnswer t4 .startOk
      (thenAnswer t5 (.txAck true) (thenAnswer t6 (.rxByte x) (thenAnswer t7 .stopOk rest)))))) →
    ∃ n t, run n s = .next t ∧ t.ret = some (.regValue (some x)) ∧
      t.busLog = s.busLog ++
        [.start, .addr (dev <<< 1) true, .txdata reg true, .rstart, .addr (dev <<< 1 ||| 1) true, .rxdata x false, .stop] ∧
      completeRun t ∧ t.fault = none ∧ t.phase = .idle ∧ t.code = 0xF8 ∧ t.data = x ∧ t.pos = s.pos + 1 ∧ t.turns = rest

/-- R204: the round trip. With the reference slave (log 19) present at the address, under schedule S0, `writeRegister(A, r, v)`
returns true and the following `readRegister(A, r)` returns `some v`, for every address, register and value. -/
def Obligations.RegisterRoundTrip : Prop :=
  ∀ (s : State) (d : Slave) (a : BitVec 7) (r v : Byte),
    readyState s → s.params.pollLimit = none → d.present = true → d.addr = a → Cells.wf d.regs = true →
    s.program[s.pos]? = some (.call (.wrreg (.lit (a.setWidth 8)) (.lit r) (.lit v))) →
    s.program[s.pos + 1]? = some (.call (.rdreg (.lit (a.setWidth 8)) (.lit r))) →
    ∃ m n p q, systemRun m (s, d) = some p ∧ p.1.ret = some (.bool true) ∧ p.1.pos = s.pos + 1 ∧ completeRun p.1 ∧
      Cells.read r.toNat p.2.regs = v ∧
      systemRun n p = some q ∧ q.1.ret = some (.regValue (some v)) ∧ q.1.pos = s.pos + 2 ∧ completeRun q.1

/-! ### Waiting: bounded waits and hangs -/

/-- R171, R203: with POLL_LIMIT = n, a primitive's poll loop whose n-th read still fails gives up: the driver is wedged, and the
controller is left as it is, its action still pending (steps of one access: log 8). Called by a program the primitive returns
BusTimeout; inside a contract call, whichever call of it this is, the contract returns failure at once, with no `stop()` (that a
timeout in its last `stop()` or in its abort fails it too: log 22). -/
def Obligations.BoundedWaitGivesUp : Prop :=
  ∀ (s : State) (p : PrimPoint) (a : Action) (n : Nat) (rest : List Turn),
    HardwareInv s → s.fault = none → s.prim = some p → s.pending = some a →
    (p = .stopPoll ∧ a = .stop) ∨ (p ∈ [.startPoll, .wrbytePoll, .rdbytePoll] ∧ a ≠ .stop) →
    s.polls = 0 → 1 ≤ n → s.params.pollLimit = some n → s.turns = List.replicate n .cpu ++ rest →
    ∃ t, run n s = .next t ∧ t.prim = none ∧ t.contract = none ∧ t.wedged = true ∧ SameHardware s t ∧
      t.ret = some (match s.contract with
        | none => .busTimeout
        | some (.wrreg _ _ _ _) => .bool false
        | some (.rdreg _ _ _) => .regValue none) ∧
      t.turns = rest ∧ t.txnOpen = s.txnOpen ∧ t.lifecycle = s.lifecycle ∧ t.pos = s.pos

/-- R137, R170, R223: with no POLL_LIMIT a primitive's poll loop never exits while the environment only holds: the run is a hang. -/
def Obligations.HoldForeverHangs : Prop :=
  ∀ (s : State) (p : PrimPoint) (a : Action) (ts rest : List Turn),
    HardwareInv s → s.fault = none → s.prim = some p → s.pending = some a →
    (p = .stopPoll ∧ a = .stop) ∨ (p ∈ [.startPoll, .wrbytePoll, .rdbytePoll] ∧ a ≠ .stop) →
    s.params.pollLimit = none → idleTurns ts = true → s.turns = ts ++ rest →
    ∃ t, run ts.length s = .next t ∧ t.prim = some p ∧ SameHardware s t ∧ t.turns = rest ∧ t.polls = s.polls + cpuTurns ts

/-- R257: a program that waits on INT after a STOP has completed polls forever, a hang and not a fault. -/
def Obligations.WaitOnIntAfterStopHangs : Prop :=
  ∀ (s : State) (n : Nat), atBoundary s → s.pending = none → s.ctrl.int = false → s.params.pollLimit = none →
    s.program[s.pos]? = some (.waitSet 0x80) →
    ∃ t, run n s = .next t ∧ t.pos = s.pos ∧ SameHardware s t ∧ atBoundary t

/-! ### Invariants and whole-machine rules -/

/-- 10_state.md R34, with the code column of R29 and R135: every step keeps the hardware invariant. -/
def Obligations.StepKeepsHardwareInv : Prop :=
  ∀ s t : State, HardwareInv s → step s = .next t → HardwareInv t

/-- The reset state satisfies the hardware and the driver invariant. -/
def Obligations.ResetMeetsTheInvariants : Prop :=
  HardwareInv State.reset ∧ DriverInv State.reset ∧ localsWf State.reset

/-- 70_reset_and_hazards.md R262: in a program that reaches the controller only through the primitives, every step keeps the driver
invariant: no action is pending at a primitive boundary unless the driver is wedged. -/
def Obligations.StepKeepsDriverInv : Prop :=
  ∀ s t : State, HardwareInv s → DriverInv s → step s = .next t → DriverInv t

/-- R37: the parameters and the program text are no state, no step changes them; and no step clears or sets `fault` (R220). -/
def Obligations.StepKeepsParametersAndProgram : Prop :=
  ∀ s t : State, step s = .next t → t.params = s.params ∧ t.program = s.program ∧ t.fault = s.fault

/-- R31: the bus log only grows, by at most one event a step. A step that adds one is a disable, which logs ABORT because it ends a
pending action or a held bus and leaves the controller off, or a controller step, which completes the pending action with the answer of
the turn taken (log 2), admitted and not Hold, logs another event and leaves the driver as it was. No action is pending after either. -/
def Obligations.BusLogOnlyGrows : Prop :=
  ∀ s t : State, step s = .next t →
    t.busLog = s.busLog ∨ ∃ e, t.busLog = s.busLog ++ [e] ∧ t.pending = none ∧
      ((e = .abort ∧ t.phase = .off ∧ (s.pending ≠ none ∨ owned s.phase = true)) ∨
       (e ≠ .abort ∧ t.toDriver = s.toDriver ∧
        ∃ a r, s.pending = some a ∧ (takeTurn s).1 = .ctrl r ∧ admitted a r = true ∧ r ≠ .hold ∧
          t = ctrlStep a r (takeTurn s).2))

/-- The driver's variables stay in canonical form (the model's own representation of them: log 6). -/
def Obligations.StepKeepsLocalsWf : Prop :=
  ∀ s t : State, localsWf s → step s = .next t → localsWf t

/-- R220: the faulted state takes no further step, the fault stays, and a faulting step, recorded as `recordStep` does (log 11),
changes nothing but `fault`. -/
def Obligations.FaultsAreStickyAndPrecise : Prop :=
  ∀ s : State,
    (∀ k, s.fault = some k → step s = .fault k ∧ recordStep s = s) ∧
    (∀ k, s.fault = none → step s = .fault k → recordStep s = { s with fault := some k })

/-- 10_state.md R36: the reset state. -/
def Obligations.ResetState : Prop :=
  ctrlByte State.reset = 0x00 ∧ statusByte State.reset = 0xF8 ∧ State.reset.data = 0xFF ∧ State.reset.div = 0x00 ∧
  State.reset.phase = .off ∧ State.reset.pending = none ∧ State.reset.busLog = [] ∧ State.reset.fault = none ∧
  State.reset.lifecycle = .uninit ∧ State.reset.txnOpen = false ∧ State.reset.wedged = false

/-! ### Encoding and fetching -/

/-- Decode and encode agree: in every phase the row's condition admits, the word of a register access decodes to it, with every
operand at every value. -/
def Obligations.DecodeEncode : Prop :=
  ∀ (i : Instr) (w : Word) (ph : Phase), encodeAccess i = some w → decodesIn i ph = true → decode ph w = .ok i

/-- Each word has one meaning in a phase: what decodes to an instruction is that instruction's word, in a phase its row admits. -/
def Obligations.EncodeDecode : Prop :=
  ∀ (i : Instr) (w : Word) (ph : Phase), decode ph w = .ok i → encodeAccess i = some w ∧ decodesIn i ph = true

/-- Words written out from 30_encoding.md R70 and R73 decode to what they stand for. -/
def Obligations.WrittenOutWordsDecode : Prop :=
  decode .off 0x400 = .ok .rdCtrl ∧ decode .off 0x000 = .ok .rdDiv ∧ decode .off 0x905 = .ok (.wrStatus 0x05) ∧
  decode .off 0xC04 = .ok (.wrCtrlConfig false false false) ∧ decode .idle 0xCE4 = .ok (.wrCtrlStart true) ∧
  decode .started 0xC84 = .ok (.wrCtrlTx false) ∧ decode .mr 0xC84 = .ok .wrCtrlRxNack ∧
  decode .mr 0xCC4 = .ok .wrCtrlRxAck ∧ decode .idle 0xC84 = .ok (.wrCtrlIllegal false false) ∧
  decode .busErr 0xCA4 = .ok (.wrCtrlIllegal false true) ∧ decode .mt 0xCF0 = .ok (.wrCtrlDisable true true true true)

/-- 30_encoding.md R85, R86: a step whose CPU stands at an access word runs the decoded instruction at the next position; at a call
it runs the pseudo-instruction with its operands computed. While an action is pending it does so on the CPU's turn. -/
def Obligations.StepRunsTheDecodedInstruction : Prop :=
  ∀ (s : State), s.fault = none → s.prim = none → s.contract = none →
    ∀ u : State, (s.pending = none ∧ u = s) ∨ (s.pending ≠ none ∧ ∃ ts, s.turns = .cpu :: ts ∧ u = { s with turns := ts }) →
    (∀ w i, s.program[s.pos]? = some (.word w) → decode s.phase w = .ok i →
      step s = exec i { u with pos := s.pos + 1 }) ∧
    (∀ c, s.program[s.pos]? = some (.call c) → step s = exec (callInstr s.locals c) { u with pos := s.pos + 1 })
end

