-- ==== Sys2Proof/Laws/Cells.lean ====
section
/-! SUPPORT. The laws of the sparse byte store: read after write, and that writing keeps the canonical form. -/

namespace Sys2Proof.Machine

theorem Cells.above_trans {a k : Nat} {m : List Host.Cell} (h : a ≤ k) (hm : Cells.above k m = true) :
    Cells.above a m = true := by
  simp only [Cells.above, List.all_eq_true, decide_eq_true_eq] at *
  exact fun c hc => lt_of_le_of_lt h (hm c hc)

theorem Cells.above_cons {a k : Nat} {x : Byte} {m : List Host.Cell} (h : a < k) (hm : Cells.above a m = true) :
    Cells.above a (Cells.cons k x m) = true := by
  unfold Cells.cons
  split
  · exact hm
  · simp only [Cells.above, List.all_cons, Bool.and_eq_true, decide_eq_true_eq] at *
    exact ⟨h, hm⟩

theorem Cells.above_write {a k : Nat} {x : Byte} (h : a < k) :
    ∀ {m : List Host.Cell}, Cells.above a m = true → Cells.above a (Cells.write k x m) = true
  | [], hm => Cells.above_cons h hm
  | (b, y) :: rest, hm => by
    have hb : a < b ∧ Cells.above a rest = true := by
      simpa only [Cells.above, List.all_cons, Bool.and_eq_true, decide_eq_true_eq] using hm
    unfold Cells.write
    split
    · simpa only [Cells.above, List.all_cons, Bool.and_eq_true, decide_eq_true_eq]
        using ⟨hb.1, Cells.above_write h hb.2⟩
    · split
      · exact Cells.above_cons h hb.2
      · exact Cells.above_cons h hm

theorem Cells.wf_cons_intro {k : Nat} {x : Byte} {m : List Host.Cell} (ha : Cells.above k m = true)
    (hm : Cells.wf m = true) : Cells.wf (Cells.cons k x m) = true := by
  unfold Cells.cons
  split
  · exact hm
  · rename_i hx
    simp [Cells.wf, hx, ha, hm]

theorem Cells.wf_cons_elim {a : Nat} {x : Byte} {m : List Host.Cell} (h : Cells.wf ((a, x) :: m) = true) :
    x ≠ Cells.unlisted ∧ Cells.above a m = true ∧ Cells.wf m = true := by
  simpa [Cells.wf, and_assoc] using h

/-- Writing keeps the canonical form. -/
theorem Cells.wf_write (k : Nat) (x : Byte) :
    ∀ {m : List Host.Cell}, Cells.wf m = true → Cells.wf (Cells.write k x m) = true
  | [], _ => Cells.wf_cons_intro rfl rfl
  | (a, y) :: rest, h => by
    obtain ⟨hy, ha, hr⟩ := Cells.wf_cons_elim h
    unfold Cells.write
    split
    · rename_i hk
      simp [Cells.wf, hy, Cells.above_write hk ha, Cells.wf_write k x hr]
    · split
      · rename_i _ hk
        exact Cells.wf_cons_intro (hk ▸ ha) hr
      · rename_i h1 h2
        refine Cells.wf_cons_intro ?_ h
        have : k < a := by omega
        simp only [Cells.above, List.all_cons, Bool.and_eq_true, decide_eq_true_eq]
        exact ⟨this, Cells.above_trans this.le ha⟩

theorem Cells.read_above {k : Nat} : ∀ {m : List Host.Cell}, Cells.above k m = true → Cells.read k m = Cells.unlisted
  | [], _ => rfl
  | (a, x) :: rest, h => by
    have ha : k < a ∧ Cells.above k rest = true := by
      simpa only [Cells.above, List.all_cons, Bool.and_eq_true, decide_eq_true_eq] using h
    have : a ≠ k := by omega
    simp [Cells.read, this, Cells.read_above ha.2]

theorem Cells.read_cons_same {k : Nat} {x : Byte} {m : List Host.Cell} (h : Cells.above k m = true) :
    Cells.read k (Cells.cons k x m) = x := by
  unfold Cells.cons
  split
  · rename_i hx; rw [hx, Cells.read_above h]
  · simp [Cells.read]

theorem Cells.read_cons_other {k j : Nat} {x : Byte} {m : List Host.Cell} (h : j ≠ k) :
    Cells.read j (Cells.cons k x m) = Cells.read j m := by
  unfold Cells.cons
  split
  · rfl
  · simp [Cells.read, h.symm]

/-- A read after a write to the same key gives the byte written. -/
theorem Cells.read_write_same (k : Nat) (x : Byte) :
    ∀ {m : List Host.Cell}, Cells.wf m = true → Cells.read k (Cells.write k x m) = x
  | [], _ => Cells.read_cons_same rfl
  | (a, y) :: rest, h => by
    obtain ⟨_, ha, hr⟩ := Cells.wf_cons_elim h
    unfold Cells.write
    split
    · rename_i hk
      have : a ≠ k := by omega
      simp [Cells.read, this, Cells.read_write_same k x hr]
    · split
      · rename_i _ hk
        exact Cells.read_cons_same (hk ▸ ha)
      · rename_i h1 h2
        refine Cells.read_cons_same ?_
        have : k < a := by omega
        simp only [Cells.above, List.all_cons, Bool.and_eq_true, decide_eq_true_eq]
        exact ⟨this, Cells.above_trans this.le ha⟩

/-- A write leaves every other key alone. -/
theorem Cells.read_write_other {j k : Nat} (x : Byte) (h : j ≠ k) :
    ∀ (m : List Host.Cell), Cells.read j (Cells.write k x m) = Cells.read j m
  | [] => Cells.read_cons_other h
  | (a, y) :: rest => by
    unfold Cells.write
    split
    · by_cases hj : a = j
      · simp [Cells.read, hj]
      · simp [Cells.read, hj, Cells.read_write_other x h rest]
    · split
      · rename_i _ hk
        rw [Cells.read_cons_other h]
        simp [Cells.read, hk, h.symm]
      · exact Cells.read_cons_other h

end Sys2Proof.Machine
end

