-- ==== Sys2Proof/Laws/Decode.lean ====
section
/-! SUPPORT. The laws of the CTRL byte, the access word and the classification of a CTRL write. -/

namespace Sys2Proof

/-! ### The CTRL byte -/

@[simp] theorem packCtrl_reserved (int ea sta sto en : Bool) : packCtrl int ea sta sto en &&& 11#8 = 0#8 := by
  revert int ea sta sto en; decide

/-- The fields of a packed CTRL byte. -/
@[simp] theorem byteBit_packCtrl (int ea sta sto en : Bool) :
    byteBit (packCtrl int ea sta sto en) 7 = int ∧ byteBit (packCtrl int ea sta sto en) 6 = ea ∧
    byteBit (packCtrl int ea sta sto en) 5 = sta ∧ byteBit (packCtrl int ea sta sto en) 4 = sto ∧
    byteBit (packCtrl int ea sta sto en) 2 = en := by
  revert int ea sta sto en; decide

/-- A byte without reserved bits is its packed fields. -/
theorem packCtrl_byteBits {v : Byte} (h : v &&& 11#8 = 0#8) :
    packCtrl (byteBit v 7) (byteBit v 6) (byteBit v 5) (byteBit v 4) (byteBit v 2) = v := by
  revert v; decide

/-! ### The access word -/

/-- The fields of an access word. -/
@[simp] theorem accessWord_fields (d : Bool) (o : BitVec 3) (v : Byte) :
    wordIsWrite (accessWord d o v) = d ∧ wordOffset (accessWord d o v) = o ∧ wordValue (accessWord d o v) = v ∧
    (accessWord d o v).toNat < 4096 := by
  revert d o v; decide

/-- `WR CTRL, v` decodes by its byte alone (R85). -/
theorem decode_writeCtrl (ph : Phase) (v : Byte) : decode ph (writeWord .ctrl v) = decodeCtrl ph v := by
  simp [decode, writeWord, offsetOf, regAt, decodeWrite]

/-! ### Classification -/

/-- A pending action makes every enabling write BUSY (R72 step 3). -/
theorem classifyCtrl_busy (int ea sta sto : Bool) (ph : Phase) (a : Action) :
    classifyCtrl (packCtrl int ea sta sto true) ph (some a) = .busy := by
  simp [classifyCtrl]

@[simp] theorem classifyCtrl_disable (int ea sta sto : Bool) (ph : Phase) (p : Option Action) :
    classifyCtrl (packCtrl int ea sta sto false) ph p = .disable := by
  simp [classifyCtrl]

@[simp] theorem classifyCtrl_config (ea sta sto : Bool) (ph : Phase) :
    classifyCtrl (packCtrl false ea sta sto true) ph none = .config := by
  simp [classifyCtrl]

@[simp] theorem classifyCtrl_staSto (ea : Bool) (ph : Phase) :
    classifyCtrl (packCtrl true ea true true true) ph none = .staSto := by
  simp [classifyCtrl]

@[simp] theorem classifyCtrl_start (ea : Bool) (ph : Phase) :
    classifyCtrl (packCtrl true ea true false true) ph none =
      if ph = .busErr then .illegal .busErr else .start := by
  simp [classifyCtrl]

@[simp] theorem classifyCtrl_stop (ea : Bool) (ph : Phase) :
    classifyCtrl (packCtrl true ea false true true) ph none = .stop := by
  simp [classifyCtrl]

@[simp] theorem classifyCtrl_continue (ea : Bool) (ph : Phase) :
    classifyCtrl (packCtrl true ea false false true) ph none =
      classifyContinue (packCtrl true ea false false true) ph := by
  simp [classifyCtrl]

/-- The command words of the primitives are packed bytes (R75). -/
theorem commandWords :
    (0x04 : Byte) = packCtrl false false false false true ∧ (0x00 : Byte) = packCtrl false false false false false ∧
    (0xA4 : Byte) = packCtrl true false true false true ∧ (0x94 : Byte) = packCtrl true false false true true ∧
    (0x84 : Byte) = packCtrl true false false false true ∧ (0xC4 : Byte) = packCtrl true true false false true := by
  decide

end Sys2Proof
end

