-- ==== Sys2Proof/Laws/State.lean ====
section
/-! SUPPORT. The small lemmas of the state updates: for each update, what each part and field is after it, true by rfl and in the
simp set; simp takes each conjunct as a rewrite rule of its own. -/

namespace Sys2Proof.Machine

/-- `storeCtrl` changes CTRL only. -/
@[simp] theorem storeCtrl_frame (v : Byte) (s : State) :
    (storeCtrl v s).code = s.code ∧ (storeCtrl v s).ps = s.ps ∧ (storeCtrl v s).data = s.data ∧
    (storeCtrl v s).div = s.div ∧ (storeCtrl v s).phase = s.phase ∧ (storeCtrl v s).pending = s.pending ∧
    (storeCtrl v s).busLog = s.busLog ∧ (storeCtrl v s).toDriver = s.toDriver ∧ (storeCtrl v s).fault = s.fault ∧
    (storeCtrl v s).turns = s.turns ∧ (storeCtrl v s).draws = s.draws ∧ (storeCtrl v s).params = s.params := by
  refine ⟨?_, ?_, ?_, ?_, ?_, ?_, ?_, ?_, ?_, ?_, ?_, ?_⟩ <;> rfl

/-- `issue` changes `pending` and `code` only. -/
@[simp] theorem issue_frame (a : Action) (s : State) :
    (issue a s).ctrl = s.ctrl ∧ (issue a s).ps = s.ps ∧ (issue a s).data = s.data ∧
    (issue a s).div = s.div ∧ (issue a s).phase = s.phase ∧ (issue a s).busLog = s.busLog ∧
    (issue a s).toDriver = s.toDriver ∧ (issue a s).fault = s.fault ∧ (issue a s).turns = s.turns ∧
    (issue a s).draws = s.draws ∧ (issue a s).params = s.params := by
  refine ⟨?_, ?_, ?_, ?_, ?_, ?_, ?_, ?_, ?_, ?_, ?_⟩ <;> rfl

/-- `enableIfOff` changes the phase and the code only. -/
@[simp] theorem enableIfOff_frame (s : State) :
    (enableIfOff s).ctrl = s.ctrl ∧ (enableIfOff s).ps = s.ps ∧ (enableIfOff s).data = s.data ∧
    (enableIfOff s).div = s.div ∧ (enableIfOff s).pending = s.pending ∧ (enableIfOff s).busLog = s.busLog ∧
    (enableIfOff s).toDriver = s.toDriver ∧ (enableIfOff s).fault = s.fault ∧ (enableIfOff s).turns = s.turns ∧
    (enableIfOff s).draws = s.draws ∧ (enableIfOff s).params = s.params := by
  refine ⟨?_, ?_, ?_, ?_, ?_, ?_, ?_, ?_, ?_, ?_, ?_⟩ <;> rfl

@[simp] theorem enableIfOff_phase (s : State) : (enableIfOff s).phase = commandPhase s.phase := rfl

@[simp] theorem enableIfOff_code (s : State) : (enableIfOff s).code = if s.phase = .off then 0xF8 else s.code := rfl

/-- `disable` changes CTRL, the code, the phase, `pending` and the bus log only. -/
@[simp] theorem disable_frame (v : Byte) (s : State) :
    (disable v s).ps = s.ps ∧ (disable v s).data = s.data ∧ (disable v s).div = s.div ∧
    (disable v s).toDriver = s.toDriver ∧ (disable v s).fault = s.fault ∧ (disable v s).turns = s.turns ∧
    (disable v s).draws = s.draws ∧ (disable v s).params = s.params := by
  refine ⟨?_, ?_, ?_, ?_, ?_, ?_, ?_, ?_⟩ <;> rfl

@[simp] theorem disable_ctrl (v : Byte) (s : State) : (disable v s).ctrl = (storeCtrl v s).ctrl := rfl

@[simp] theorem disable_code (v : Byte) (s : State) : (disable v s).code = 0xF8 := rfl

@[simp] theorem disable_phase (v : Byte) (s : State) : (disable v s).phase = .off := rfl

@[simp] theorem disable_pending (v : Byte) (s : State) : (disable v s).pending = none := rfl

@[simp] theorem disable_busLog (v : Byte) (s : State) :
    (disable v s).busLog = if s.pending ≠ none ∨ owned s.phase = true then s.busLog ++ [.abort] else s.busLog := rfl

/-- `complete` changes CTRL, the code, the phase, `pending` and the bus log only. -/
@[simp] theorem complete_frame (code : Byte) (ph : Phase) (e : BusEvent) (s : State) :
    (complete code ph e s).ps = s.ps ∧ (complete code ph e s).data = s.data ∧ (complete code ph e s).div = s.div ∧
    (complete code ph e s).toDriver = s.toDriver ∧ (complete code ph e s).fault = s.fault ∧ (complete code ph e s).turns = s.turns ∧
    (complete code ph e s).draws = s.draws ∧ (complete code ph e s).params = s.params := by
  refine ⟨?_, ?_, ?_, ?_, ?_, ?_, ?_, ?_⟩ <;> rfl

/-- `advance` changes the position only. -/
@[simp] theorem advance_frame (s : State) :
    (advance s).toController = s.toController ∧ (advance s).lifecycle = s.lifecycle ∧ (advance s).txnOpen = s.txnOpen ∧
    (advance s).wedged = s.wedged ∧ (advance s).program = s.program ∧ (advance s).prim = s.prim ∧
    (advance s).contract = s.contract ∧ (advance s).polls = s.polls ∧ (advance s).locals = s.locals ∧
    (advance s).result = s.result ∧ (advance s).ret = s.ret ∧ (advance s).fault = s.fault ∧
    (advance s).turns = s.turns ∧ (advance s).draws = s.draws ∧ (advance s).params = s.params := by
  refine ⟨?_, ?_, ?_, ?_, ?_, ?_, ?_, ?_, ?_, ?_, ?_, ?_, ?_, ?_, ?_⟩ <;> rfl

/-- `goOn` changes the primitive's point and its poll count only. -/
@[simp] theorem goOn_frame (p : PrimPoint) (s : State) :
    (goOn p s).toController = s.toController ∧ (goOn p s).lifecycle = s.lifecycle ∧ (goOn p s).txnOpen = s.txnOpen ∧
    (goOn p s).wedged = s.wedged ∧ (goOn p s).program = s.program ∧ (goOn p s).pos = s.pos ∧
    (goOn p s).contract = s.contract ∧ (goOn p s).locals = s.locals ∧ (goOn p s).result = s.result ∧
    (goOn p s).ret = s.ret ∧ (goOn p s).fault = s.fault ∧ (goOn p s).turns = s.turns ∧
    (goOn p s).draws = s.draws ∧ (goOn p s).params = s.params := by
  refine ⟨?_, ?_, ?_, ?_, ?_, ?_, ?_, ?_, ?_, ?_, ?_, ?_, ?_, ?_⟩ <;> rfl

/-- `setOk` changes the driver's variables only. -/
@[simp] theorem setOk_frame (b : Bool) (s : State) :
    (setOk b s).toController = s.toController ∧ (setOk b s).lifecycle = s.lifecycle ∧ (setOk b s).txnOpen = s.txnOpen ∧
    (setOk b s).wedged = s.wedged ∧ (setOk b s).program = s.program ∧ (setOk b s).pos = s.pos ∧
    (setOk b s).prim = s.prim ∧ (setOk b s).contract = s.contract ∧ (setOk b s).polls = s.polls ∧
    (setOk b s).result = s.result ∧ (setOk b s).ret = s.ret ∧ (setOk b s).fault = s.fault ∧
    (setOk b s).turns = s.turns ∧ (setOk b s).draws = s.draws ∧ (setOk b s).params = s.params := by
  refine ⟨?_, ?_, ?_, ?_, ?_, ?_, ?_, ?_, ?_, ?_, ?_, ?_, ?_, ?_, ?_⟩ <;> rfl

/-- `contractDone` changes the contract in progress and the result only. -/
@[simp] theorem contractDone_frame (r : Ret) (s : State) :
    (contractDone r s).toController = s.toController ∧ (contractDone r s).lifecycle = s.lifecycle ∧ (contractDone r s).txnOpen = s.txnOpen ∧
    (contractDone r s).wedged = s.wedged ∧ (contractDone r s).program = s.program ∧ (contractDone r s).pos = s.pos ∧
    (contractDone r s).prim = s.prim ∧ (contractDone r s).polls = s.polls ∧ (contractDone r s).locals = s.locals ∧
    (contractDone r s).result = s.result ∧ (contractDone r s).fault = s.fault ∧ (contractDone r s).turns = s.turns ∧
    (contractDone r s).draws = s.draws ∧ (contractDone r s).params = s.params := by
  refine ⟨?_, ?_, ?_, ?_, ?_, ?_, ?_, ?_, ?_, ?_, ?_, ?_, ?_, ?_⟩ <;> rfl

/-- `wrStage` changes the contract in progress only. -/
@[simp] theorem wrStage_frame (dev reg val : Byte) (st : WrStage) (s : State) :
    (wrStage dev reg val st s).toController = s.toController ∧ (wrStage dev reg val st s).lifecycle = s.lifecycle ∧ (wrStage dev reg val st s).txnOpen = s.txnOpen ∧
    (wrStage dev reg val st s).wedged = s.wedged ∧ (wrStage dev reg val st s).program = s.program ∧ (wrStage dev reg val st s).pos = s.pos ∧
    (wrStage dev reg val st s).prim = s.prim ∧ (wrStage dev reg val st s).polls = s.polls ∧ (wrStage dev reg val st s).locals = s.locals ∧
    (wrStage dev reg val st s).result = s.result ∧ (wrStage dev reg val st s).ret = s.ret ∧ (wrStage dev reg val st s).fault = s.fault ∧
    (wrStage dev reg val st s).turns = s.turns ∧ (wrStage dev reg val st s).draws = s.draws ∧ (wrStage dev reg val st s).params = s.params := by
  refine ⟨?_, ?_, ?_, ?_, ?_, ?_, ?_, ?_, ?_, ?_, ?_, ?_, ?_, ?_, ?_⟩ <;> rfl

/-- `rdStage` changes the contract in progress only. -/
@[simp] theorem rdStage_frame (dev reg : Byte) (st : RdStage) (s : State) :
    (rdStage dev reg st s).toController = s.toController ∧ (rdStage dev reg st s).lifecycle = s.lifecycle ∧ (rdStage dev reg st s).txnOpen = s.txnOpen ∧
    (rdStage dev reg st s).wedged = s.wedged ∧ (rdStage dev reg st s).program = s.program ∧ (rdStage dev reg st s).pos = s.pos ∧
    (rdStage dev reg st s).prim = s.prim ∧ (rdStage dev reg st s).polls = s.polls ∧ (rdStage dev reg st s).locals = s.locals ∧
    (rdStage dev reg st s).result = s.result ∧ (rdStage dev reg st s).ret = s.ret ∧ (rdStage dev reg st s).fault = s.fault ∧
    (rdStage dev reg st s).turns = s.turns ∧ (rdStage dev reg st s).draws = s.draws ∧ (rdStage dev reg st s).params = s.params := by
  refine ⟨?_, ?_, ?_, ?_, ?_, ?_, ?_, ?_, ?_, ?_, ?_, ?_, ?_, ?_, ?_⟩ <;> rfl

/-- `recordFault` changes `fault` only (60_exceptions.md R220). -/
@[simp] theorem recordFault_frame (k : Fault) (s : State) :
    (recordFault k s).toController = s.toController ∧ (recordFault k s).toDriver = s.toDriver ∧ (recordFault k s).turns = s.turns ∧
    (recordFault k s).draws = s.draws ∧ (recordFault k s).params = s.params := by
  refine ⟨?_, ?_, ?_, ?_, ?_⟩ <;> rfl

@[simp] theorem storeCtrl_ctrl (v : Byte) (s : State) : (storeCtrl v s).ctrl =
      { int := if byteBit v 7 then false else s.ctrl.int, ea := byteBit v 6, sta := byteBit v 5, sto := byteBit v 4,
        en := byteBit v 2 } := rfl

@[simp] theorem issue_pending (a : Action) (s : State) : (issue a s).pending = some a := rfl

@[simp] theorem issue_code (a : Action) (s : State) : (issue a s).code = 0xF8 := rfl

@[simp] theorem advance_pos (s : State) : (advance s).pos = s.pos + 1 := rfl

@[simp] theorem goOn_prim (p : PrimPoint) (s : State) : (goOn p s).prim = some p := rfl

@[simp] theorem goOn_polls (p : PrimPoint) (s : State) : (goOn p s).polls = 0 := rfl

@[simp] theorem setOk_locals (b : Bool) (s : State) : (setOk b s).locals = { s.locals with ok := flagByte b } := rfl

@[simp] theorem contractDone_contract (r : Ret) (s : State) : (contractDone r s).contract = none := rfl

@[simp] theorem contractDone_ret (r : Ret) (s : State) : (contractDone r s).ret = some r := rfl

@[simp] theorem wrStage_contract (dev reg val : Byte) (st : WrStage) (s : State) : (wrStage dev reg val st s).contract = some (.wrreg dev reg val st) := rfl

@[simp] theorem rdStage_contract (dev reg : Byte) (st : RdStage) (s : State) : (rdStage dev reg st s).contract = some (.rdreg dev reg st) := rfl

@[simp] theorem complete_code (code : Byte) (ph : Phase) (e : BusEvent) (s : State) : (complete code ph e s).code = code := rfl

@[simp] theorem complete_phase (code : Byte) (ph : Phase) (e : BusEvent) (s : State) : (complete code ph e s).phase = ph := rfl

@[simp] theorem complete_pending (code : Byte) (ph : Phase) (e : BusEvent) (s : State) : (complete code ph e s).pending = none := rfl

@[simp] theorem complete_busLog (code : Byte) (ph : Phase) (e : BusEvent) (s : State) : (complete code ph e s).busLog = s.busLog ++ [e] := rfl

@[simp] theorem complete_ctrl (code : Byte) (ph : Phase) (e : BusEvent) (s : State) : (complete code ph e s).ctrl = { s.ctrl with int := true } := rfl

@[simp] theorem recordFault_fault (k : Fault) (s : State) : (recordFault k s).fault = some (s.fault.getD k) := rfl

end Sys2Proof.Machine
end

