-- ==== Sys2Proof/Laws/Ops.lean ====
section
/-! SUPPORT. One lemma for each shared operation: everything it can do. -/

namespace Sys2Proof.Machine

/-! ### Sequencing -/

theorem andThen_next_iff {o : Out} {f : State → Out} {t : State} :
    andThen o f = .next t ↔ ∃ u, o = .next u ∧ f u = .next t := by
  cases o <;> simp [andThen]

@[simp] theorem andThen_next (s : State) (f : State → Out) : andThen (.next s) f = f s := rfl

@[simp] theorem andThen_fault (k : Fault) (f : State → Out) : andThen (.fault k) f = .fault k := rfl

@[simp] theorem andThen_refused (r : Refusal) (f : State → Out) : andThen (.refused r) f = .refused r := rfl

@[simp] theorem raiseFault_ne_next (k : Fault) (t : State) : raiseFault k ≠ .next t := by simp [raiseFault]

/-! ### The frame of the controller's side -/

/-- No read changes the controller (20_memory.md R57). -/
theorem accessRead_sameHardware (r : Reg) (s : State) : SameHardware s (accessRead r s) := by
  cases r <;> try rfl
  simp only [SameHardware, accessRead, readReg, readData]
  split <;> rfl

theorem wrregReturn_sameHardware (dev reg val : Byte) (st : WrStage) (r : Ret) (s : State) :
    SameHardware s (wrregReturn dev reg val st r s) := by
  cases st <;> simp only [SameHardware, wrregReturn] <;> (repeat' split) <;> rfl

theorem rdregReturn_sameHardware (dev reg : Byte) (st : RdStage) (r : Ret) (s : State) :
    SameHardware s (rdregReturn dev reg st r s) := by
  cases st <;> simp only [SameHardware, rdregReturn] <;> (repeat' split) <;> rfl

/-- A primitive's return is the driver's business only. -/
theorem finishPrim_sameHardware (r : Ret) (s : State) : SameHardware s (finishPrim r s) := by
  simp only [SameHardware, finishPrim]
  split
  · rfl
  · rw [wrregReturn_sameHardware]
  · rw [rdregReturn_sameHardware]

/-- What a primitive's return leaves alone, and that it clears the primitive in progress. -/
theorem finishPrim_frame (r : Ret) (s : State) :
    (finishPrim r s).toController = s.toController ∧ (finishPrim r s).prim = none ∧ (finishPrim r s).polls = 0 ∧
    (finishPrim r s).lifecycle = s.lifecycle ∧ (finishPrim r s).txnOpen = s.txnOpen ∧
    (finishPrim r s).wedged = s.wedged ∧ (finishPrim r s).program = s.program ∧ (finishPrim r s).pos = s.pos ∧
    (finishPrim r s).locals = s.locals ∧ (finishPrim r s).result = s.result ∧ (finishPrim r s).fault = s.fault ∧
    (finishPrim r s).turns = s.turns ∧ (finishPrim r s).draws = s.draws ∧ (finishPrim r s).params = s.params := by
  simp only [finishPrim]
  split
  · simp
  · rename_i st _
    cases st <;> simp only [wrregReturn] <;> (repeat' split) <;> simp
  · rename_i st _
    cases st <;> simp only [rdregReturn] <;> (repeat' split) <;> simp

/-- Outside a contract call a primitive's return is the program's. -/
theorem finishPrim_plain {r : Ret} {s : State} (h : s.contract = none) :
    finishPrim r s = { s with prim := none, polls := 0, ret := some r } := by
  simp [finishPrim, h]

theorem goOn_sameHardware (p : PrimPoint) (s : State) : SameHardware s (goOn p s) := rfl

theorem advance_sameHardware (s : State) : SameHardware s (advance s) := rfl

/-- A poll step reads CTRL and otherwise only moves the driver, if its continuations do. -/
theorem pollStep_sameHardware {b : Bool} {m : Byte} {f g : State → State} (hf : ∀ u, SameHardware u (f u))
    (hg : ∀ u, SameHardware u (g u)) (s : State) : SameHardware s (pollStep b m f g s) := by
  simp only [SameHardware, pollStep]
  split
  · rw [hf]; rfl
  · split
    · rw [hg]; rfl
    · rfl

/-! ### Writes -/

/-- Everything a CTRL write that does not fault can do (40_register_access.md R102 to R108). -/
theorem writeCtrl_cases {v : Byte} {s t : State} (h : writeCtrl v s = .next t) :
    (classifyCtrl v s.phase s.pending = .disable ∧ t = disable v s) ∨
    (classifyCtrl v s.phase s.pending = .config ∧ t = enableIfOff (storeCtrl v s)) ∨
    (classifyCtrl v s.phase s.pending = .start ∧ t = issue .start (enableIfOff (storeCtrl v s))) ∨
    (classifyCtrl v s.phase s.pending = .stop ∧ t = issue .stop (enableIfOff (storeCtrl v s))) ∨
    (classifyCtrl v s.phase s.pending = .tx ∧ t = issue (.tx s.data) (storeCtrl v s)) ∨
    (∃ ea, classifyCtrl v s.phase s.pending = .rx ea ∧ t = issue (.rx ea) (storeCtrl v s)) := by
  unfold writeCtrl at h
  split at h <;> simp_all [raiseFault]

/-- Everything a plain write that does not fault can do (R111, R113, R115). -/
theorem writeUnlessBusy_cases {r : Reg} {f : State → State} {s t : State} (h : writeUnlessBusy r f s = .next t) :
    s.pending = none ∧ t = f s := by
  unfold writeUnlessBusy at h
  split at h
  · simp [raiseFault] at h
  · rename_i hp
    exact ⟨by simpa using hp, by simpa using h.symm⟩

theorem writeReg_plain_cases {r : Reg} {v : Byte} {s t : State} (hr : r ≠ .ctrl) (h : writeReg r v s = .next t) :
    s.pending = none ∧
      (t = { s with div := v } ∨ t = { s with ps := v.extractLsb' 0 2 } ∨ t = { s with data := v }) := by
  cases r <;> simp only [writeReg] at h
  · exact ⟨(writeUnlessBusy_cases h).1, .inl (writeUnlessBusy_cases h).2⟩
  · exact ⟨(writeUnlessBusy_cases h).1, .inr (.inl (writeUnlessBusy_cases h).2)⟩
  · exact ⟨(writeUnlessBusy_cases h).1, .inr (.inr (writeUnlessBusy_cases h).2)⟩
  · exact absurd rfl hr

/-! ### Guards -/

theorem guardReady_next {op : DriverOp} {s t : State} {go : State → Out} (h : guardReady op s go = .next t) :
    s.lifecycle = .ready ∧ s.wedged = false ∧ go s = .next t := by
  unfold guardReady at h
  split at h
  · simp [raiseFault] at h
  · rename_i hg
    simp only [not_or, ne_eq, Decidable.not_not, Bool.not_eq_true] at hg
    exact ⟨hg.1, hg.2, h⟩

theorem guardReady_ready {op : DriverOp} {s : State} {go : State → Out} (h : driverReady s) :
    guardReady op s go = go s := by
  simp [guardReady, h.1, h.2]

theorem checkDevice_next {dev : Byte} {s t : State} {go : State → Out} (h : checkDevice dev s go = .next t) :
    dev.toNat ≤ 0x7F ∧ go s = .next t := by
  unfold checkDevice at h
  split at h
  · simp [raiseFault] at h
  · exact ⟨by omega, h⟩

/-! ### The hardware invariant is about the controller only -/

/-- Two states with the same controller meet the hardware invariant together: a driver's step leaves it as it is. -/
theorem hardwareInv_of_sameHardware {s t : State} (h : SameHardware s t) (k : HardwareInv s) : HardwareInv t := by
  cases s; cases t
  simp only [SameHardware] at h
  subst h
  exact ⟨k.off_iff_disabled, k.pending_consistent, k.code_fits_phase, k.stop_requested, k.code_low_bits_zero, k.ctrl_reserved_zero⟩

end Sys2Proof.Machine
end

