-- ==== Sys2Proof/Laws/PerInstr.lean ====
section
/-! SUPPORT. Statements for all instructions, one lemma per constructor: every word an instruction's encoding gives fits the 12 bits of
30_encoding.md R70. -/

namespace Sys2Proof.Laws

open Sys2Proof

/-- Every word of a list fits 12 bits. -/
def fits12 (ws : List Word) : Bool := ws.all fun w => w.toNat < 4096

/-- The words the encoder gives an instruction, whatever the parameters, are access words. -/
def EncodeFits.Statement (i : Instr) : Prop := ∀ q : Params, fits12 (encode q i) = true

theorem accessWord_fits (d : Bool) (o : BitVec 3) (v : Byte) : (accessWord d o v).toNat < 4096 :=
  (accessWord_fields d o v).2.2.2

@[simp] theorem readWord_fits (r : Reg) : (readWord r).toNat < 4096 := accessWord_fits _ _ _

@[simp] theorem writeWord_fits (r : Reg) (v : Byte) : (writeWord r v).toNat < 4096 := accessWord_fits _ _ _

theorem fits12_append (a b : List Word) : fits12 (a ++ b) = (fits12 a && fits12 b) := by simp [fits12]

@[simp] theorem fits12_nil : fits12 [] = true := rfl

@[simp] theorem fits12_cons (w : Word) (ws : List Word) : fits12 (w :: ws) = (decide (w.toNat < 4096) && fits12 ws) := rfl

@[simp] theorem startWords_fit (q : Params) : fits12 (startWords q) = true := by
  cases h : q.startCheck <;> simp [startWords, h]

@[simp] theorem stopWords_fit : fits12 stopWords = true := by simp [stopWords]

@[simp] theorem wrbyteWords_fit (b : Byte) : fits12 (wrbyteWords b) = true := by simp [wrbyteWords]

@[simp] theorem rdbyteWords_fit (ack : Bool) : fits12 (rdbyteWords ack) = true := by simp [rdbyteWords]

/-- Every instruction, once. -/
theorem encode_fits (q : Params) (i : Instr) : fits12 (encode q i) = true := by
  cases i <;> simp [encode, encodeAccess, ctrlByteOf, fits12_append]

namespace EncodeFits

theorem rdDiv : Statement .rdDiv := fun q => encode_fits q _

theorem rdStatus : Statement .rdStatus := fun q => encode_fits q _

theorem rdData : Statement .rdData := fun q => encode_fits q _

theorem rdCtrl : Statement .rdCtrl := fun q => encode_fits q _

theorem wrDiv (v : Byte) : Statement (.wrDiv v) := fun q => encode_fits q _

theorem wrStatus (v : Byte) : Statement (.wrStatus v) := fun q => encode_fits q _

theorem wrData (v : Byte) : Statement (.wrData v) := fun q => encode_fits q _

theorem wrCtrlDisable (int ea sta sto : Bool) : Statement (.wrCtrlDisable int ea sta sto) := fun q => encode_fits q _

theorem wrCtrlConfig (ea sta sto : Bool) : Statement (.wrCtrlConfig ea sta sto) := fun q => encode_fits q _

theorem wrCtrlStart (ea : Bool) : Statement (.wrCtrlStart ea) := fun q => encode_fits q _

theorem wrCtrlStop (ea : Bool) : Statement (.wrCtrlStop ea) := fun q => encode_fits q _

theorem wrCtrlStaSto (ea : Bool) : Statement (.wrCtrlStaSto ea) := fun q => encode_fits q _

theorem wrCtrlTx (ea : Bool) : Statement (.wrCtrlTx ea) := fun q => encode_fits q _

theorem wrCtrlRxAck : Statement .wrCtrlRxAck := fun q => encode_fits q _

theorem wrCtrlRxNack : Statement .wrCtrlRxNack := fun q => encode_fits q _

theorem wrCtrlIllegal (ea sta : Bool) : Statement (.wrCtrlIllegal ea sta) := fun q => encode_fits q _

theorem init : Statement .init := fun q => encode_fits q _

theorem close : Statement .close := fun q => encode_fits q _

theorem start : Statement .start := fun q => encode_fits q _

theorem stop : Statement .stop := fun q => encode_fits q _

theorem wrbyte (b : Byte) : Statement (.wrbyte b) := fun q => encode_fits q _

theorem rdbyte (ack : Bool) : Statement (.rdbyte ack) := fun q => encode_fits q _

theorem wrreg (dev reg val : Byte) : Statement (.wrreg dev reg val) := fun q => encode_fits q _

theorem rdreg (dev reg : Byte) : Statement (.rdreg dev reg) := fun q => encode_fits q _

end EncodeFits

end Sys2Proof.Laws
end

