-- ==== Sys2Proof/Laws/Step.lean ====
section
/-! SUPPORT. What a step can do, said once: to the controller (nothing, one register write, or one completion) and to the fields
no step touches. -/

namespace Sys2Proof.Machine

/-- What a CPU step can do to the controller: nothing, or one register write. -/
def CpuEffect (s t : State) : Prop :=
  SameHardware s t ∨ ∃ r v u w, SameHardware s u ∧ writeReg r v u = .next w ∧ SameHardware w t

theorem CpuEffect.write {r : Reg} {v : Byte} {u w s t : State} (h1 : SameHardware s u)
    (h : writeReg r v u = .next w) (h2 : SameHardware w t) : CpuEffect s t := .inr ⟨r, v, u, w, h1, h, h2⟩

theorem CpuEffect.mono {s s' t : State} (h : SameHardware s s') : CpuEffect s' t → CpuEffect s t
  | .inl k => .inl (Eq.trans k h)
  | .inr ⟨r, v, u, w, h1, hw, h2⟩ => .inr ⟨r, v, u, w, Eq.trans h1 h, hw, h2⟩

theorem CpuEffect.after {s t t' : State} (k : SameHardware t t') : CpuEffect s t → CpuEffect s t'
  | .inl h => .inl (Eq.trans k h)
  | .inr ⟨r, v, u, w, h1, hw, h2⟩ => .inr ⟨r, v, u, w, h1, hw, Eq.trans k h2⟩

/-- A write followed by the driver's bookkeeping. -/
theorem CpuEffect.andThen_write {r : Reg} {v : Byte} {s t : State} {f : State → State}
    (hf : ∀ w, SameHardware w (f w)) (h : andThen (writeReg r v s) (fun w => .next (f w)) = .next t) :
    CpuEffect s t := by
  obtain ⟨w, hw, ht⟩ := andThen_next_iff.1 h
  cases ht
  exact .write (rfl) hw (hf w)

theorem beginStart_effect {s t : State} (h : beginStart s = .next t) : CpuEffect s t := by
  obtain ⟨_, _, h⟩ := guardReady_next h
  exact CpuEffect.andThen_write (f := fun w => goOn .startPoll { w with txnOpen := true }) (fun _ => rfl) h

theorem beginStop_effect {s t : State} (h : beginStop s = .next t) : CpuEffect s t := by
  obtain ⟨_, _, h⟩ := guardReady_next h
  exact CpuEffect.andThen_write (fun _ => goOn_sameHardware _ _) h

theorem beginWrbyte_effect {b : Byte} {s t : State} (h : beginWrbyte b s = .next t) : CpuEffect s t := by
  obtain ⟨_, _, h⟩ := guardReady_next h
  exact CpuEffect.andThen_write (fun _ => goOn_sameHardware _ _) h

theorem beginRdbyte_effect {a : Bool} {s t : State} (h : beginRdbyte a s = .next t) : CpuEffect s t := by
  obtain ⟨_, _, h⟩ := guardReady_next h
  exact CpuEffect.andThen_write (fun _ => goOn_sameHardware _ _) h

/-- Everything an instruction that does not fault can do to the controller. -/
theorem exec_effect {i : Instr} {s t : State} (h : exec i s = .next t) : CpuEffect s t := by
  cases i <;> simp only [exec] at h
  case rdDiv => cases h; exact .inl (accessRead_sameHardware _ _)
  case rdStatus => cases h; exact .inl (accessRead_sameHardware _ _)
  case rdData => cases h; exact .inl (accessRead_sameHardware _ _)
  case rdCtrl => cases h; exact .inl (accessRead_sameHardware _ _)
  case wrCtrlIllegal ea sta =>
    simp only [execWrCtrlIllegal] at h
    split at h <;> simp [raiseFault] at h
  case init =>
    simp only [execInit] at h
    split at h
    · simp [raiseFault] at h
    · exact CpuEffect.andThen_write (fun _ => goOn_sameHardware _ _) h
  case close =>
    simp only [execClose] at h
    split at h
    · simp [raiseFault] at h
    · exact CpuEffect.andThen_write
        (f := fun w => finishPrim .unit { w with lifecycle := .closed, txnOpen := false, wedged := false })
        (fun _ => finishPrim_sameHardware _ _) h
  case start => exact beginStart_effect h
  case stop => exact beginStop_effect h
  case wrbyte b => exact beginWrbyte_effect h
  case rdbyte a => exact beginRdbyte_effect h
  case wrreg dev reg val =>
    exact (beginStart_effect (checkDevice_next h).2).mono rfl
  case rdreg dev reg =>
    exact (beginStart_effect (checkDevice_next h).2).mono rfl
  all_goals exact .write (rfl) h (rfl)

theorem runWord_next {w : Word} {s t : State} (h : runWord w s = .next t) :
    ∃ i, decode s.phase w = .ok i ∧ exec i s = .next t := by
  unfold runWord at h
  split at h
  · exact ⟨_, ‹_›, h⟩
  · rename_i e _
    cases e <;> simp [rejected, raiseFault] at h

theorem runWord_effect {w : Word} {s t : State} (h : runWord w s = .next t) : CpuEffect s t := by
  obtain ⟨i, _, h⟩ := runWord_next h
  exact exec_effect h

theorem storeResult_sameHardware (dst : Option Var) (s : State) : SameHardware s (storeResult dst s) := by
  unfold storeResult
  split <;> exact rfl

/-- A jump only moves the position. -/
theorem jump_next {l : Nat} {s t : State} (h : jump l s = .next t) : ∃ n, t = { s with pos := n } := by
  unfold jump at h
  split at h
  · exact ⟨_, by simpa using h.symm⟩
  · simp at h

theorem waitStmt_sameHardware (b : Bool) (m : Byte) (s : State) : SameHardware s (waitStmt b m s) :=
  pollStep_sameHardware (g := fun t => advance { t with ret := some .busTimeout }) advance_sameHardware (fun _ => rfl) s

theorem runStmt_effect {c : Stmt} {s t : State} (h : runStmt c s = .next t) : CpuEffect s t := by
  have adv : ∀ {u v : State}, SameHardware u v → CpuEffect v t → CpuEffect u t := fun k e => e.mono k
  cases c <;> simp only [runStmt] at h
  case word w => exact adv (advance_sameHardware s) (runWord_effect h)
  case rd r dst =>
    obtain ⟨u, hu, ht⟩ := andThen_next_iff.1 h
    cases ht
    exact ((runWord_effect hu).mono (advance_sameHardware s)).after (storeResult_sameHardware _ _)
  case wr r e => exact adv (advance_sameHardware s) (runWord_effect h)
  case waitSet m => cases h; exact .inl (waitStmt_sameHardware _ _ _)
  case waitClr m => cases h; exact .inl (waitStmt_sameHardware _ _ _)
  case assign x e => cases h; exact .inl rfl
  case test x c => cases h; exact .inl rfl
  case ifGoto c l =>
    split at h
    · obtain ⟨n, rfl⟩ := jump_next h
      exact .inl rfl
    · cases h; exact .inl (advance_sameHardware s)
  case goto l =>
    obtain ⟨n, rfl⟩ := jump_next h
    exact .inl rfl
  case label l => cases h; exact .inl (advance_sameHardware s)
  case ret e => cases h; exact .inl rfl
  case call p => exact adv (advance_sameHardware s) (exec_effect h)
  case bus k addr width v =>
    unfold busAccess at h
    split at h
    · simp at h
    · split at h
      · simp [raiseFault] at h
      · split at h
        · simp at h
        · exact adv (advance_sameHardware s) (runWord_effect h)

theorem primPoll_sameHardware {b : Bool} {m : Byte} {f : State → State} (hf : ∀ u, SameHardware u (f u)) (s : State) :
    SameHardware s (primPoll b m f s) :=
  pollStep_sameHardware hf (finishPrim_sameHardware _) s

theorem startPolled_sameHardware (s : State) : SameHardware s (startPolled s) := by
  unfold startPolled
  split
  · exact goOn_sameHardware _ _
  · exact finishPrim_sameHardware _ _

theorem resumePrim_effect {p : PrimPoint} {s t : State} (h : resumePrim p s = .next t) : CpuEffect s t := by
  cases p <;> simp only [resumePrim] at h
  case initDiv => exact CpuEffect.andThen_write (fun _ => goOn_sameHardware _ _) h
  case initCtrl =>
    exact CpuEffect.andThen_write (f := fun w => finishPrim .unit { w with lifecycle := .ready })
      (fun _ => finishPrim_sameHardware _ _) h
  case startPoll => cases h; exact .inl (primPoll_sameHardware startPolled_sameHardware s)
  case startStatus => cases h; exact .inl (finishPrim_sameHardware _ _)
  case stopPoll =>
    cases h
    exact .inl (primPoll_sameHardware (f := fun t => finishPrim .unit { t with txnOpen := false })
      (fun _ => finishPrim_sameHardware _ _) s)
  case wrbyteCtrl => exact CpuEffect.andThen_write (fun _ => goOn_sameHardware _ _) h
  case wrbytePoll => cases h; exact .inl (primPoll_sameHardware (goOn_sameHardware _) s)
  case wrbyteStatus => cases h; exact .inl (finishPrim_sameHardware _ _)
  case rdbytePoll => cases h; exact .inl (primPoll_sameHardware (goOn_sameHardware _) s)
  case rdbyteStatus =>
    cases h
    simp only [resumeRdbyteStatus]
    split
    · exact .inl rfl
    · exact .inl (finishPrim_sameHardware _ _)
  case rdbyteData =>
    cases h
    exact .inl (Eq.trans (finishPrim_sameHardware _ _) (accessRead_sameHardware .data s))

theorem resumeContract_effect {c : Contract} {s t : State} (h : resumeContract c s = .next t) : CpuEffect s t := by
  unfold resumeContract at h
  split at h <;> split at h <;>
    first
    | exact beginStart_effect h
    | exact beginStop_effect h
    | exact beginWrbyte_effect h
    | exact beginRdbyte_effect h

/-- Everything a CPU step can do to the controller: nothing, or one register write. -/
theorem cpuStep_effect {s t : State} (h : cpuStep s = .next t) : CpuEffect s t := by
  unfold cpuStep at h
  split at h
  · exact resumePrim_effect h
  · split at h
    · exact resumeContract_effect h
    · split at h
      · exact runStmt_effect h
      · simp at h

theorem takeTurn_sameHardware (s : State) : SameHardware s (takeTurn s).2 := by
  unfold takeTurn
  split <;> exact rfl

theorem takeTurn_toDriver (s : State) : (takeTurn s).2.toDriver = s.toDriver := by
  unfold takeTurn
  split <;> exact rfl

/-- A controller step is none of the driver's (41_controller_actions.md R130). -/
theorem ctrlStep_toDriver (a : Action) (r : Response) (s : State) : (ctrlStep a r s).toDriver = s.toDriver := by
  unfold ctrlStep
  split <;> try rfl
  unfold completeTx
  split <;> rfl

/-- A controller step changes nothing, or it completes the action with an admitted answer and logs at most one event, never ABORT. -/
theorem ctrlStep_cases (a : Action) (r : Response) (s : State) :
    ctrlStep a r s = s ∨
    (admitted a r = true ∧ r ≠ .hold ∧ (ctrlStep a r s).pending = none ∧
      ((ctrlStep a r s).busLog = s.busLog ∨ ∃ e, (ctrlStep a r s).busLog = s.busLog ++ [e] ∧ e ≠ .abort)) := by
  unfold ctrlStep
  split
  · exact .inr ⟨rfl, nofun, rfl, .inr ⟨_, rfl, by split <;> nofun⟩⟩
  · refine .inr ⟨rfl, nofun, rfl, ?_⟩
    simp only [completeStop]
    split
    · exact .inr ⟨_, rfl, nofun⟩
    · exact .inl rfl
  · unfold completeTx
    split <;> exact .inr ⟨rfl, nofun, rfl, .inr ⟨_, rfl, nofun⟩⟩
  all_goals first
    | exact .inl rfl
    | exact .inr ⟨rfl, nofun, rfl, .inr ⟨_, rfl, nofun⟩⟩

/-- Everything a step can do to the controller: what a CPU step can, or the controller step for the pending action with the answer of
the turn taken. -/
theorem step_effect {s t : State} (h : step s = .next t) :
    CpuEffect s t ∨ ∃ a r, s.pending = some a ∧ (takeTurn s).1 = .ctrl r ∧ t = ctrlStep a r (takeTurn s).2 := by
  unfold step machineStep at h
  split at h
  · simp at h
  · unfold liveStep at h
    split at h
    · exact .inl (cpuStep_effect h)
    · rename_i a ha
      unfold busyStep at h
      have hu := takeTurn_sameHardware s
      split at h
      · rename_i u hu'
        rw [hu'] at hu
        split at h
        · exact .inl ((cpuStep_effect h).mono hu)
        · cases h; exact .inl (.inl hu)
      · rename_i r u hu'
        cases h
        exact .inr ⟨a, r, ha, by rw [hu'], by rw [hu']⟩

/-- A faulted state takes no step (60_exceptions.md R220). -/
theorem step_faulted {s : State} {k : Fault} (h : s.fault = some k) : step s = .fault k := by
  simp [step, machineStep, h]

/-- While no action is pending the step is the CPU's (41_controller_actions.md R130). -/
theorem step_quiet {s : State} (hf : s.fault = none) (hp : s.pending = none) : step s = cpuStep s := by
  simp [step, machineStep, liveStep, hf, hp]

/-- A queued answer is the controller's step (R130). -/
theorem step_ctrl {s : State} {a : Action} {r : Response} {ts : List Turn} (hf : s.fault = none)
    (hp : s.pending = some a) (ht : s.turns = .ctrl r :: ts) :
    step s = .next (ctrlStep a r { s with turns := ts }) := by
  simp [step, machineStep, liveStep, busyStep, takeTurn, hf, hp, ht]

/-- A queued CPU turn is the CPU's step. -/
theorem step_cpu {s : State} {a : Action} {ts : List Turn} (hf : s.fault = none) (hp : s.pending = some a)
    (ht : s.turns = .cpu :: ts) (hr : cpuReady { s with turns := ts } = true) :
    step s = cpuStep { s with turns := ts } := by
  simp only [step, machineStep, hf, liveStep, hp, busyStep, takeTurn, ht]
  rw [← hf]
  exact if_pos hr

theorem run_add (m n : Nat) (s : State) : run (m + n) s = andThen (run m s) (run n) := by
  induction m generalizing s with
  | zero => simp [run]
  | succ m ih =>
    rw [Nat.succ_add]
    simp only [run]
    cases step s <;> simp [ih]

end Sys2Proof.Machine
end

