-- ==== Sys2Proof/Tests/Slice0.lean ====
section
/-! SUPPORT. Tests of single steps, with expected values from spec/95_test_vectors.md and the rules' examples; the well-formedness smoke
tests; decoding of written-out words; and, for each obligation with hypotheses, states that meet them. -/

namespace Sys2Proof.Tests

open Sys2Proof Sys2Proof.Machine

/-! ### Small states -/

/-- The parameters of 95_test_vectors.md's conventions (INIT_PS = 0, INIT_DIV = 0x48), with the window at 0xB8. -/
def params0 : Params :=
  { twiBase := 0xB8, initPs := 0, initDiv := 0x48, startCheck := false, pollLimit := none, fCpu := 16000000 }

/-- State RS of 95_test_vectors.md. -/
def rs : State :=
  { State.reset with
    params := params0
    ctrl := { int := false, ea := false, sta := false, sto := false, en := true }
    div := 0x48
    phase := .idle
    lifecycle := .ready }

/-- RS in another phase, with a code and no action pending. -/
def quiet (ph : Phase) (code : Byte) : State := { rs with phase := ph, code := code }

/-- RS in a phase with an action pending and the coming turns. -/
def busy (ph : Phase) (a : Action) (ts : List Turn) : State :=
  { rs with phase := ph, pending := some a, turns := ts, ctrl := { rs.ctrl with sto := decide (a = .stop) } }

/-- A state whose CPU stands at one statement. -/
def standing (t : Stmt) (s : State) : State := { s with program := [t], pos := 0 }

/-- A state inside a primitive. -/
def inside (p : PrimPoint) (s : State) : State := { s with prim := some p }

/-- The step gives a next state with a property. -/
def nextSat (o : Out) (f : State → Bool) : Bool :=
  match o with
  | .next t => f t
  | .fault _ => false
  | .refused _ => false

/-- The step ends with this fault. -/
def faults (o : Out) (k : Fault) : Bool :=
  match o with
  | .next _ => false
  | .fault j => j == k
  | .refused _ => false

/-! ### Well-formedness smoke tests: an ill-formed term for each check -/

theorem test_wf_device_too_wide : (Instr.wrreg 0x80 0 0).wellFormed = false ∧ (Instr.rdreg 0xFF 0).wellFormed = false ∧
    (Instr.wrreg 0x7F 0xFF 0xFF).wellFormed = true := by decide

theorem test_wf_word_too_wide : Stmt.wellFormed [] (.word 0x1000) = false ∧ Stmt.wellFormed [] (.word 0xFFF) = true := by decide

theorem test_wf_label_missing : programWellFormed [.goto 1] = false ∧ programWellFormed [.ifGoto .wedged 1, .label 2] = false := by
  decide

theorem test_wf_label_twice : programWellFormed [.label 1, .goto 1, .label 1] = false ∧
    programWellFormed [.label 1, .goto 1] = true := by decide

theorem test_wf_bus_width_zero : programWellFormed [.bus .read 0 0 0] = false := by decide

theorem test_wf_poll_limit_zero : Params.wellFormed { params0 with pollLimit := some 0 } = false ∧
    Params.wellFormed { params0 with pollLimit := some 1 } = true := by decide

/-! ### Decoding: words written out from 30_encoding.md R70 (bit 11 write, 10:8 offset, 7:0 value) and R73 -/

theorem test_decode_reads : decode .off 0b0000_0000_0000 = .ok .rdDiv ∧ decode .off 0b0001_0000_0000 = .ok .rdStatus ∧
    decode .off 0b0011_0000_0000 = .ok .rdData ∧ decode .off 0b0100_0000_0000 = .ok .rdCtrl := by decide

theorem test_decode_plain_writes : decode .off 0b1000_0100_1000 = .ok (.wrDiv 0x48) ∧
    decode .off 0b1001_1111_1111 = .ok (.wrStatus 0xFF) ∧ decode .off 0b1011_1010_0010 = .ok (.wrData 0xA2) := by decide

theorem test_decode_disable : decode .off 0b1100_0000_0000 = .ok (.wrCtrlDisable false false false false) ∧
    decode .mt 0b1100_1010_0000 = .ok (.wrCtrlDisable true false true false) := by decide

theorem test_decode_config : decode .off 0b1100_0000_0100 = .ok (.wrCtrlConfig false false false) ∧
    decode .mr 0b1100_0101_0100 = .ok (.wrCtrlConfig true false true) := by decide

theorem test_decode_start_stop : decode .idle 0b1100_1010_0100 = .ok (.wrCtrlStart false) ∧
    decode .busErr 0b1100_1101_0100 = .ok (.wrCtrlStop true) ∧ decode .busErr 0b1100_1111_0100 = .ok (.wrCtrlStaSto true) := by decide

theorem test_decode_tx : decode .started 0b1100_1000_0100 = .ok (.wrCtrlTx false) ∧
    decode .mt 0b1100_1100_0100 = .ok (.wrCtrlTx true) := by decide

theorem test_decode_rx : decode .mr 0b1100_1100_0100 = .ok .wrCtrlRxAck ∧ decode .mr 0b1100_1000_0100 = .ok .wrCtrlRxNack := by
  decide

theorem test_decode_illegal : decode .mrDone 0b1100_1000_0100 = .ok (.wrCtrlIllegal false false) ∧
    decode .off 0b1100_1100_0100 = .ok (.wrCtrlIllegal true false) ∧
    decode .busErr 0b1100_1010_0100 = .ok (.wrCtrlIllegal false true) := by decide

/-- 30_encoding.md R81 and REG-9, REG-10, REG-11, CLS-29: what no instruction is; the words 0x201, 0x401 and 0x1400, which R70 does not
form, are judged as log 12 says. -/
theorem test_decode_rejects : decode .off 0x200 = .error (.unmappedRegister 2) ∧ decode .off 0xF00 = .error (.unmappedRegister 7) ∧
    decode .off 0xCA5 = .error (.reservedBit 0xA5) ∧ decode .idle 0xC0C = .error (.reservedBit 0x0C) ∧
    decode .off 0x201 = .error (.unmappedRegister 2) ∧ decode .off 0x401 = .error (.notAccessWord 0x401) ∧ decode .off 0x1400 = .error (.notAccessWord 0x1400) := by decide

/-- R83 and 95_test_vectors.md P1, statement 10: membership of the masked status; a member may be a variable (log 25). -/
theorem test_cond_mem : evalCond { rs with locals := { rs.locals with st := 0x29 } }
      (.mem (.and (.var .st) (.lit 0xF8)) [.lit 0x18, .lit 0x28, .lit 0x40]) = true ∧
    evalCond { rs with locals := { rs.locals with st := 0x20 } } (.mem (.var .st) [.lit 0x18, .lit 0x28, .lit 0x40]) = false ∧
    evalCond { rs with locals := { rs.locals with st := 0x20, s := 0x20 } } (.mem (.var .st) [.var .s]) = true := by decide

/-- 30_encoding.md R80 and 95_test_vectors.md L1-8: the address bytes of 0x51. -/
theorem test_address_byte : addressByte 0x51 false = 0xA2 ∧ addressByte 0x51 true = 0xA3 := by decide

/-- The words of RDBYTE and WRBYTE under schedule S0 (RB-2, WB-3). -/
theorem test_encode_transfers : encode params0 (.rdbyte true) = [0xCC4, 0x400, 0x100, 0x300] ∧
    encode params0 (.wrbyte 0xA2) = [0xBA2, 0xC84, 0x400, 0x100] := by decide

/-! ### One step of each instruction -/

/-- REG-12: RD CTRL while a START is pending reads STA and EN. -/
theorem test_rdCtrl_busy : nextSat (exec .rdCtrl { busy .idle .start [] with ctrl := { rs.ctrl with sta := true } })
    (fun t => t.result == some 0x24) = true := by decide

/-- R110's example: PS = 1 and code = 0x18 read as 0x19. -/
theorem test_rdStatus_prescaler : nextSat (exec .rdStatus { quiet .mt 0x18 with ps := 1 }) (fun t => t.result == some 0x19) = true := by
  decide

theorem test_rdData_quiet : nextSat (exec .rdData { quiet .mrDone 0x58 with data := 0x42 }) (fun t => t.result == some 0x42) = true := by
  decide

/-- REG-14: legal while an action is pending; the value is a draw. -/
theorem test_rdData_busy : nextSat (exec .rdData (busy .idle .start [])) (fun t => t.draws == 1 && t.result.isSome) = true := by decide

theorem test_rdDiv : nextSat (exec .rdDiv rs) (fun t => t.result == some 0x48) = true := by decide

theorem test_wrDiv : nextSat (exec (.wrDiv 0xFF) rs) (fun t => t.div == 0xFF) = true := by decide

/-- REG-15. -/
theorem test_wrDiv_busy : faults (exec (.wrDiv 0) (busy .idle .start [])) (.writeWhileBusy .div) = true := by decide

/-- REG-6: bit 2 of the byte is ignored. -/
theorem test_wrStatus : nextSat (exec (.wrStatus 0x05) rs) (fun t => t.ps == 1 && statusByte t == 0xF9) = true := by decide

/-- REG-8: legal with the controller off. -/
theorem test_wrData_off : nextSat (exec (.wrData 0xA2) State.reset) (fun t => t.data == 0xA2) = true := by decide

/-- R102's example: from MT, WR CTRL 0x00 logs ABORT, gives OFF, and CTRL reads 0x00. -/
theorem test_disable_owned : nextSat (exec (.wrCtrlDisable false false false false) (quiet .mt 0x28))
    (fun t => t.busLog == [.abort] && t.phase == .off && ctrlByte t == 0x00) = true := by decide

/-- REG-21: from OFF no ABORT is logged. -/
theorem test_disable_off : nextSat (exec (.wrCtrlDisable true false false false) State.reset)
    (fun t => t.busLog == [] && ctrlByte t == 0x00) = true := by decide

/-- REG-20: from reset, WR CTRL 0x04 enables. -/
theorem test_config_enables : nextSat (exec (.wrCtrlConfig false false false) State.reset)
    (fun t => t.phase == .idle && ctrlByte t == 0x04 && statusByte t == 0xF8) = true := by decide

/-- REG-22: EA, STA and STO are stored, nothing is issued. -/
theorem test_config_stores : nextSat (exec (.wrCtrlConfig true true true) rs)
    (fun t => ctrlByte t == 0x74 && t.pending == none) = true := by decide

/-- R104's example: CTRL reads 0x24. -/
theorem test_start_command : nextSat (exec (.wrCtrlStart false) rs)
    (fun t => ctrlByte t == 0x24 && t.pending == some .start && statusByte t == 0xF8) = true := by decide

/-- R105's example: CTRL reads 0x14. -/
theorem test_stop_command : nextSat (exec (.wrCtrlStop false) (quiet .mt 0x28))
    (fun t => ctrlByte t == 0x14 && t.pending == some .stop) = true := by decide

/-- CLS-12: a STOP is legal in BUSERR. -/
theorem test_stop_command_busErr : nextSat (exec (.wrCtrlStop false) (quiet .busErr 0x00)) (fun t => t.pending == some .stop) = true := by
  decide

/-- FLT-2, FLT-3: the busy check comes first. -/
theorem test_staSto : faults (exec (.wrCtrlStaSto false) rs) .startStopTogether = true ∧
    faults (exec (.wrCtrlStaSto false) (busy .idle .start [])) (.writeWhileBusy .ctrl) = true := by decide

/-- R106's example: DATA 0xA2 goes out, CTRL reads 0x04. -/
theorem test_tx_command : nextSat (exec (.wrCtrlTx false) { quiet .started 0x08 with data := 0xA2 })
    (fun t => t.pending == some (.tx 0xA2) && ctrlByte t == 0x04) = true := by decide

/-- R107's example: CTRL reads 0x44. -/
theorem test_rxAck_command : nextSat (exec .wrCtrlRxAck (quiet .mr 0x40))
    (fun t => t.pending == some (.rx true) && ctrlByte t == 0x44) = true := by decide

/-- R108's example: CTRL reads 0x04, also when EA was 1. -/
theorem test_rxNack_command : nextSat (exec .wrCtrlRxNack { quiet .mr 0x50 with ctrl := { rs.ctrl with ea := true } })
    (fun t => t.pending == some (.rx false) && ctrlByte t == 0x04) = true := by decide

/-- CLS-22 and CLS-25: OFF is reported as IDLE. -/
theorem test_illegal : faults (exec (.wrCtrlIllegal false false) State.reset) (.illegalCommand .idle) = true ∧
    faults (exec (.wrCtrlIllegal false false) (quiet .mrDone 0x58)) (.illegalCommand .mrDone) = true := by decide

/-- LC-8: INIT's first access writes INIT_PS. -/
theorem test_init_first : nextSat (exec .init { State.reset with params := { params0 with initPs := 3 } })
    (fun t => statusByte t == 0xFB && t.prim == some .initDiv) = true := by decide

/-- LC-12: INIT while wedged. -/
theorem test_init_wedged : faults (exec .init { busy .idle .start [] with wedged := true, txnOpen := true })
    (.lifecycleViolation .init) = true := by decide

/-- LC-2: CLOSE from reset. -/
theorem test_close_reset : nextSat (exec .close State.reset)
    (fun t => t.lifecycle == .closed && t.busLog == [] && t.phase == .off) = true := by decide

/-- LC-11: CLOSE while wedged aborts the pending action. -/
theorem test_close_wedged : nextSat (exec .close { busy .idle .start [] with wedged := true, txnOpen := true })
    (fun t => t.busLog == [.abort] && t.pending == none && !t.wedged && !t.txnOpen) = true := by decide

/-- LC-1: START from reset. -/
theorem test_start_uninit : faults (exec .start State.reset) (.lifecycleViolation .start) = true := by decide

/-- SS-9: a repeated START. -/
theorem test_start_repeated : nextSat (exec .start (quiet .started 0x08))
    (fun t => t.pending == some .start && t.phase == .started && t.prim == some .startPoll) = true := by decide

/-- SS-10: CTRL reads 0x14 after STOP's first access. -/
theorem test_stop : nextSat (exec .stop rs) (fun t => ctrlByte t == 0x14 && t.prim == some .stopPoll) = true := by decide

/-- SS-8: the poll that sees STO cleared ends STOP. -/
theorem test_stop_poll : nextSat (step (inside .stopPoll { rs with txnOpen := true }))
    (fun t => t.prim == none && !t.txnOpen && t.ret == some .unit) = true := by decide

/-- WB-12: DATA is written first. -/
theorem test_wrbyte_first : nextSat (exec (.wrbyte 0x55) rs) (fun t => t.data == 0x55 && t.prim == some .wrbyteCtrl) = true := by decide

/-- WB-15: STATUS 0x1A is accepted. -/
theorem test_wrbyte_status : nextSat (step (inside .wrbyteStatus { quiet .mt 0x18 with ps := 2 }))
    (fun t => t.locals.st == 0x1A && t.ret == some (.bool true)) = true := by decide

/-- RB-8. -/
theorem test_rdbyte_done : faults (exec (.rdbyte false) (quiet .mrDone 0x58)) (.illegalCommand .mrDone) = true := by decide

/-- RB-3: the last access reads DATA. -/
theorem test_rdbyte_data : nextSat (step (inside .rdbyteData { quiet .mrDone 0x58 with data := 0x42 }))
    (fun t => t.ret == some (.read true (some 0x42)) && t.locals.v == 0x42) = true := by decide

/-- CT-4. -/
theorem test_wrreg_badDevice : faults (exec (.wrreg 0x80 0 0) rs) (.badDeviceAddress 0x80) = true := by decide

/-- R203, L1-6: after an address NACK the next call of the contract is `stop()`. -/
theorem test_wrreg_abort : nextSat (step { inside .wrbyteStatus (quiet .mtNacked 0x20) with contract := some (.wrreg 0x51 0 0x42 .addr) })
    (fun t => t.contract == some (.wrreg 0x51 0 0x42 .abort)) = true := by decide

/-- R201: the address byte of the read half is 0xA3. -/
theorem test_rdreg_readAddress : nextSat (step { quiet .started 0x10 with contract := some (.rdreg 0x51 0 .addrR) })
    (fun t => t.data == 0xA3) = true := by decide

/-! ### Completions, the poll, faults -/

/-- CMP-2, CMP-8, CMP-9. -/
theorem test_completions : nextSat (step (busy .mt .start [.ctrl .startOk])) (fun t => t.code == 0x10 && t.busLog == [.rstart]) = true ∧
    nextSat (step (busy .started (.tx 0xA3) [.ctrl (.txAck true)])) (fun t => t.code == 0x40 && t.phase == .mr) = true ∧
    nextSat (step (busy .started (.tx 0xA3) [.ctrl (.txAck false)])) (fun t => t.code == 0x48 && t.phase == .mrNacked) = true := by
  decide

/-- CMP-15, CMP-17. -/
theorem test_completions_data_kept : nextSat (step { busy .mr (.rx true) [.ctrl .busErr] with data := 0x11 })
      (fun t => t.data == 0x11 && t.code == 0x00 && t.ctrl.int) = true ∧
    nextSat (step (busy .idle .stop [.ctrl .stopOk])) (fun t => t.busLog == [] && t.phase == .idle && !t.ctrl.int) = true := by decide

/-- CMP-20: an answer that is not admitted is not offered; the model reads it as Hold. -/
theorem test_not_admitted : nextSat (step (busy .mt .stop [.ctrl .busErr])) (fun t => t.pending == some .stop) = true := by decide

/-- SS-12 and R171: the last read POLL_LIMIT allows. -/
theorem test_poll_limit : nextSat
    (step (inside .stopPoll { busy .mt .stop [.cpu] with params := { params0 with pollLimit := some 2 }, polls := 1 }))
    (fun t => t.wedged && t.ret == some .busTimeout && t.pending == some .stop) = true := by decide

/-- REG-19: a 16-bit read at offset 0. -/
theorem test_wide_access : faults (step (standing (.bus .read 0xB8 2 0) rs)) .wideAccess = true := by decide

/-- WB-1, WB-2, RB-1, L1-10. -/
theorem test_validation : writeOk 0x1B = true ∧ writeOk 0x43 = true ∧ writeOk 0x21 = false ∧ writeOk 0xFB = false ∧
    readOk 0x5B = true ∧ readOk 0x18 = false ∧ classifyWrite 0x20 = .addressNotAcknowledged ∧
    classifyWrite 0x30 = .dataNotAcknowledged ∧ decodeStatus 0x5B = .dataRxNack ∧ decodeStatus 0x60 = .other 0x60 := by decide

/-- R266's example: 16 MHz, DIV 0x48 and PS 0 give 100 kHz. -/
theorem test_scl : sclFrequency rs = 100000 := by decide

/-- The host's placing of a word: the next step runs it. -/
theorem test_withFetchWord : nextSat (step ((State.reset).withFetchWord 16 0x848)) (fun t => t.div == 0x48) = true ∧
    decodeTableWord 16 0x848 = some (.wrDiv 0x48) := by decide

/-! ### Witnesses: for each obligation with hypotheses, states and operands that meet them, each clause at a boundary value -/

/-- A busy state of 95_test_vectors.md meets the hardware invariant. -/
theorem busy_hardwareInv {ph : Phase} {a : Action} {ts : List Turn} (h : actionPhase a ph = true) (hph : ph ≠ .off) :
    HardwareInv (busy ph a ts) where
  off_iff_disabled := by simp [offIffDisabled, busy, rs, hph]
  pending_consistent := by
    intro b hb
    cases hb
    exact ⟨rfl, rfl, h⟩
  code_fits_phase := fun hp => absurd hp (by simp [busy])
  stop_requested := fun hp => by simpa [busy] using hp
  code_low_bits_zero := by simp [codeLowBitsZero, busy, rs, State.reset]
  ctrl_reserved_zero := by
    show ctrlByte { rs with ctrl := { rs.ctrl with sto := decide (a = .stop) } } &&& 0x0B = 0
    cases decide (a = .stop) <;> decide

/-- A state inside a primitive's wait, with a poll limit. -/
def waiting (p : PrimPoint) (limit : Option Nat) (s : State) : State :=
  { s with prim := some p, params := { s.params with pollLimit := limit } }

theorem waiting_hardwareInv {p : PrimPoint} {limit : Option Nat} {s : State} (h : HardwareInv s) :
    HardwareInv (waiting p limit s) := hardwareInv_of_sameHardware (s := s) rfl h

/-- A state inside a contract call. -/
def within (c : Contract) (s : State) : State := { s with contract := some c }

theorem within_hardwareInv {c : Contract} {s : State} (h : HardwareInv s) : HardwareInv (within c s) :=
  hardwareInv_of_sameHardware (s := s) rfl h

/-- A `writeRegister` whose value byte is not acknowledged, with polls and a hold before some answers. -/
def nackSchedule : List (List Turn × Response) :=
  [([.cpu], .startOk), ([], .txAck true), ([.cpu, .ctrl .hold], .txAck true), ([], .txAck false), ([.ctrl .hold], .stopOk)]

/-- A `readRegister` whose reception ends in a bus error. -/
def busErrorSchedule : List (List Turn × Response) :=
  [([], .startOk), ([], .txAck true), ([], .txAck true), ([.cpu], .startOk), ([], .txAck true), ([.cpu, .cpu], .busErr), ([], .stopOk)]

/-- A CPU at one call between primitives, with the coming turns. -/
def calling (c : Call) (ts : List Turn) (s : State) : State := { s with program := [.call c], pos := 0, turns := ts }

theorem witness_ReadStatusReturnsCodeAndPrescaler : codeLowBitsZero { quiet .mr 0x50 with ps := 3 } := by decide

theorem witness_ReadDataAndDivReturnTheRegister : rs.pending = none ∧ (busy .mr (.rx true) []).pending ≠ none := by decide

theorem witness_PlainWritesStoreOrFaultBusy : State.reset.pending = none ∧ (busy .idle .start []).pending ≠ none := by decide

theorem witness_ConfigStoresAndEnables : State.reset.pending = none ∧ State.reset.phase = .off ∧ rs.pending = none ∧ rs.phase ≠ .off ∧
    (busy .mt .stop []).pending ≠ none := by decide

theorem witness_StartCommandIssuesStart : (rs.pending = none ∧ rs.phase ≠ .busErr) ∧ (busy .idle .start []).pending ≠ none ∧
    ((quiet .busErr 0).pending = none ∧ (quiet .busErr 0).phase = .busErr) := by decide

theorem witness_StopCommandIssuesStop : State.reset.pending = none ∧ (busy .idle .start []).pending ≠ none := by decide

theorem witness_TransmitCommandIssuesTx : ((quiet .started 0x08).phase = .started ∧ (quiet .started 0x08).pending = none) ∧
    ((quiet .mt 0x18).phase = .mt ∧ (quiet .mt 0x18).pending = none) ∧
    ((busy .mt (.tx 0) []).phase = .mt ∧ (busy .mt (.tx 0) []).pending ≠ none) := by decide

theorem witness_ReceiveCommandsIssueRx : ((quiet .mr 0x40).phase = .mr ∧ (quiet .mr 0x40).pending = none) ∧
    ((busy .mr (.rx false) []).phase = .mr ∧ (busy .mr (.rx false) []).pending ≠ none) := by decide

/-- A CPU at one word between primitives. -/
def atWord (w : Word) (s : State) : State := standing (.word w) s

theorem witness_FaultingCtrlBytesFault_busy : ∃ s : State, atBoundary s ∧
    s.program[s.pos]? = some (.word (writeWord .ctrl 0xB4)) ∧ ((0xB4 : Byte) &&& 0x0B = 0 ∧ (0xB4 : Byte).getLsbD 2 = true) ∧
    ∃ a ts, s.pending = some a ∧ s.turns = .cpu :: ts :=
  ⟨atWord (writeWord .ctrl 0xB4) (busy .idle .start [.cpu]), by decide, by decide, by decide, .start, [], rfl, rfl⟩

theorem witness_FaultingCtrlBytesFault_quiet :
    (∃ s : State, atBoundary s ∧ s.program[s.pos]? = some (.word (writeWord .ctrl 0xF4)) ∧ s.pending = none ∧
      (0xF4 : Byte) &&& 0xBF = 0xB4) ∧
    (∃ s : State, atBoundary s ∧ s.program[s.pos]? = some (.word (writeWord .ctrl 0xC4)) ∧ s.pending = none ∧
      s.phase ∉ [.started, .mt, .mr] ∧ (0xC4 : Byte) &&& 0xBF = 0x84) ∧
    (∃ s : State, atBoundary s ∧ s.program[s.pos]? = some (.word (writeWord .ctrl 0xE4)) ∧ s.pending = none ∧
      s.phase = .busErr ∧ (0xE4 : Byte) &&& 0xBF = 0xA4) :=
  ⟨⟨atWord (writeWord .ctrl 0xF4) rs, by decide⟩, ⟨atWord (writeWord .ctrl 0xC4) State.reset, by decide⟩,
    ⟨atWord (writeWord .ctrl 0xE4) (quiet .busErr 0), by decide⟩⟩

theorem witness_ReservedBitsFaultFirst :
    (∃ s : State, atBoundary s ∧ s.program[s.pos]? = some (.word (writeWord .ctrl 0x08)) ∧ s.pending = none ∧
      (0x08 : Byte).getLsbD 3 = true) ∧
    (∃ s : State, atBoundary s ∧ s.program[s.pos]? = some (.word (writeWord .ctrl 0x01)) ∧ (∃ ts, s.turns = .cpu :: ts) ∧
      (0x01 : Byte).getLsbD 0 = true) ∧ (0x02 : Byte).getLsbD 1 = true :=
  ⟨⟨atWord (writeWord .ctrl 0x08) rs, by decide⟩,
    ⟨atWord (writeWord .ctrl 0x01) (busy .idle .start [.cpu]), by decide, by decide, ⟨[], rfl⟩, by decide⟩, by decide⟩

theorem witness_UnmappedOffsetsFault :
    (∃ s : State, atBoundary s ∧ s.pending = none ∧ s.program[s.pos]? = some (.word (accessWord true 7 (if true then 0xFF else 0)))) ∧
    (∃ s : State, atBoundary s ∧ s.pending = none ∧ s.program[s.pos]? = some (.word (accessWord false 2 (if false then 0xFF else 0)))) :=
  ⟨⟨atWord 0xFFF rs, by decide⟩, ⟨atWord 0x200 rs, by decide⟩⟩

/-- The window is 0xB8 to 0xBF here: two bytes at either end, a fetch of its last byte, and one-byte accesses at its ends. -/
theorem witness_WideAccessesFault :
    (∃ s : State, atBoundary s ∧ s.pending = none ∧ s.program[s.pos]? = some (.bus .read 0xBF 2 0) ∧
      s.params.twiBase < 0xBF + 2 ∧ 0xBF < s.params.twiBase + 8) ∧
    (∃ s : State, atBoundary s ∧ s.pending = none ∧ s.program[s.pos]? = some (.bus .write 0xB7 2 0) ∧
      s.params.twiBase < 0xB7 + 2 ∧ 0xB7 < s.params.twiBase + 8) ∧
    (∃ s : State, atBoundary s ∧ s.pending = none ∧ s.program[s.pos]? = some (.bus .fetch 0xBF 1 0) ∧
      s.params.twiBase < 0xBF + 1 ∧ 0xBF < s.params.twiBase + 8) ∧
    (∃ s : State, atBoundary s ∧ s.pending = none ∧ s.program[s.pos]? = some (.bus .write 0xBF 1 0) ∧
      0xBF = s.params.twiBase + (7 : BitVec 3).toNat ∧ BusKind.write ≠ .fetch) ∧
    (∃ s : State, atBoundary s ∧ s.pending = none ∧ s.program[s.pos]? = some (.bus .read 0xB8 1 0) ∧
      0xB8 = s.params.twiBase + (0 : BitVec 3).toNat ∧ BusKind.read ≠ .fetch) :=
  ⟨⟨standing (.bus .read 0xBF 2 0) rs, by decide⟩, ⟨standing (.bus .write 0xB7 2 0) rs, by decide⟩,
    ⟨standing (.bus .fetch 0xBF 1 0) rs, by decide⟩, ⟨standing (.bus .write 0xBF 1 0) rs, by decide⟩,
    ⟨standing (.bus .read 0xB8 1 0) rs, by decide⟩⟩

theorem witness_TwoWriteReceiveReachesTheSameState : (quiet .mr 0x50).phase = .mr ∧ (quiet .mr 0x50).pending = none := by decide

theorem witness_StartCompletion : (busy .idle .start [.ctrl .startOk]).fault = none ∧
    (busy .idle .start [.ctrl .startOk]).pending = some .start ∧ (busy .idle .start [.ctrl .startOk]).turns = [.ctrl .startOk] := by
  decide

theorem witness_StopCompletion : (busy .mt .stop [.ctrl .stopOk]).fault = none ∧ (busy .mt .stop [.ctrl .stopOk]).pending = some .stop ∧
    (busy .mt .stop [.ctrl .stopOk]).turns = [.ctrl .stopOk] := by decide

theorem witness_TransmitCompletion : (busy .started (.tx 0xFF) [.ctrl (.txAck false)]).pending = some (.tx 0xFF) ∧
    (busy .started (.tx 0xFF) [.ctrl (.txAck false)]).turns = [.ctrl (.txAck false)] ∧
    (busy .started (.tx 0xFF) []).phase = .started ∧ (busy .mt (.tx 0) []).phase = .mt := by decide

theorem witness_ReceptionCompletion : (busy .mr (.rx true) [.ctrl (.rxByte 0xFF)]).pending = some (.rx true) ∧
    (busy .mr (.rx true) [.ctrl (.rxByte 0xFF)]).turns = [.ctrl (.rxByte 0xFF)] := by decide

theorem witness_BusErrorCompletion : (busy .mr (.rx true) [.ctrl .busErr]).pending = some (.rx true) ∧ Action.rx true ≠ .stop ∧
    (busy .mr (.rx true) [.ctrl .busErr]).turns = [.ctrl .busErr] := by decide

theorem witness_HoldChangesNothing : (busy .mt .stop [.ctrl .hold]).pending = some .stop ∧
    (busy .mt .stop [.ctrl .hold]).turns = [.ctrl .hold] := by decide

/-- An admitted answer, one that is not, and a quiet state whose step goes on. -/
theorem witness_OnlyAdmittedAnswersComplete : admitted .stop .stopOk = true ∧ admitted .stop .busErr = false ∧
    (busy .mt .stop [.ctrl .busErr]).turns = [.ctrl .busErr] ∧
    nextSat (step (atWord (readWord .ctrl) rs)) (fun t => t.turns == []) = true := by decide

theorem witness_IntSetExactlyByCompletions : HardwareInv (busy .mr (.rx true) [.ctrl (.rxByte 1)]) ∧
    step (busy .mr (.rx true) [.ctrl (.rxByte 1)]) =
      .next (ctrlStep (.rx true) (.rxByte 1) { busy .mr (.rx true) [.ctrl (.rxByte 1)] with turns := [] }) :=
  ⟨busy_hardwareInv rfl (by decide), rfl⟩

theorem witness_InitConfiguresAndEnables : (∃ s : State, s.txnOpen = true) ∧
    (∃ s : State, s.txnOpen = false ∧ s.wedged = false ∧ s.pending = none ∧ atBoundary s ∧
      s.program[s.pos]? = some (.call .init)) ∧
    (∃ s : State, s.txnOpen = false ∧ s.wedged = false ∧ s.pending ≠ none) :=
  ⟨⟨{ rs with txnOpen := true }, by decide⟩, ⟨standing (.call .init) State.reset, by decide⟩,
    ⟨busy .mt .stop [], by decide⟩⟩

theorem witness_CloseDisablesOrFaults : (∃ s : State, s.contract = none ∧ s.txnOpen = true ∧ s.wedged = false) ∧
    (∃ s : State, s.contract = none ∧ s.txnOpen = false) ∧ (∃ s : State, s.contract = none ∧ s.txnOpen = true ∧ s.wedged = true) :=
  ⟨⟨{ rs with txnOpen := true }, by decide⟩, ⟨rs, by decide⟩, ⟨{ rs with txnOpen := true, wedged := true }, by decide⟩⟩

theorem witness_LifecycleGuardFaults : State.reset.lifecycle ≠ .ready ∧ ({ rs with wedged := true } : State).wedged = true := by decide

theorem witness_RepeatedCloseThenInitIsInit : ∃ s : State, atBoundary s ∧ s.pending = none ∧ s.txnOpen = false ∧ s.wedged = false ∧
    s.phase = .off ∧ s.pos = 0 ∧ s.program = [.call .init] ∧ nextSat (run 3 s) (fun t => t.lifecycle == .ready) = true :=
  ⟨standing (.call .init) { State.reset with params := params0 }, by decide⟩

theorem witness_TransactionPrimitivesBegin : driverReady rs ∧ rs.pending = none ∧ rs.phase ≠ .busErr ∧
    driverReady (quiet .busErr 0) ∧ (quiet .busErr 0).phase = .busErr ∧ driverReady (busy .mt .stop []) ∧
    (busy .mt .stop []).pending ≠ none := by decide

theorem witness_StartCompletesUnderEverySchedule : ∃ (s : State) (ts : List Turn), atBoundary s ∧ driverReady s ∧ s.pending = none ∧
    s.phase ≠ .busErr ∧ s.program[s.pos]? = some (.call .start) ∧ s.params.pollLimit = none ∧ idleTurns ts = true ∧
    s.turns = ts ++ .ctrl .startOk :: [.cpu] :=
  ⟨calling .start [.cpu, .ctrl .hold, .ctrl .startOk, .cpu] rs, [.cpu, .ctrl .hold], by decide⟩

theorem witness_StopCompletesUnderEverySchedule : ∃ (s : State) (ts : List Turn), atBoundary s ∧ driverReady s ∧ s.pending = none ∧
    s.program[s.pos]? = some (.call .stop) ∧ s.params.pollLimit = none ∧ idleTurns ts = true ∧ s.turns = ts ++ .ctrl .stopOk :: [] :=
  ⟨calling .stop [.ctrl .hold, .cpu, .ctrl .stopOk] (quiet .busErr 0), [.ctrl .hold, .cpu], by decide⟩

theorem witness_ByteTransfersBegin : driverReady (quiet .mr 0x40) ∧ (quiet .mr 0x40).pending = none ∧
    (quiet .mr 0x40).phase ∈ [.started, .mt, .mr] ∧ (quiet .started 0x08).phase ∈ [.started, .mt, .mr] ∧
    driverReady (busy .mr (.rx true) []) ∧ (busy .mr (.rx true) []).pending ≠ none := by decide

theorem witness_WriteByteReportsTheAcknowledge :
    (∃ (s : State) (ts : List Turn), atBoundary s ∧ driverReady s ∧ s.pending = none ∧ s.phase = .started ∧
      s.program[s.pos]? = some (.call (.wrbyte (.lit 0xFF))) ∧ s.params.pollLimit = none ∧ idleTurns ts = true ∧
      s.turns = ts ++ .ctrl (.txAck true) :: []) ∧
    (∃ (s : State) (ts : List Turn), atBoundary s ∧ driverReady s ∧ s.pending = none ∧ s.phase = .mt ∧
      s.program[s.pos]? = some (.call (.wrbyte (.lit 0))) ∧ s.params.pollLimit = none ∧ idleTurns ts = true ∧
      s.turns = ts ++ .ctrl (.txAck false) :: []) :=
  ⟨⟨calling (.wrbyte (.lit 0xFF)) [.cpu, .ctrl (.txAck true)] (quiet .started 0x08), [.cpu], by decide⟩,
    ⟨calling (.wrbyte (.lit 0)) [.ctrl (.txAck false)] (quiet .mt 0x28), [], by decide⟩⟩

theorem witness_ReadByteReturnsTheReceivedByte : ∃ (s : State) (ts : List Turn), atBoundary s ∧ driverReady s ∧ s.pending = none ∧
    s.phase = .mr ∧ s.program[s.pos]? = some (.call (.rdbyte true)) ∧ s.params.pollLimit = none ∧ idleTurns ts = true ∧
    s.turns = ts ++ .ctrl (.rxByte 0xFF) :: [] :=
  ⟨calling (.rdbyte true) [.cpu, .ctrl (.rxByte 0xFF)] (quiet .mr 0x40), [.cpu], by decide⟩

theorem witness_BusErrorFailsTheByte :
    (∃ s : State, atBoundary s ∧ driverReady s ∧ s.pending = none ∧ s.phase = .mt ∧ s.params.pollLimit = none ∧
      s.turns = .ctrl .busErr :: [] ∧ s.program[s.pos]? = some (.call (.wrbyte (.lit 0)))) ∧
    (∃ s : State, atBoundary s ∧ driverReady s ∧ s.pending = none ∧ s.phase = .mr ∧ s.params.pollLimit = none ∧
      s.turns = .ctrl .busErr :: [] ∧ s.program[s.pos]? = some (.call (.rdbyte false))) :=
  ⟨⟨calling (.wrbyte (.lit 0)) [.ctrl .busErr] (quiet .mt 0x28), by decide⟩,
    ⟨calling (.rdbyte false) [.ctrl .busErr] (quiet .mr 0x40), by decide⟩⟩

theorem witness_TransfersOutsideTheirRole :
    (∃ s : State, atBoundary s ∧ driverReady s ∧ s.pending = none ∧ s.params.pollLimit = none ∧ s.phase = .mr ∧
      s.program[s.pos]? = some (.call (.wrbyte (.lit 0x55))) ∧ s.turns = .ctrl (.rxByte 0x99) :: []) ∧
    (∃ s : State, atBoundary s ∧ driverReady s ∧ s.pending = none ∧ s.params.pollLimit = none ∧ s.phase = .started ∧
      s.program[s.pos]? = some (.call (.rdbyte true)) ∧ s.turns = .ctrl (.txAck false) :: []) :=
  ⟨⟨calling (.wrbyte (.lit 0x55)) [.ctrl (.rxByte 0x99)] (quiet .mr 0x40), by decide⟩,
    ⟨calling (.rdbyte true) [.ctrl (.txAck false)] (quiet .started 0x08), by decide⟩⟩

theorem witness_TransfersInTerminalPhasesFault :
    (∃ s : State, atBoundary s ∧ driverReady s ∧ s.pending = none ∧ s.phase = .off ∧
      s.program[s.pos]? = some (.call (.wrbyte (.lit 0)))) ∧
    (∃ s : State, atBoundary s ∧ driverReady s ∧ s.pending = none ∧ s.phase = .busErr ∧ s.phase ∉ [.started, .mt, .mr]) :=
  ⟨⟨calling (.wrbyte (.lit 0)) [] (quiet .off 0xF8), by decide⟩, ⟨quiet .busErr 0, by decide⟩⟩

theorem witness_BadDeviceAddressFaults : (0x80 : Byte).toNat > 0x7F ∧ (0xFF : Byte).toNat > 0x7F := by decide

theorem witness_ContractCallsBeginWithStart : (0x7F : Byte).toNat ≤ 0x7F ∧ (driverReady rs ∧ rs.pending = none ∧ rs.phase ≠ .busErr) ∧
    ¬driverReady State.reset ∧ (driverReady (busy .mt .stop []) ∧ (busy .mt .stop []).pending ≠ none) ∧
    (driverReady (quiet .busErr 0) ∧ (quiet .busErr 0).phase = .busErr) := by decide

theorem witness_WriteRegisterPutsItsTransactionOnTheBus : ∃ s : State, readyState s ∧ (0x7F : Byte).toNat ≤ 0x7F ∧
    s.params.pollLimit = none ∧ s.program[s.pos]? = some (.call (.wrreg (.lit 0x7F) (.lit 0xFF) (.lit 0))) ∧
    (∀ ts ∈ [[], [.cpu], [.ctrl .hold], [], [.cpu, .cpu]], idleTurns ts = true) ∧
    s.turns = thenAnswer [] .startOk (thenAnswer [.cpu] (.txAck true) (thenAnswer [.ctrl .hold] (.txAck true)
      (thenAnswer [] (.txAck true) (thenAnswer [.cpu, .cpu] .stopOk [])))) :=
  ⟨calling (.wrreg (.lit 0x7F) (.lit 0xFF) (.lit 0)) [.ctrl .startOk, .cpu, .ctrl (.txAck true), .ctrl .hold, .ctrl (.txAck true),
    .ctrl (.txAck true), .cpu, .cpu, .ctrl .stopOk] rs, by decide⟩

/-- A NACK of the value byte with polls and a hold before the answers, and a bus error in the reception. -/
theorem witness_ContractCallsAbortOnAFailedByte :
    (∃ s : State, readyState s ∧ (0x51 : Byte).toNat ≤ 0x7F ∧ s.params.pollLimit = none ∧
      (∀ q ∈ nackSchedule, idleTurns q.1 = true) ∧ s.turns = answerTurns nackSchedule [] ∧
      s.program[s.pos]? = some (.call (.wrreg (.lit 0x51) (.lit 0) (.lit 0x42))) ∧
      nackSchedule.map Prod.snd = .startOk :: ([.txAck true, .txAck true, .txAck false] ++ [.stopOk])) ∧
    (∃ s : State, readyState s ∧ (0x7F : Byte).toNat ≤ 0x7F ∧ s.params.pollLimit = none ∧
      (∀ q ∈ busErrorSchedule, idleTurns q.1 = true) ∧ s.turns = answerTurns busErrorSchedule [] ∧
      s.program[s.pos]? = some (.call (.rdreg (.lit 0x7F) (.lit 0xFF))) ∧
      busErrorSchedule.map Prod.snd = .startOk :: ([.txAck true, .txAck true, .startOk, .txAck true, .busErr] ++ [.stopOk])) :=
  ⟨⟨calling (.wrreg (.lit 0x51) (.lit 0) (.lit 0x42)) (answerTurns nackSchedule []) rs, by decide⟩,
    ⟨calling (.rdreg (.lit 0x7F) (.lit 0xFF)) (answerTurns busErrorSchedule []) rs, by decide⟩⟩

theorem witness_ReadRegisterReturnsTheByte : ∃ s : State, readyState s ∧ (0 : Byte).toNat ≤ 0x7F ∧ s.params.pollLimit = none ∧
    s.program[s.pos]? = some (.call (.rdreg (.lit 0) (.lit 0xFF))) ∧
    (∀ ts ∈ [[], [], [], [], [], [.cpu], []], idleTurns ts = true) ∧
    s.turns = thenAnswer [] .startOk (thenAnswer [] (.txAck true) (thenAnswer [] (.txAck true) (thenAnswer [] .startOk
      (thenAnswer [] (.txAck true) (thenAnswer [.cpu] (.rxByte 0x5A) (thenAnswer [] .stopOk [])))))) :=
  ⟨calling (.rdreg (.lit 0) (.lit 0xFF)) [.ctrl .startOk, .ctrl (.txAck true), .ctrl (.txAck true), .ctrl .startOk,
    .ctrl (.txAck true), .cpu, .ctrl (.rxByte 0x5A), .ctrl .stopOk] rs, by decide⟩

theorem witness_RegisterRoundTrip : ∃ (s : State) (d : Slave), readyState s ∧ s.params.pollLimit = none ∧ d.present = true ∧
    d.addr = 0x51 ∧ Cells.wf d.regs = true ∧
    s.program[s.pos]? = some (.call (.wrreg (.lit ((0x51 : BitVec 7).setWidth 8)) (.lit 0) (.lit 0x42))) ∧
    s.program[s.pos + 1]? = some (.call (.rdreg (.lit ((0x51 : BitVec 7).setWidth 8)) (.lit 0))) :=
  ⟨{ rs with program := [.call (.wrreg (.lit 0x51) (.lit 0) (.lit 0x42)), .call (.rdreg (.lit 0x51) (.lit 0))] },
    Slave.fresh 0x51 true, by decide⟩

/-- A wait in `stop()` with one read allowed, one in `start()` with three, and one inside each contract call. -/
theorem witness_BoundedWaitGivesUp :
    (∃ s : State, HardwareInv s ∧ s.fault = none ∧ s.contract = none ∧ s.prim = some .stopPoll ∧ s.pending = some .stop ∧
      s.polls = 0 ∧ s.params.pollLimit = some 1 ∧ s.turns = List.replicate 1 .cpu ++ []) ∧
    (∃ s : State, HardwareInv s ∧ s.fault = none ∧ s.contract = none ∧ s.prim = some .startPoll ∧ s.pending = some .start ∧
      PrimPoint.startPoll ∈ [PrimPoint.startPoll, .wrbytePoll, .rdbytePoll] ∧ Action.start ≠ .stop ∧
      s.polls = 0 ∧ s.params.pollLimit = some 3 ∧ s.turns = List.replicate 3 .cpu ++ []) ∧
    (∃ s : State, HardwareInv s ∧ s.fault = none ∧ s.contract = some (.wrreg 0x51 0 0 .stop) ∧ s.prim = some .stopPoll ∧
      s.pending = some .stop ∧ s.polls = 0 ∧ s.params.pollLimit = some 1 ∧ s.turns = List.replicate 1 .cpu ++ []) ∧
    (∃ s : State, HardwareInv s ∧ s.fault = none ∧ s.contract = some (.rdreg 0x51 0 .read) ∧ s.prim = some .rdbytePoll ∧
      s.pending = some (.rx false) ∧ s.polls = 0 ∧ s.params.pollLimit = some 2 ∧ s.turns = List.replicate 2 .cpu ++ []) :=
  ⟨⟨waiting .stopPoll (some 1) (busy .mt .stop [.cpu]), waiting_hardwareInv (busy_hardwareInv rfl (by decide)), by decide⟩,
    ⟨waiting .startPoll (some 3) (busy .idle .start [.cpu, .cpu, .cpu]), waiting_hardwareInv (busy_hardwareInv rfl (by decide)),
      by decide⟩,
    ⟨within (.wrreg 0x51 0 0 .stop) (waiting .stopPoll (some 1) (busy .mt .stop [.cpu])),
      within_hardwareInv (waiting_hardwareInv (busy_hardwareInv rfl (by decide))), by decide⟩,
    ⟨within (.rdreg 0x51 0 .read) (waiting .rdbytePoll (some 2) (busy .mr (.rx false) [.cpu, .cpu])),
      within_hardwareInv (waiting_hardwareInv (busy_hardwareInv rfl (by decide))), by decide⟩⟩

theorem witness_HoldForeverHangs : ∃ (s : State) (ts : List Turn), HardwareInv s ∧ s.fault = none ∧ s.prim = some .wrbytePoll ∧
    s.pending = some (.tx 0) ∧ PrimPoint.wrbytePoll ∈ [PrimPoint.startPoll, .wrbytePoll, .rdbytePoll] ∧ Action.tx 0 ≠ .stop ∧
    s.params.pollLimit = none ∧ idleTurns ts = true ∧ s.turns = ts ++ [] :=
  ⟨waiting .wrbytePoll none (busy .mt (.tx 0) [.cpu, .ctrl .hold]), [.cpu, .ctrl .hold],
    waiting_hardwareInv (busy_hardwareInv rfl (by decide)), by decide⟩

theorem witness_WaitOnIntAfterStopHangs : ∃ s : State, atBoundary s ∧ s.pending = none ∧ s.ctrl.int = false ∧
    s.params.pollLimit = none ∧ s.program[s.pos]? = some (.waitSet 0x80) := ⟨standing (.waitSet 0x80) rs, by decide⟩

/-- A state of the hardware invariant with a step. -/
theorem witness_StepKeepsHardwareInv : HardwareInv (busy .idle .start [.ctrl .startOk]) ∧
    nextSat (step (busy .idle .start [.ctrl .startOk])) (fun t => t.phase == .started) = true :=
  ⟨busy_hardwareInv rfl (by decide), by decide⟩

/-- A state of both invariants, inside `start()`, with a step. -/
theorem witness_StepKeepsDriverInv : ∃ s : State, HardwareInv s ∧ DriverInv s ∧
    nextSat (step s) (fun t => t.prim == some .startPoll) = true :=
  ⟨waiting .startPoll none (busy .idle .start [.ctrl .startOk]), waiting_hardwareInv (busy_hardwareInv rfl (by decide)),
    ⟨by decide, .inl rfl⟩, by decide⟩

theorem witness_StepKeepsParametersAndProgram : nextSat (step (atWord (writeWord .div 1) rs)) (fun t => t.div == 1) = true := by decide

/-- A step that adds an event by a completion, one by a disable of a held bus with nothing pending, and one that adds none. -/
theorem witness_BusLogOnlyGrows : nextSat (step (atWord 0xC00 (quiet .mt 0x28))) (fun t => t.busLog == [.abort] && t.phase == .off) = true ∧
    nextSat (step (busy .mt .stop [.ctrl .stopOk])) (fun t => t.busLog == [.stop]) = true ∧
    nextSat (step (busy .mt .stop [.ctrl .hold])) (fun t => t.busLog == []) = true := by decide

theorem witness_StepKeepsLocalsWf : localsWf rs ∧
    nextSat (step (standing (.assign (.user 3) (.lit 7)) rs)) (fun t => t.locals.user == [(3, 7)]) = true := by decide

theorem witness_FaultsAreStickyAndPrecise : ({ rs with fault := some .wideAccess } : State).fault = some .wideAccess ∧
    rs.fault = none ∧ faults (step (atWord 0x200 rs)) (.unmappedRegister 2) = true := by decide

theorem witness_DecodeEncode : encodeAccess (.wrCtrlTx true) = some 0xCC4 ∧ decodesIn (.wrCtrlTx true) .mt = true ∧
    encodeAccess (.wrCtrlIllegal true true) = some 0xCE4 ∧ decodesIn (.wrCtrlIllegal true true) .busErr = true := by decide

theorem witness_EncodeDecode : decode .mr 0xCC4 = .ok .wrCtrlRxAck ∧ decode .off 0xFFF = .error (.unmappedRegister 7) := by decide

theorem witness_StepRunsTheDecodedInstruction :
    (∃ s : State, atBoundary s ∧ s.pending = none ∧ s.program[s.pos]? = some (.word 0x848) ∧
      decode s.phase 0x848 = .ok (.wrDiv 0x48)) ∧
    (∃ s : State, atBoundary s ∧ s.pending ≠ none ∧ s.turns = .cpu :: [] ∧ s.program[s.pos]? = some (.word 0xC00) ∧
      decode s.phase 0xC00 = .ok (.wrCtrlDisable false false false false)) ∧
    (∃ s : State, atBoundary s ∧ s.pending = none ∧ s.program[s.pos]? = some (.call .start)) :=
  ⟨⟨atWord 0x848 rs, by decide⟩, ⟨atWord 0xC00 (busy .idle .start [.cpu]), by decide⟩, ⟨standing (.call .start) rs, by decide⟩⟩

end Sys2Proof.Tests
end

/-! PROOFS. What every step keeps of the state: the hardware invariant (10_state.md R34), the growth of the bus log (R31), the
parameters, the program and the fault (R37, 60_exceptions.md R220), and what holds at reset (R36). -/

namespace Sys2Proof.Machine

/-! ### What the class of a CTRL write says of its byte -/

/-- What R72 and R73 say of a byte, the phase and the pending action when the write has a class that takes effect. -/
def classMeans (v : Byte) (ph : Phase) (p : Option Action) : CtrlClass → Prop
  | .disable => byteBit v 2 = false
  | .config => p = none ∧ byteBit v 2 = true
  | .start => p = none ∧ byteBit v 2 = true ∧ byteBit v 7 = true ∧ ph ≠ .busErr
  | .stop => p = none ∧ byteBit v 2 = true ∧ byteBit v 7 = true ∧ byteBit v 4 = true
  | .tx => p = none ∧ byteBit v 2 = true ∧ byteBit v 7 = true ∧ (ph = .started ∨ ph = .mt)
  | .rx _ => p = none ∧ byteBit v 2 = true ∧ byteBit v 7 = true ∧ ph = .mr
  | .reserved | .busy | .staSto | .illegal _ => True

theorem classifyContinue_means {v : Byte} {ph : Phase} (hen : byteBit v 2 = true) (hint : byteBit v 7 = true) :
    classMeans v ph none (classifyContinue v ph) := by
  cases ph <;> simp only [classifyContinue, commandPhase, classMeans, hen, hint] <;> decide

theorem classifyCtrl_means (v : Byte) (ph : Phase) (p : Option Action) :
    classMeans v ph p (classifyCtrl v ph p) := by
  unfold classifyCtrl
  split_ifs with hres hen hp hint hboth hsta hbus hsto
  · trivial
  · exact hen
  · trivial
  all_goals
    obtain rfl : p = none := by simpa using hp
    rw [Bool.not_eq_false] at hen
  · exact ⟨rfl, hen⟩
  all_goals rw [Bool.not_eq_false] at hint
  · trivial
  · trivial
  · exact ⟨rfl, hen, hint, hbus⟩
  · exact ⟨rfl, hen, hint, hsto⟩
  · exact classifyContinue_means hen hint

/-! ### Register writes -/

/-- A register write that does not fault stores in a plain register while nothing is pending, or is a CTRL write (R101, R111,
R113, R115). -/
theorem writeReg_cases {r : Reg} {v : Byte} {s t : State} (h : writeReg r v s = .next t) :
    (s.pending = none ∧ (t = { s with div := v } ∨ t = { s with ps := v.extractLsb' 0 2 } ∨ t = { s with data := v })) ∨
    writeCtrl v s = .next t := by
  by_cases hr : r = .ctrl
  · subst hr; exact .inr h
  · exact .inl (writeReg_plain_cases hr h)

/-- A register write touches the controller only. -/
theorem writeReg_frame {r : Reg} {v : Byte} {s t : State} (h : writeReg r v s = .next t) :
    t.toDriver = s.toDriver ∧ t.fault = s.fault ∧ t.params = s.params := by
  rcases writeReg_cases h with ⟨_, rfl | rfl | rfl⟩ | h
  iterate 3 exact ⟨rfl, rfl, rfl⟩
  rcases writeCtrl_cases h with ⟨_, rfl⟩ | ⟨_, rfl⟩ | ⟨_, rfl⟩ | ⟨_, rfl⟩ | ⟨_, rfl⟩ | ⟨_, _, rfl⟩ <;> simp

/-! ### The hardware invariant (10_state.md R34) -/

/-- R34.6 holds of every state: the reserved bits of CTRL have no storage. -/
theorem ctrlReservedZero_all (s : State) : ctrlReservedZero s := packCtrl_reserved _ _ _ _ _

/-- R34.5 follows from the code column of R29. -/
theorem phaseCodes_lowBitsZero {c : Byte} {ph : Phase} (h : c ∈ phaseCodes ph) : c &&& 0x07 = 0 := by
  cases ph <;> simp only [phaseCodes, List.mem_cons, List.not_mem_nil, or_false] at h
  case started | mt | mtNacked | mr => rcases h with rfl | rfl <;> rfl
  all_goals subst h; rfl

/-- With no action pending the invariant is R34.1 and the code column of R29. -/
theorem HardwareInv.of_quiet {s : State} (hp : s.pending = none) (hoff : offIffDisabled s)
    (hcode : s.code ∈ phaseCodes s.phase) : HardwareInv s where
  off_iff_disabled := hoff
  pending_consistent a ha := by simp [hp] at ha
  code_fits_phase _ := hcode
  stop_requested ha := by simp [hp] at ha
  code_low_bits_zero := phaseCodes_lowBitsZero hcode
  ctrl_reserved_zero := ctrlReservedZero_all s

/-- An action can be pending in an enabled phase only (R135). -/
theorem actionPhase_ne_off {a : Action} {ph : Phase} (h : actionPhase a ph = true) : ph ≠ .off := by
  rintro rfl
  cases a <;> simp [actionPhase] at h

/-- With an action pending the invariant is R34.2 and R34.4, the controller being enabled. -/
theorem HardwareInv.of_pending {s : State} {a : Action} (hp : s.pending = some a) (hen : s.ctrl.en = true)
    (hint : s.ctrl.int = false) (hcode : s.code = 0xF8) (hph : actionPhase a s.phase = true)
    (hsto : a = .stop → s.ctrl.sto = true) : HardwareInv s where
  off_iff_disabled := by simp [offIffDisabled, hen, actionPhase_ne_off hph]
  pending_consistent b hb := by
    obtain rfl : a = b := by simpa [hp] using hb
    exact ⟨hint, hcode, hph⟩
  code_fits_phase hq := by simp [hp] at hq
  stop_requested hb := hsto (by simpa [hp] using hb)
  code_low_bits_zero := by simp [codeLowBitsZero, hcode]
  ctrl_reserved_zero := ctrlReservedZero_all s

/-- While an action is pending the controller is enabled. -/
theorem HardwareInv.enabled {s : State} {a : Action} (k : HardwareInv s) (hp : s.pending = some a) :
    s.ctrl.en = true := by
  obtain ⟨_, _, hph⟩ := k.pending_consistent a hp
  simpa using mt k.off_iff_disabled.2 (actionPhase_ne_off hph)

@[simp] theorem commandPhase_ne_off (ph : Phase) : commandPhase ph ≠ .off := by cases ph <;> simp [commandPhase]

theorem commandPhase_eq_busErr {ph : Phase} : commandPhase ph = .busErr ↔ ph = .busErr := by
  cases ph <;> simp [commandPhase]

/-- Enabling keeps the code column of R29: OFF and IDLE have the same code. -/
theorem enableIfOff_codeFitsPhase {s : State} (h : s.code ∈ phaseCodes s.phase) :
    (enableIfOff s).code ∈ phaseCodes (enableIfOff s).phase := by
  rw [enableIfOff_code, enableIfOff_phase]
  cases hph : s.phase <;> simp_all [commandPhase, phaseCodes]

/-- A write that issues an action has bit 7 set, so it leaves INT clear (40_register_access.md R104 to R108). -/
theorem writeCtrl_keeps_hardwareInv {v : Byte} {s t : State} (k : HardwareInv s) (h : writeCtrl v s = .next t) :
    HardwareInv t := by
  have means := classifyCtrl_means v s.phase s.pending
  rcases writeCtrl_cases h with ⟨hc, rfl⟩ | ⟨hc, rfl⟩ | ⟨hc, rfl⟩ | ⟨hc, rfl⟩ | ⟨hc, rfl⟩ | ⟨ea, hc, rfl⟩ <;>
    rw [hc] at means
  · have hen : byteBit v 2 = false := means
    exact .of_quiet rfl (by simp [offIffDisabled, hen]) (by simp [phaseCodes])
  · obtain ⟨hp, hen⟩ := means
    exact .of_quiet hp (by simp [offIffDisabled, hen]) (enableIfOff_codeFitsPhase (k.code_fits_phase hp))
  · obtain ⟨_, hen, hint, hbus⟩ := means
    have hph : commandPhase s.phase ≠ .busErr := mt commandPhase_eq_busErr.1 hbus
    exact .of_pending rfl (by simp [hen]) (by simp [hint]) rfl (by simp [actionPhase, hph]) nofun
  · obtain ⟨_, hen, hint, hsto⟩ := means
    exact .of_pending rfl (by simp [hen]) (by simp [hint]) rfl (by simp [actionPhase]) (by simp [hsto])
  · obtain ⟨_, hen, hint, hph⟩ := means
    exact .of_pending rfl (by simp [hen]) (by simp [hint]) rfl (by simpa [actionPhase] using hph) nofun
  · obtain ⟨_, hen, hint, hph⟩ := means
    exact .of_pending rfl (by simp [hen]) (by simp [hint]) rfl (by simp [actionPhase, hph]) nofun

theorem writeReg_keeps_hardwareInv {r : Reg} {v : Byte} {s t : State} (k : HardwareInv s)
    (h : writeReg r v s = .next t) : HardwareInv t := by
  rcases writeReg_cases h with ⟨hp, rfl | rfl | rfl⟩ | h
  iterate 3 exact .of_quiet hp k.off_iff_disabled (k.code_fits_phase hp)
  exact writeCtrl_keeps_hardwareInv k h

/-- What a CPU step can do to the controller keeps the invariant. -/
theorem CpuEffect.keeps_hardwareInv {s t : State} (k : HardwareInv s) : CpuEffect s t → HardwareInv t
  | .inl h => hardwareInv_of_sameHardware h k
  | .inr ⟨_, _, _, _, h, hw, h'⟩ =>
    hardwareInv_of_sameHardware h' (writeReg_keeps_hardwareInv (hardwareInv_of_sameHardware h k) hw)

/-- A completion meets the invariant when its outcome is a row of R29. -/
theorem complete_hardwareInv {code : Byte} {ph : Phase} {e : BusEvent} {s : State} (hen : s.ctrl.en = true)
    (hph : ph ≠ .off) (hcode : code ∈ phaseCodes ph) : HardwareInv (complete code ph e s) :=
  .of_quiet rfl (by simp [offIffDisabled, hph, hen]) hcode

theorem startCode_mem (ph : Phase) : startCode ph ∈ phaseCodes .started := by
  cases ph <;> decide

theorem addressCode_mem (read ack : Bool) :
    addressPhase read ack ≠ .off ∧ addressCode read ack ∈ phaseCodes (addressPhase read ack) := by
  revert read ack; decide

theorem dataCode_mem (ack : Bool) : dataPhase ack ≠ .off ∧ dataCode ack ∈ phaseCodes (dataPhase ack) := by
  revert ack; decide

theorem receiveCode_mem (ea : Bool) : receivePhase ea ≠ .off ∧ receiveCode ea ∈ phaseCodes (receivePhase ea) := by
  revert ea; decide

theorem completeTx_hardwareInv {b : Byte} {ack : Bool} {s : State} (hen : s.ctrl.en = true) :
    HardwareInv (completeTx b ack s) := by
  unfold completeTx
  split
  · exact complete_hardwareInv hen (addressCode_mem _ _).1 (addressCode_mem _ _).2
  · exact complete_hardwareInv hen (dataCode_mem _).1 (dataCode_mem _).2

theorem completeStop_hardwareInv {s : State} (hen : s.ctrl.en = true) : HardwareInv (completeStop s) :=
  .of_quiet rfl (by simp [offIffDisabled, completeStop, hen]) (by simp [completeStop, codeNoInfo, phaseCodes])

theorem completeBusErr_hardwareInv {s : State} (hen : s.ctrl.en = true) : HardwareInv (completeBusErr s) :=
  complete_hardwareInv hen nofun (by decide)

/-- The controller's step on its pending action keeps the invariant (R131 to R139). -/
theorem ctrlStep_keeps_hardwareInv {a : Action} {r : Response} {s : State} (k : HardwareInv s)
    (hp : s.pending = some a) : HardwareInv (ctrlStep a r s) := by
  have hen := k.enabled hp
  unfold ctrlStep
  split
  · exact complete_hardwareInv hen nofun (startCode_mem _)
  · exact completeStop_hardwareInv hen
  · exact completeTx_hardwareInv hen
  · exact complete_hardwareInv hen (receiveCode_mem _).1 (receiveCode_mem _).2
  iterate 3 exact completeBusErr_hardwareInv hen
  · exact k

/-- Settles O49, by what a step can do to the controller: a register write or a completion. -/
theorem stepKeepsHardwareInv : Obligations.StepKeepsHardwareInv := by
  intro s t k h
  rcases step_effect h with he | ⟨a, r, hp, _, rfl⟩
  · exact he.keeps_hardwareInv k
  · have same := takeTurn_sameHardware s
    exact ctrlStep_keeps_hardwareInv (hardwareInv_of_sameHardware same k) (by rw [same, hp])

/-! ### The bus log (10_state.md R31) -/

/-- The bus log stays, or gets one ABORT from a disable that ends a pending action or a held bus (40_register_access.md R102). -/
def LogKeptOrAborted (s t : State) : Prop :=
  t.busLog = s.busLog ∨
    (t.busLog = s.busLog ++ [.abort] ∧ t.pending = none ∧ t.phase = .off ∧ (s.pending ≠ none ∨ owned s.phase = true))

theorem disable_log (v : Byte) (s : State) : LogKeptOrAborted s (disable v s) := by
  unfold LogKeptOrAborted
  rw [disable_busLog]
  split_ifs with hheld
  · exact .inr ⟨rfl, rfl, rfl, hheld⟩
  · exact .inl rfl

/-- Of all register writes only a disable writes to the log. -/
theorem writeReg_log {r : Reg} {v : Byte} {s t : State} (h : writeReg r v s = .next t) : LogKeptOrAborted s t := by
  rcases writeReg_cases h with ⟨_, rfl | rfl | rfl⟩ | h
  iterate 3 exact .inl rfl
  rcases writeCtrl_cases h with ⟨_, rfl⟩ | ⟨_, rfl⟩ | ⟨_, rfl⟩ | ⟨_, rfl⟩ | ⟨_, rfl⟩ | ⟨_, _, rfl⟩
  · exact disable_log v s
  all_goals exact .inl rfl

theorem CpuEffect.log {s t : State} : CpuEffect s t → LogKeptOrAborted s t
  | .inl h => .inl (congrArg Controller.busLog h)
  | .inr ⟨_, _, _, _, h, hw, h'⟩ => by
    have hlog := writeReg_log hw
    unfold LogKeptOrAborted at *
    rwa [h', ← h]

/-- Settles O53: the CPU logs ABORT only, the controller logs the completion of the pending action. -/
theorem busLogOnlyGrows : Obligations.BusLogOnlyGrows := by
  intro s t h
  rcases step_effect h with he | ⟨a, r, hp, hturn, rfl⟩
  · rcases he.log with hsame | ⟨hlog, hquiet, hoff, hheld⟩
    · exact .inl hsame
    · exact .inr ⟨.abort, hlog, hquiet, .inl ⟨rfl, hoff, hheld⟩⟩
  · have hbus : (takeTurn s).2.busLog = s.busLog := congrArg Controller.busLog (takeTurn_sameHardware s)
    rcases ctrlStep_cases a r (takeTurn s).2 with hstay | ⟨hadm, hhold, hquiet, hlog⟩
    · exact .inl (by rw [hstay, hbus])
    · rw [hbus] at hlog
      rcases hlog with hsame | ⟨e, hlog, hne⟩
      · exact .inl hsame
      · have hdrv := (ctrlStep_toDriver a r (takeTurn s).2).trans (takeTurn_toDriver s)
        exact .inr ⟨e, hlog, hquiet, .inr ⟨hne, hdrv, a, r, hp, hturn, hadm, hhold, rfl⟩⟩

/-! ### What no step touches (10_state.md R37) -/

/-- The parameters, the program and the fault are the same, and the driver's variables stay in canonical form. -/
structure StepFrame (s t : State) : Prop where
  params : t.params = s.params
  program : t.program = s.program
  fault : t.fault = s.fault
  localsWf : localsWf s → localsWf t

theorem StepFrame.trans {s t u : State} (h : StepFrame s t) (k : StepFrame t u) : StepFrame s u where
  params := k.params.trans h.params
  program := k.program.trans h.program
  fault := k.fault.trans h.fault
  localsWf := k.localsWf ∘ h.localsWf

/-- A state with the same parameters, driver and fault. -/
theorem StepFrame.of_toDriver {s t : State} (hd : t.toDriver = s.toDriver) (hf : t.fault = s.fault)
    (hq : t.params = s.params) : StepFrame s t where
  params := hq
  program := congrArg Driver.program hd
  fault := hf
  localsWf := by simp only [Machine.localsWf, hd, imp_self]

theorem writeReg_stepFrame {r : Reg} {v : Byte} {s t : State} (h : writeReg r v s = .next t) : StepFrame s t := by
  obtain ⟨hd, hf, hq⟩ := writeReg_frame h
  exact .of_toDriver hd hf hq

/-- A write followed by the driver's bookkeeping. -/
theorem StepFrame.andThen_write {r : Reg} {v : Byte} {s t : State} {f : State → State}
    (hf : ∀ w, StepFrame w (f w)) (h : andThen (writeReg r v s) (fun w => .next (f w)) = .next t) : StepFrame s t := by
  obtain ⟨w, hw, ht⟩ := andThen_next_iff.1 h
  cases ht
  exact (writeReg_stepFrame hw).trans (hf w)

theorem accessRead_stepFrame (r : Reg) (s : State) : StepFrame s (accessRead r s) := by
  cases r <;> simp only [accessRead, readReg, readData]
  case data => split <;> exact ⟨rfl, rfl, rfl, id⟩
  all_goals exact ⟨rfl, rfl, rfl, id⟩

theorem goOn_stepFrame (p : PrimPoint) (s : State) : StepFrame s (goOn p s) := ⟨rfl, rfl, rfl, id⟩

theorem advance_stepFrame (s : State) : StepFrame s (advance s) := ⟨rfl, rfl, rfl, id⟩

theorem setVar_stepFrame (x : Var) (b : Byte) (s : State) :
    StepFrame s { s with locals := setVar x b s.locals } where
  params := rfl
  program := rfl
  fault := rfl
  localsWf h := by
    cases x
    case user n => exact Cells.wf_write n b h
    all_goals exact h

theorem finishPrim_stepFrame (r : Ret) (s : State) : StepFrame s (finishPrim r s) := by
  obtain ⟨-, -, -, -, -, -, hprog, -, hloc, -, hfault, -, -, hparams⟩ := finishPrim_frame r s
  exact ⟨hparams, hprog, hfault, by simp only [localsWf, hloc, imp_self]⟩

theorem pollStep_stepFrame {b : Bool} {m : Byte} {f g : State → State} (hf : ∀ u, StepFrame u (f u))
    (hg : ∀ u, StepFrame u (g u)) (s : State) : StepFrame s (pollStep b m f g s) := by
  have hread : StepFrame s (pollRead s) := ⟨rfl, rfl, rfl, id⟩
  unfold pollStep
  dsimp only
  split
  · have hreset : StepFrame s { pollRead s with polls := 0 } := hread.trans ⟨rfl, rfl, rfl, id⟩
    exact hreset.trans (hf _)
  · split
    · have hgive : StepFrame s { pollRead s with polls := 0, wedged := true } := hread.trans ⟨rfl, rfl, rfl, id⟩
      exact hgive.trans (hg _)
    · exact hread

theorem primPoll_stepFrame {b : Bool} {m : Byte} {f : State → State} (hf : ∀ u, StepFrame u (f u)) (s : State) :
    StepFrame s (primPoll b m f s) :=
  pollStep_stepFrame hf (finishPrim_stepFrame _) s

/-- A primitive's return adds nothing to what was changed before it. -/
theorem StepFrame.finishPrim {r : Ret} {s t : State} (h : StepFrame s t) : StepFrame s (finishPrim r t) :=
  h.trans (finishPrim_stepFrame r t)

theorem beginStart_stepFrame {s t : State} (h : beginStart s = .next t) : StepFrame s t := by
  obtain ⟨_, _, h⟩ := guardReady_next h
  exact .andThen_write (f := fun w => goOn .startPoll { w with txnOpen := true }) (fun _ => ⟨rfl, rfl, rfl, id⟩) h

theorem beginStop_stepFrame {s t : State} (h : beginStop s = .next t) : StepFrame s t := by
  obtain ⟨_, _, h⟩ := guardReady_next h
  exact .andThen_write (goOn_stepFrame _) h

theorem beginWrbyte_stepFrame {b : Byte} {s t : State} (h : beginWrbyte b s = .next t) : StepFrame s t := by
  obtain ⟨_, _, h⟩ := guardReady_next h
  exact .andThen_write (goOn_stepFrame _) h

theorem beginRdbyte_stepFrame {a : Bool} {s t : State} (h : beginRdbyte a s = .next t) : StepFrame s t := by
  obtain ⟨_, _, h⟩ := guardReady_next h
  exact .andThen_write (goOn_stepFrame _) h

theorem exec_stepFrame {i : Instr} {s t : State} (h : exec i s = .next t) : StepFrame s t := by
  cases i <;> simp only [exec] at h
  case rdDiv | rdStatus | rdData | rdCtrl => cases h; exact accessRead_stepFrame _ _
  case wrCtrlIllegal ea sta =>
    simp only [execWrCtrlIllegal] at h
    split at h <;> simp [raiseFault] at h
  case init =>
    simp only [execInit] at h
    split at h
    · simp [raiseFault] at h
    · exact .andThen_write (goOn_stepFrame _) h
  case close =>
    simp only [execClose] at h
    split at h
    · simp [raiseFault] at h
    · exact .andThen_write
        (f := fun w => finishPrim .unit { w with lifecycle := .closed, txnOpen := false, wedged := false })
        (fun _ => StepFrame.finishPrim ⟨rfl, rfl, rfl, id⟩) h
  case start => exact beginStart_stepFrame h
  case stop => exact beginStop_stepFrame h
  case wrbyte b => exact beginWrbyte_stepFrame h
  case rdbyte a => exact beginRdbyte_stepFrame h
  case wrreg dev reg val =>
    have hstage : StepFrame s (wrStage dev reg val .start s) := ⟨rfl, rfl, rfl, id⟩
    exact hstage.trans (beginStart_stepFrame (checkDevice_next h).2)
  case rdreg dev reg =>
    have hstage : StepFrame s (rdStage dev reg .start s) := ⟨rfl, rfl, rfl, id⟩
    exact hstage.trans (beginStart_stepFrame (checkDevice_next h).2)
  all_goals exact writeReg_stepFrame h

theorem runWord_stepFrame {w : Word} {s t : State} (h : runWord w s = .next t) : StepFrame s t := by
  obtain ⟨i, _, h⟩ := runWord_next h
  exact exec_stepFrame h

theorem storeResult_stepFrame (dst : Option Var) (s : State) : StepFrame s (storeResult dst s) := by
  unfold storeResult
  split
  · exact setVar_stepFrame _ _ s
  · exact ⟨rfl, rfl, rfl, id⟩

theorem jump_stepFrame {l : Nat} {s t : State} (h : jump l s = .next t) : StepFrame s t := by
  obtain ⟨n, rfl⟩ := jump_next h
  exact ⟨rfl, rfl, rfl, id⟩

theorem waitStmt_stepFrame (b : Bool) (m : Byte) (s : State) : StepFrame s (waitStmt b m s) :=
  pollStep_stepFrame (g := fun t => advance { t with ret := some .busTimeout }) advance_stepFrame
    (fun _ => ⟨rfl, rfl, rfl, id⟩) s

/-- A bus access that does not fault runs the access word of its offset (20_memory.md R51). -/
theorem busAccess_next {k : BusKind} {addr width : Nat} {v : Byte} {s t : State} (h : busAccess k addr width v s = .next t) :
    ∃ w, runWord w s = .next t := by
  unfold busAccess at h
  split at h
  · simp at h
  split at h
  · simp at h
  split at h
  · simp at h
  · exact ⟨_, h⟩

theorem runStmt_stepFrame {c : Stmt} {s t : State} (h : runStmt c s = .next t) : StepFrame s t := by
  have hadv := advance_stepFrame s
  cases c <;> simp only [runStmt] at h
  case word w => exact hadv.trans (runWord_stepFrame h)
  case rd r dst =>
    obtain ⟨u, hu, ht⟩ := andThen_next_iff.1 h
    cases ht
    exact (hadv.trans (runWord_stepFrame hu)).trans (storeResult_stepFrame dst u)
  case wr r e => exact hadv.trans (runWord_stepFrame h)
  case waitSet m => cases h; exact waitStmt_stepFrame _ _ _
  case waitClr m => cases h; exact waitStmt_stepFrame _ _ _
  case assign x e => cases h; exact (setVar_stepFrame x _ s).trans (advance_stepFrame _)
  case test x c => cases h; exact (setVar_stepFrame x _ s).trans (advance_stepFrame _)
  case ifGoto c l =>
    split at h
    · exact jump_stepFrame h
    · cases h; exact hadv
  case goto l => exact jump_stepFrame h
  case label l => cases h; exact hadv
  case ret e => cases h; exact ⟨rfl, rfl, rfl, id⟩
  case call p => exact hadv.trans (exec_stepFrame h)
  case bus k addr width v =>
    obtain ⟨w, hw⟩ := busAccess_next h
    exact hadv.trans (runWord_stepFrame hw)

theorem startPolled_stepFrame (s : State) : StepFrame s (startPolled s) := by
  unfold startPolled
  split
  · exact goOn_stepFrame _ _
  · exact finishPrim_stepFrame _ _

theorem resumeRdbyteStatus_stepFrame (s : State) : StepFrame s (resumeRdbyteStatus s) := by
  simp only [resumeRdbyteStatus]
  split
  · exact ⟨rfl, rfl, rfl, id⟩
  · exact StepFrame.finishPrim ⟨rfl, rfl, rfl, id⟩

theorem resumeRdbyteData_stepFrame (s : State) : StepFrame s (resumeRdbyteData s) := by
  have hvar : ∀ (t : State) (b : Byte), StepFrame t { t with locals := { t.locals with v := b } } :=
    fun _ _ => ⟨rfl, rfl, rfl, id⟩
  exact ((accessRead_stepFrame .data s).trans (hvar _ _)).finishPrim

theorem resumePrim_stepFrame {p : PrimPoint} {s t : State} (h : resumePrim p s = .next t) : StepFrame s t := by
  cases p <;> simp only [resumePrim] at h
  case initDiv => exact .andThen_write (goOn_stepFrame _) h
  case initCtrl =>
    exact .andThen_write (f := fun w => finishPrim .unit { w with lifecycle := .ready })
      (fun _ => StepFrame.finishPrim ⟨rfl, rfl, rfl, id⟩) h
  case startPoll => cases h; exact primPoll_stepFrame startPolled_stepFrame s
  case startStatus => cases h; exact StepFrame.finishPrim ⟨rfl, rfl, rfl, id⟩
  case stopPoll =>
    cases h
    exact primPoll_stepFrame (f := fun t => finishPrim .unit { t with txnOpen := false })
      (fun _ => StepFrame.finishPrim ⟨rfl, rfl, rfl, id⟩) s
  case wrbyteCtrl => exact .andThen_write (goOn_stepFrame _) h
  case wrbytePoll => cases h; exact primPoll_stepFrame (goOn_stepFrame _) s
  case wrbyteStatus => cases h; exact StepFrame.finishPrim ⟨rfl, rfl, rfl, id⟩
  case rdbytePoll => cases h; exact primPoll_stepFrame (goOn_stepFrame _) s
  case rdbyteStatus => cases h; exact resumeRdbyteStatus_stepFrame s
  case rdbyteData => cases h; exact resumeRdbyteData_stepFrame s

theorem resumeContract_stepFrame {c : Contract} {s t : State} (h : resumeContract c s = .next t) : StepFrame s t := by
  rcases c with ⟨dev, reg, val, st⟩ | ⟨dev, reg, st⟩ <;> cases st
  case wrreg.start | rdreg.start | rdreg.restart => exact beginStart_stepFrame h
  case wrreg.stop | wrreg.abort | rdreg.stop | rdreg.abort => exact beginStop_stepFrame h
  case rdreg.read => exact beginRdbyte_stepFrame h
  all_goals exact beginWrbyte_stepFrame h

theorem cpuStep_stepFrame {s t : State} (h : cpuStep s = .next t) : StepFrame s t := by
  unfold cpuStep at h
  split at h
  · exact resumePrim_stepFrame h
  split at h
  · exact resumeContract_stepFrame h
  split at h
  · exact runStmt_stepFrame h
  · simp at h

theorem takeTurn_stepFrame (s : State) : StepFrame s (takeTurn s).2 := by
  unfold takeTurn
  split <;> exact ⟨rfl, rfl, rfl, id⟩

theorem ctrlStep_stepFrame (a : Action) (r : Response) (s : State) : StepFrame s (ctrlStep a r s) := by
  refine .of_toDriver (ctrlStep_toDriver a r s) ?_ ?_ <;> unfold ctrlStep completeTx
  all_goals (repeat' split) <;> rfl

theorem step_stepFrame {s t : State} (h : step s = .next t) : StepFrame s t := by
  unfold step machineStep at h
  split at h
  · simp at h
  unfold liveStep at h
  split at h
  · exact cpuStep_stepFrame h
  have hturn := takeTurn_stepFrame s
  unfold busyStep at h
  split at h <;> rename_i hu <;> rw [hu] at hturn
  · split at h
    · exact hturn.trans (cpuStep_stepFrame h)
    · cases h; exact hturn
  · cases h; exact hturn.trans (ctrlStep_stepFrame _ _ _)

/-- Settles O52, by the frame of a step. -/
theorem stepKeepsParametersAndProgram : Obligations.StepKeepsParametersAndProgram := by
  intro s t h
  obtain ⟨hparams, hprogram, hfault, -⟩ := step_stepFrame h
  exact ⟨hparams, hprogram, hfault⟩

/-! ### The reset state (10_state.md R36) -/

theorem reset_hardwareInv : HardwareInv State.reset :=
  .of_quiet rfl (by decide) (by decide)

theorem reset_driverInv : DriverInv State.reset where
  only_calls := rfl
  boundary_quiet _ := rfl

/-- Settles O50. -/
theorem resetMeetsTheInvariants : Obligations.ResetMeetsTheInvariants :=
  ⟨reset_hardwareInv, reset_driverInv, rfl⟩

/-- Settles O56. -/
theorem resetState : Obligations.ResetState := by
  unfold Obligations.ResetState
  decide

end Sys2Proof.Machine

/-! PROOFS. CPU accesses to the register window by address and width (20_memory.md R51, R55, R62). -/

namespace Sys2Proof.Machine

/-! ### The statement a step runs (30_encoding.md R86) -/

/-- Between primitives and contract calls the CPU runs the statement at its position. -/
theorem cpuStep_stmt {c : Stmt} {s : State} (hprim : s.prim = none) (hcontract : s.contract = none)
    (hc : s.program[s.pos]? = some c) : cpuStep s = runStmt c s := by
  simp [cpuStep, fetch, hprim, hcontract, hc]

/-- With no action pending the step runs the statement at the position. -/
theorem step_stmt_quiet {c : Stmt} {s : State} (hf : s.fault = none) (hprim : s.prim = none) (hcontract : s.contract = none)
    (hp : s.pending = none) (hc : s.program[s.pos]? = some c) : step s = runStmt c s :=
  (step_quiet hf hp).trans (cpuStep_stmt hprim hcontract hc)

/-- Quiet or on the CPU's turn, the step runs the statement at the position; only the queue of turns may have moved. -/
theorem step_stmt {c : Stmt} {s : State} (hf : s.fault = none) (hprim : s.prim = none) (hcontract : s.contract = none)
    (hturn : s.pending = none ∨ ∃ ts, s.turns = .cpu :: ts) (hc : s.program[s.pos]? = some c) :
    ∃ ts, step s = runStmt c { s with turns := ts } := by
  cases hp : s.pending with
  | none => exact ⟨s.turns, step_stmt_quiet hf hprim hcontract hp hc⟩
  | some a =>
    obtain ⟨ts, hts⟩ := hturn.resolve_left (by simp [hp])
    have hready : cpuReady { s with turns := ts } = true := by simp [cpuReady, fetch, hc]
    exact ⟨ts, (step_cpu hf hp hts hready).trans (cpuStep_stmt hprim hcontract hc)⟩

/-! ### The window (20_memory.md R50, R51) -/

theorem touchesWindow_iff {q : Params} {addr width : Nat} :
    touchesWindow q addr width = true ↔ 0 < width ∧ addr < q.twiBase + 8 ∧ q.twiBase < addr + width := by
  simp [touchesWindow, and_assoc]

/-- The address of an offset leads back to the offset. -/
@[simp] theorem windowOffset_windowAddress (q : Params) (off : BitVec 3) :
    windowOffset q (windowAddress q off) = some off := by
  have hin : off.toNat < 8 := off.isLt
  simp [windowOffset, windowAddress, hin]

/-- A fetch, or an access of another width than one byte, faults if one of its bytes lies in the window (R55, R62). -/
theorem busAccess_wide {k : BusKind} {addr width : Nat} {v : Byte} {s : State}
    (htouch : touchesWindow s.params addr width = true) (hwide : width ≠ 1 ∨ k = .fetch) :
    busAccess k addr width v s = .fault .wideAccess := by
  simp [busAccess, htouch, hwide, raiseFault]

/-- A one-byte read or write in the window is the access of its offset (R51). -/
theorem busAccess_byte {k : BusKind} {off : BitVec 3} {v : Byte} {s : State} (hk : k ≠ .fetch) :
    busAccess k (windowAddress s.params off) 1 v s =
      runWord (accessWord (k == .write) off (if k = .write then v else 0)) s := by
  have htouch : touchesWindow s.params (windowAddress s.params off) 1 = true := by
    have hin : off.toNat < 8 := off.isLt
    simp only [touchesWindow_iff, windowAddress]
    omega
  simp [busAccess, htouch, hk]

/-- Settles O15: the first clause in every step the CPU has, the second while no action is pending. -/
theorem wideAccessesFault : Obligations.WideAccessesFault := by
  intro k addr width v s hf hprim hcontract hturn hc
  constructor
  · intro hlow hhigh hwide
    have htouch : touchesWindow s.params addr width = true := touchesWindow_iff.2 ⟨by omega, hhigh, hlow⟩
    obtain ⟨ts, hstep⟩ := step_stmt hf hprim hcontract hturn hc
    exact hstep.trans (busAccess_wide htouch (hwide.imp (by omega) And.left))
  · rintro off rfl rfl hk hp
    exact (step_stmt_quiet hf hprim hcontract hp hc).trans (busAccess_byte (s := advance s) hk)

end Sys2Proof.Machine

/-! PROOFS. The encoding (30_encoding.md R70, R72, R73): in a phase its row admits, a register access and its word determine each
other, and the decoder follows the classification of CTRL writes. -/

namespace Sys2Proof

/-! ### The access word (30_encoding.md R70) -/

/-- A register stands at its own offset only; the reserved offsets hold none (10_state.md R22). -/
theorem regAt_eq_some {o : BitVec 3} {r : Reg} : regAt o = some r ↔ o = offsetOf r := by
  revert o; cases r <;> decide

@[simp] theorem regAt_offsetOf (r : Reg) : regAt (offsetOf r) = some r := regAt_eq_some.2 rfl

theorem toNat_accessWord (d : Bool) (o : BitVec 3) (v : Byte) :
    (accessWord d o v).toNat = d.toNat * 2048 + o.toNat * 256 + v.toNat := by
  revert d o v; decide

/-- A word whose bits 15:12 are 0 is the access word of its fields. -/
theorem accessWord_of_fields {w : Word} (h : w.toNat < 4096) :
    accessWord (wordIsWrite w) (wordOffset w) (wordValue w) = w := by
  have hd : (wordIsWrite w).toNat = w.toNat / 2048 := by
    rw [wordIsWrite, BitVec.getLsbD, Nat.toNat_testBit]
    omega
  apply BitVec.eq_of_toNat_eq
  simp only [toNat_accessWord, hd, wordOffset, wordValue, BitVec.extractLsb'_toNat, Nat.shiftRight_eq_div_pow]
  omega

/-- `WR <REG>, v` decodes by its register and its byte (R85). -/
theorem decode_writeWord (ph : Phase) (r : Reg) (v : Byte) : decode ph (writeWord r v) = decodeWrite ph r v := by
  simp [decode, writeWord]

/-- `RD <REG>` decodes by its register (R85). -/
theorem decode_readWord (ph : Phase) (r : Reg) : decode ph (readWord r) = decodeRead (readWord r) r := by
  simp [decode, readWord]

/-- A read has bits 7:0 equal to 0 (R70). -/
theorem wordValue_of_decodeRead {w : Word} {r : Reg} {i : Instr} (h : decodeRead w r = .ok i) : wordValue w = 0 := by
  unfold decodeRead at h
  split_ifs at h with hne
  exact not_not.1 hne

/-- A word that decodes to an instruction is the read or the write of a register, and decodes by it. -/
theorem decode_ok_cases {ph : Phase} {w : Word} {i : Instr} (h : decode ph w = .ok i) :
    (∃ r, w = readWord r ∧ decodeRead w r = .ok i) ∨ ∃ r v, w = writeWord r v ∧ decodeWrite ph r v = .ok i := by
  unfold decode at h
  by_cases hbits : 4096 ≤ w.toNat
  · simp [hbits] at h
  have hword := accessWord_of_fields (not_le.1 hbits)
  rw [if_neg hbits] at h
  cases hr : regAt (wordOffset w) with
  | none => simp [hr] at h
  | some r =>
    rw [regAt_eq_some.1 hr] at hword
    cases hwrite : wordIsWrite w with
    | true =>
      rw [hwrite] at hword
      exact .inr ⟨r, wordValue w, hword.symm, by simpa [hr, hwrite] using h⟩
    | false =>
      have hread : decodeRead w r = .ok i := by simpa [hr, hwrite] using h
      rw [hwrite, wordValue_of_decodeRead hread] at hword
      exact .inl ⟨r, hword.symm, hread⟩

/-! ### The CTRL command word (30_encoding.md R72, R73) -/

/-- The decoder reads the byte a row writes as that row, in each phase the row's condition admits. -/
theorem decodeCtrl_of_ctrlByteOf {i : Instr} {v : Byte} {ph : Phase} (hv : ctrlByteOf i = some v)
    (hph : decodesIn i ph = true) : decodeCtrl ph v = .ok i := by
  cases i <;> simp only [ctrlByteOf, Option.some.injEq, reduceCtorEq] at hv <;> subst hv
  case wrCtrlDisable | wrCtrlConfig | wrCtrlStaSto | wrCtrlStop => simp [decodeCtrl]
  case wrCtrlStart ea => simpa [decodeCtrl, decodesIn] using hph
  case wrCtrlTx | wrCtrlRxAck | wrCtrlRxNack =>
    cases ph <;> simp_all [decodeCtrl, decodeContinue, commandPhase, decodesIn]
  case wrCtrlIllegal ea sta =>
    cases sta
    case false => cases ph <;> simp_all [decodeCtrl, decodeContinue, commandPhase, decodesIn]
    case true => simpa [decodeCtrl, decodesIn] using hph

/-- A continue write decodes to a row of the byte 0x84 or 0xC4 that the phase admits (R74). -/
theorem decodeContinue_row (ph : Phase) (v : Byte) :
    ctrlByteOf (decodeContinue ph v) = some (packCtrl true (byteBit v 6) false false true) ∧
    decodesIn (decodeContinue ph v) ph = true := by
  cases hea : byteBit v 6 <;> cases ph <;> simp [decodeContinue, commandPhase, ctrlByteOf, decodesIn, hea]

/-- The decoder reads a CTRL byte as a row that writes this byte and that the phase admits. -/
theorem ctrlByteOf_of_decodeCtrl {i : Instr} {v : Byte} {ph : Phase} (h : decodeCtrl ph v = .ok i) :
    ctrlByteOf i = some v ∧ decodesIn i ph = true := by
  have hres : v &&& 11#8 = 0#8 := by
    by_contra hne
    simp [decodeCtrl, hne] at h
  obtain ⟨int, ea, sta, sto, en, rfl⟩ : ∃ int ea sta sto en, v = packCtrl int ea sta sto en :=
    ⟨_, _, _, _, _, (packCtrl_byteBits hres).symm⟩
  cases en
  case false =>
    obtain rfl : .wrCtrlDisable int ea sta sto = i := by simpa [decodeCtrl] using h
    exact ⟨rfl, rfl⟩
  cases int
  case false =>
    obtain rfl : .wrCtrlConfig ea sta sto = i := by simpa [decodeCtrl] using h
    exact ⟨rfl, rfl⟩
  cases sta <;> cases sto
  case false.false =>
    obtain rfl : decodeContinue ph (packCtrl true ea false false true) = i := by simpa [decodeCtrl] using h
    simpa using decodeContinue_row ph (packCtrl true ea false false true)
  case false.true =>
    obtain rfl : .wrCtrlStop ea = i := by simpa [decodeCtrl] using h
    exact ⟨rfl, rfl⟩
  case true.false =>
    by_cases hbus : ph = .busErr
    · obtain rfl : .wrCtrlIllegal ea true = i := by simpa [decodeCtrl, hbus] using h
      exact ⟨rfl, by simp [decodesIn, hbus]⟩
    · obtain rfl : .wrCtrlStart ea = i := by simpa [decodeCtrl, hbus] using h
      exact ⟨rfl, by simp [decodesIn, hbus]⟩
  case true.true =>
    obtain rfl : .wrCtrlStaSto ea = i := by simpa [decodeCtrl] using h
    exact ⟨rfl, rfl⟩

/-! ### Decoding and encoding -/

/-- The word of a CTRL row is the write of the row's byte to CTRL. -/
theorem encodeAccess_of_ctrlByteOf {i : Instr} {v : Byte} (h : ctrlByteOf i = some v) :
    encodeAccess i = some (writeWord .ctrl v) := by
  cases i <;> cases h <;> rfl

/-- Settles O57: a read or a plain write decodes by its register, a CTRL write by its row's byte. -/
theorem decodeEncode : Obligations.DecodeEncode := by
  intro i w ph hw hph
  cases hv : ctrlByteOf i with
  | some v =>
    obtain rfl : writeWord .ctrl v = w := by simpa [encodeAccess_of_ctrlByteOf hv] using hw
    rw [decode_writeCtrl]
    exact decodeCtrl_of_ctrlByteOf hv hph
  | none =>
    cases i
    case rdDiv | rdStatus | rdData | rdCtrl =>
      cases hw
      rw [decode_readWord]
      rfl
    case wrDiv | wrStatus | wrData =>
      cases hw
      rw [decode_writeWord]
      rfl
    case init | close | start | stop | wrbyte | rdbyte | wrreg | rdreg => cases hw
    all_goals cases hv

/-- Settles O58: the access a word stands for is the row's own, and the byte of a CTRL write is the row's byte. -/
theorem encodeDecode : Obligations.EncodeDecode := by
  intro i w ph h
  rcases decode_ok_cases h with ⟨r, rfl, hi⟩ | ⟨r, v, rfl, hi⟩
  · cases r <;> cases hi <;> exact ⟨rfl, rfl⟩
  · cases r
    case ctrl =>
      obtain ⟨hv, hph⟩ := ctrlByteOf_of_decodeCtrl hi
      exact ⟨encodeAccess_of_ctrlByteOf hv, hph⟩
    all_goals cases hi; exact ⟨rfl, rfl⟩

/-- Settles O59. -/
theorem writtenOutWordsDecode : Obligations.WrittenOutWordsDecode := by
  unfold Obligations.WrittenOutWordsDecode
  decide

/-! ### The classification of CTRL writes (R72, R85) -/

/-- Only a reserved bit keeps a CTRL byte from being an instruction (R101). -/
theorem decodeCtrl_error {v : Byte} {ph : Phase} {e : Reject} (h : decodeCtrl ph v = .error e) :
    e = .reservedBit v ∧ classifyCtrl v ph none = .reserved := by
  unfold decodeCtrl at h
  split_ifs at h with hres
  cases h
  exact ⟨rfl, if_pos hres⟩

/-- Settles O16: the row decoded writes the byte, and the class of a row's byte is the row's. -/
theorem decoderFollowsClassification : Obligations.DecoderFollowsClassification := by
  intro v ph
  rw [decode_writeCtrl]
  cases h : decodeCtrl ph v with
  | error e =>
    obtain ⟨rfl, hclass⟩ := decodeCtrl_error h
    simp [hclass]
  | ok i =>
    obtain ⟨hv, hph⟩ := ctrlByteOf_of_decodeCtrl h
    cases i <;> simp only [ctrlByteOf, Option.some.injEq, reduceCtorEq] at hv <;> subst hv
    case wrCtrlDisable => rw [classifyCtrl_disable]; exact ⟨_, _, _, _, rfl, rfl⟩
    case wrCtrlConfig => rw [classifyCtrl_config]; exact ⟨_, _, _, rfl, rfl⟩
    case wrCtrlStaSto => rw [classifyCtrl_staSto]; exact ⟨_, rfl, rfl⟩
    case wrCtrlStop => rw [classifyCtrl_stop]; exact ⟨_, rfl, rfl⟩
    case wrCtrlStart =>
      rw [classifyCtrl_start, if_neg (by simpa [decodesIn] using hph)]
      exact ⟨_, rfl, rfl⟩
    case wrCtrlTx =>
      obtain rfl | rfl : ph = .started ∨ ph = .mt := by simpa [decodesIn] using hph
      all_goals rw [classifyCtrl_continue]; exact ⟨_, rfl, rfl⟩
    case wrCtrlRxAck | wrCtrlRxNack =>
      obtain rfl : ph = .mr := by simpa [decodesIn] using hph
      exact ⟨rfl, rfl⟩
    case wrCtrlIllegal ea sta =>
      cases sta
      case false =>
        rw [classifyCtrl_continue]
        cases ph
        case started | mt | mr => cases hph
        all_goals exact ⟨_, _, rfl, rfl, rfl⟩
      case true =>
        obtain rfl : ph = .busErr := by simpa [decodesIn] using hph
        rw [classifyCtrl_start]
        exact ⟨_, _, rfl, rfl, rfl⟩

end Sys2Proof

/-! PROOFS. A step runs the decoded instruction or the called pseudo-instruction (30_encoding.md R85, R86), and keeps the driver's
variables in canonical form. -/

namespace Sys2Proof.Machine

/-- Settles O54: part of the frame of a step. -/
theorem stepKeepsLocalsWf : Obligations.StepKeepsLocalsWf :=
  fun _ _ hwf h => (step_stepFrame h).localsWf hwf

/-- On the CPU's turn the step runs the statement at the position, the turn taken from the queue. -/
theorem step_stmt_cpuTurn {c : Stmt} {s : State} {ts : List Turn} (hf : s.fault = none) (hprim : s.prim = none)
    (hcontract : s.contract = none) (hp : s.pending ≠ none) (hts : s.turns = .cpu :: ts)
    (hc : s.program[s.pos]? = some c) : step s = runStmt c { s with turns := ts } := by
  obtain ⟨a, ha⟩ := Option.ne_none_iff_exists'.1 hp
  have hready : cpuReady { s with turns := ts } = true := by simp [cpuReady, fetch, hc]
  exact (step_cpu hf ha hts hready).trans (cpuStep_stmt hprim hcontract hc)

/-- A word that decodes runs as its instruction (R85). -/
theorem runWord_of_decode {w : Word} {i : Instr} {s : State} (h : decode s.phase w = .ok i) : runWord w s = exec i s := by
  simp [runWord, h]

/-- Settles O60: quiet or on the CPU's turn the step runs the statement, which advances first. -/
theorem stepRunsTheDecodedInstruction : Obligations.StepRunsTheDecodedInstruction := by
  intro s hf hprim hcontract u hu
  have hrun : ∀ c, s.program[s.pos]? = some c → step s = runStmt c u := by
    intro c hc
    rcases hu with ⟨hp, rfl⟩ | ⟨hp, ts, hts, rfl⟩
    · exact step_stmt_quiet hf hprim hcontract hp hc
    · exact step_stmt_cpuTurn hf hprim hcontract hp hts hc
  obtain ⟨hphase, hlocals, hadvance⟩ :
      u.phase = s.phase ∧ u.locals = s.locals ∧ advance u = { u with pos := s.pos + 1 } := by
    rcases hu with ⟨_, rfl⟩ | ⟨_, _, _, rfl⟩ <;> exact ⟨rfl, rfl, rfl⟩
  rw [← hphase, ← hlocals, ← hadvance]
  exact ⟨fun w i hc hi => (hrun _ hc).trans (runWord_of_decode (s := advance u) hi), fun c hc => hrun _ hc⟩

end Sys2Proof.Machine

/-! PROOFS. The register accesses (40_register_access.md R100 to R116): what each read and each write of the instruction table does in
every state, and what a step does that fetches a CTRL write of a faulting class or an access at a reserved offset. -/

namespace Sys2Proof.Machine

/-! ### The CTRL and STATUS bytes (30_encoding.md R77) -/

/-- A byte has no reserved CTRL bit exactly when its bits 3, 1 and 0 are clear (R101). -/
theorem reserved_eq_zero_iff {v : Byte} :
    v &&& 11#8 = 0#8 ↔ v.getLsbD 3 = false ∧ v.getLsbD 1 = false ∧ v.getLsbD 0 = false := by
  revert v; decide

/-- A row of the CTRL table whose only open bit is EA gives the byte but for its bit 6 (30_encoding.md R73). -/
theorem eq_packCtrl_of_masked {v : Byte} {int sta sto en : Bool} (h : v &&& 0xBF = packCtrl int false sta sto en) :
    v = packCtrl int (byteBit v 6) sta sto en := by
  revert v int sta sto en; decide

/-- A code whose low bits are clear and the prescaler do not overlap in the STATUS byte (10_state.md R34.5). -/
theorem code_or_ps_fields {code : Byte} (ps : BitVec 2) (h : code &&& 0x07 = 0) :
    (code ||| ps.setWidth 8) &&& 0xF8 = code ∧ (code ||| ps.setWidth 8).getLsbD 2 = false ∧
    (code ||| ps.setWidth 8).extractLsb' 0 2 = ps := by
  revert code ps; decide

/-! ### Register reads (R100, R110 to R114) -/

/-- Settles O1: the byte is the packed fields. -/
theorem readCtrlReturnsTheFields : Obligations.ReadCtrlReturnsTheFields := by
  intro s
  obtain ⟨hint, hea, hsta, hsto, hen⟩ := byteBit_packCtrl s.ctrl.int s.ctrl.ea s.ctrl.sta s.ctrl.sto s.ctrl.en
  obtain ⟨h3, h1, h0⟩ := reserved_eq_zero_iff.1 (ctrlReservedZero_all s)
  exact ⟨ctrlByte s, rfl, hint, hea, hsta, hsto, h3, hen, h1, h0⟩

/-- Settles O2. -/
theorem readStatusReturnsCodeAndPrescaler : Obligations.ReadStatusReturnsCodeAndPrescaler :=
  fun s => ⟨rfl, code_or_ps_fields s.ps⟩

theorem readData_quiet {s : State} (hp : s.pending = none) : readData s = (s.data, s) := by
  simp [readData, hp]

theorem readData_busy {s : State} (hp : s.pending ≠ none) :
    readData s = (Config.draw8 s.draws, { s with draws := s.draws + 1 }) :=
  if_pos hp

/-- Settles O3: DIV has no condition, DATA is the free byte only while an action is pending. -/
theorem readDataAndDivReturnTheRegister : Obligations.ReadDataAndDivReturnTheRegister := by
  refine fun s => ⟨fun hp => ?_, fun hp => ⟨Config.draw8 s.draws, ?_⟩, rfl⟩
  · simp only [exec, execRdData, accessRead, readReg, readData_quiet hp]
  · simp only [exec, execRdData, accessRead, readReg, readData_busy hp]

/-! ### Plain register writes (R111, R113, R115) -/

theorem writeUnlessBusy_quiet {r : Reg} {f : State → State} {s : State} (hp : s.pending = none) :
    writeUnlessBusy r f s = .next (f s) := by
  simp [writeUnlessBusy, hp]

theorem writeUnlessBusy_busy {r : Reg} {f : State → State} {s : State} (hp : s.pending ≠ none) :
    writeUnlessBusy r f s = .fault (.writeWhileBusy r) :=
  if_pos hp

/-- Settles O4: the three writes differ in the field they store only. -/
theorem plainWritesStoreOrFaultBusy : Obligations.PlainWritesStoreOrFaultBusy := by
  intro v s
  simp only [exec, execWrDiv, execWrStatus, execWrData, writeReg]
  constructor
  · intro hp
    exact ⟨writeUnlessBusy_quiet hp, writeUnlessBusy_quiet hp, writeUnlessBusy_quiet hp⟩
  · intro hp
    exact ⟨writeUnlessBusy_busy hp, writeUnlessBusy_busy hp, writeUnlessBusy_busy hp⟩

/-! ### CTRL writes that take effect (R102 to R108) -/

theorem storeCtrl_packCtrl (int ea sta sto en : Bool) (s : State) :
    storeCtrl (packCtrl int ea sta sto en) s =
      { s with ctrl := { int := s.ctrl.int && !int, ea := ea, sta := sta, sto := sto, en := en } } := by
  cases int <;> simp [storeCtrl]

theorem commandPhase_eq (ph : Phase) : commandPhase ph = if ph = .off then .idle else ph := by
  cases ph <;> rfl

theorem enableIfOff_eq (s : State) :
    enableIfOff s = { s with
      phase := if s.phase = .off then .idle else s.phase
      code := if s.phase = .off then 0xF8 else s.code } := by
  rw [enableIfOff, commandPhase_eq]; rfl

/-- The phases of 10_state.md R29 in which this master holds the bus. -/
theorem owned_iff {ph : Phase} : owned ph = true ↔ ph ∈ [.started, .mt, .mtNacked, .mr, .mrNacked, .mrDone] := by
  cases ph <;> decide

/-- While an action is pending every enabling write faults (R109). -/
theorem writeCtrl_busy {int ea sta sto : Bool} {s : State} (hp : s.pending ≠ none) :
    writeCtrl (packCtrl int ea sta sto true) s = .fault (.writeWhileBusy .ctrl) := by
  obtain ⟨a, ha⟩ := Option.ne_none_iff_exists'.1 hp
  rw [writeCtrl, ha, classifyCtrl_busy]; rfl

/-- Settles O5: the class is DISABLE whatever is pending. -/
theorem disableAbortsAndKeepsData : Obligations.DisableAbortsAndKeepsData := by
  intro int ea sta sto s
  change writeCtrl (packCtrl int ea sta sto false) s = _
  simp only [writeCtrl, classifyCtrl_disable, disable, storeCtrl_packCtrl, owned_iff]
  rfl

/-- Settles O6. -/
theorem configStoresAndEnables : Obligations.ConfigStoresAndEnables := by
  refine fun ea sta sto s => ⟨fun hp => ?_, writeCtrl_busy⟩
  change writeCtrl (packCtrl false ea sta sto true) s = _
  simp [writeCtrl, hp, storeCtrl_packCtrl, enableIfOff_eq]

theorem writeCtrl_start_busErr {ea : Bool} {s : State} (hp : s.pending = none) (hph : s.phase = .busErr) :
    writeCtrl (packCtrl true ea true false true) s = .fault (.illegalCommand .busErr) := by
  simp [writeCtrl, hp, hph, raiseFault]

/-- Settles O7. -/
theorem startCommandIssuesStart : Obligations.StartCommandIssuesStart := by
  refine fun ea s => ⟨fun hp hph => ?_, writeCtrl_busy, writeCtrl_start_busErr⟩
  change writeCtrl (packCtrl true ea true false true) s = _
  simp [writeCtrl, hp, hph, storeCtrl_packCtrl, enableIfOff_eq, issue, codeNoInfo]

/-- Settles O8. -/
theorem stopCommandIssuesStop : Obligations.StopCommandIssuesStop := by
  refine fun ea s => ⟨fun hp => ?_, writeCtrl_busy⟩
  change writeCtrl (packCtrl true ea false true true) s = _
  simp [writeCtrl, hp, storeCtrl_packCtrl, enableIfOff_eq, issue, codeNoInfo]

theorem classifyContinue_tx {v : Byte} {ph : Phase} (h : ph = .started ∨ ph = .mt) : classifyContinue v ph = .tx := by
  rcases h with rfl | rfl <;> rfl

theorem classifyContinue_rx (ea : Bool) : classifyContinue (packCtrl true ea false false true) .mr = .rx ea := by
  cases ea <;> rfl

theorem classifyContinue_illegal {v : Byte} {ph : Phase} (h : ph ∉ [.started, .mt, .mr]) :
    classifyContinue v ph = .illegal (commandPhase ph) := by
  cases ph
  case started | mt | mr => simp at h
  all_goals rfl

/-- Settles O9: in STARTED and MT a continue write is TX (30_encoding.md R74). -/
theorem transmitCommandIssuesTx : Obligations.TransmitCommandIssuesTx := by
  refine fun ea s hph => ⟨fun hp => ?_, writeCtrl_busy⟩
  change writeCtrl (packCtrl true ea false false true) s = _
  simp [writeCtrl, hp, classifyContinue_tx hph, storeCtrl_packCtrl, issue, codeNoInfo]

/-- In MR a continue write issues Rx with the write's EA (R107, R108). -/
theorem writeCtrl_rx {ea : Bool} {s : State} (hph : s.phase = .mr) (hp : s.pending = none) :
    writeCtrl (packCtrl true ea false false true) s = .next { s with
      ctrl := { int := false, ea := ea, sta := false, sto := false, en := true }
      pending := some (.rx ea), code := 0xF8 } := by
  simp [writeCtrl, hp, hph, classifyContinue_rx, storeCtrl_packCtrl, issue, codeNoInfo]

/-- Settles O10. -/
theorem receiveCommandsIssueRx : Obligations.ReceiveCommandsIssueRx := fun _ hph =>
  ⟨fun hp => ⟨writeCtrl_rx hph hp, writeCtrl_rx hph hp⟩, fun hp => ⟨writeCtrl_busy hp, writeCtrl_busy hp⟩⟩

/-! ### CTRL writes that fault (R101, R109) -/

theorem writeCtrl_reserved {v : Byte} {s : State} (h : v &&& 11#8 ≠ 0#8) :
    writeCtrl v s = .fault (.reservedBit v) := by
  simp [writeCtrl, classifyCtrl, h, raiseFault]

theorem writeCtrl_staSto {ea : Bool} {s : State} (hp : s.pending = none) :
    writeCtrl (packCtrl true ea true true true) s = .fault .startStopTogether := by
  simp [writeCtrl, hp, raiseFault]

theorem writeCtrl_illegalContinue {ea : Bool} {s : State} (hp : s.pending = none) (hph : s.phase ∉ [.started, .mt, .mr]) :
    writeCtrl (packCtrl true ea false false true) s = .fault (.illegalCommand (commandPhase s.phase)) := by
  simp [writeCtrl, hp, classifyContinue_illegal hph, raiseFault]

theorem execWrCtrlIllegal_busy (ea sta : Bool) {s : State} (hp : s.pending ≠ none) :
    execWrCtrlIllegal ea sta s = .fault (.writeWhileBusy .ctrl) :=
  if_pos hp

theorem execWrCtrlIllegal_quiet (ea sta : Bool) {s : State} (hp : s.pending = none) :
    execWrCtrlIllegal ea sta s = .fault (.illegalCommand (commandPhase s.phase)) :=
  if_neg (not_not.2 hp)

/-- Settles O11. -/
theorem faultingClassesAlwaysFault : Obligations.FaultingClassesAlwaysFault := by
  intro ea sta s
  rw [← commandPhase_eq]
  by_cases hp : s.pending = none
  · rw [if_pos hp, if_pos hp]
    exact ⟨writeCtrl_staSto hp, execWrCtrlIllegal_quiet ea sta hp⟩
  · rw [if_neg hp, if_neg hp]
    exact ⟨writeCtrl_busy hp, execWrCtrlIllegal_busy ea sta hp⟩

/-! ### Fetched CTRL writes (30_encoding.md R85) -/

/-- Where its row admits the phase, the ILLEGAL instruction does what the write of its byte does. -/
theorem execWrCtrlIllegal_eq_writeCtrl {ea sta : Bool} {s : State}
    (hph : decodesIn (.wrCtrlIllegal ea sta) s.phase = true) :
    execWrCtrlIllegal ea sta s = writeCtrl (packCtrl true ea sta false true) s := by
  by_cases hp : s.pending = none
  · rw [execWrCtrlIllegal_quiet ea sta hp]
    cases sta
    case false =>
      have hout : s.phase ∉ [.started, .mt, .mr] := by simpa [decodesIn, and_assoc] using hph
      rw [writeCtrl_illegalContinue hp hout]
    case true =>
      have hbus : s.phase = .busErr := by simpa [decodesIn] using hph
      rw [writeCtrl_start_busErr hp hbus, hbus]; rfl
  · rw [execWrCtrlIllegal_busy ea sta hp, writeCtrl_busy hp]

/-- A CTRL row that the phase admits writes its byte: the class the write is judged by is decided again in the state it meets (R101). -/
theorem exec_eq_writeCtrl {i : Instr} {v : Byte} {s : State} (hv : ctrlByteOf i = some v)
    (hph : decodesIn i s.phase = true) : exec i s = writeCtrl v s := by
  cases i <;> cases hv
  case wrCtrlIllegal => exact execWrCtrlIllegal_eq_writeCtrl hph
  all_goals rfl

/-- The decoder rejects a CTRL byte for a reserved bit only. -/
theorem reserved_of_decodeCtrl_error {v : Byte} {ph : Phase} {e : Reject} (h : decodeCtrl ph v = .error e) :
    e = .reservedBit v ∧ v &&& 11#8 ≠ 0#8 := by
  unfold decodeCtrl at h
  split_ifs at h with hres
  cases h
  exact ⟨rfl, hres⟩

/-- Decoding a CTRL write and running its row does what writing the byte does: a reserved bit faults in the decoder, every other byte
is the byte of the row it decodes to. -/
theorem runWord_writeCtrl (v : Byte) (s : State) : runWord (writeWord .ctrl v) s = writeCtrl v s := by
  unfold runWord
  rw [decode_writeCtrl]
  cases h : decodeCtrl s.phase v with
  | error e =>
    obtain ⟨rfl, hres⟩ := reserved_of_decodeCtrl_error h
    exact (writeCtrl_reserved hres).symm
  | ok i =>
    obtain ⟨hv, hph⟩ := ctrlByteOf_of_decodeCtrl h
    exact exec_eq_writeCtrl hv hph

/-- Quiet or on the CPU's turn, a step that fetches `WR CTRL, v` is the write of v, in the phase and with the action pending that it
meets. -/
theorem step_writeCtrl {v : Byte} {s : State} (hf : s.fault = none) (hprim : s.prim = none) (hcontract : s.contract = none)
    (hturn : s.pending = none ∨ ∃ ts, s.turns = .cpu :: ts) (hc : s.program[s.pos]? = some (.word (writeWord .ctrl v))) :
    ∃ u, u.phase = s.phase ∧ u.pending = s.pending ∧ step s = writeCtrl v u := by
  obtain ⟨ts, hstep⟩ := step_stmt hf hprim hcontract hturn hc
  exact ⟨advance { s with turns := ts }, rfl, rfl, hstep.trans (runWord_writeCtrl v _)⟩

/-- Settles O12: the masked byte is the byte of a faulting row, and the step is its write. -/
theorem faultingCtrlBytesFault : Obligations.FaultingCtrlBytesFault := by
  intro v s hf hprim hcontract hc
  have hwrite := fun hturn => step_writeCtrl hf hprim hcontract hturn hc
  refine ⟨?busy, ?staSto, ?illegal, ?start⟩
  case busy =>
    rintro hres hen ⟨a, ts, ha, hts⟩
    obtain ⟨u, -, hpend, hstep⟩ := hwrite (.inr ⟨ts, hts⟩)
    have hbusy : u.pending ≠ none := by simp [hpend, ha]
    have hbyte : packCtrl (byteBit v 7) (byteBit v 6) (byteBit v 5) (byteBit v 4) true = v := hen ▸ packCtrl_byteBits hres
    rw [hstep, ← hbyte, writeCtrl_busy hbusy]
  case staSto =>
    intro hmask hp
    obtain ⟨u, -, hpend, hstep⟩ := hwrite (.inl hp)
    have hbyte : v = packCtrl true (byteBit v 6) true true true := eq_packCtrl_of_masked hmask
    rw [hstep, hbyte, writeCtrl_staSto (hpend.trans hp)]
  case illegal =>
    intro hmask hp hph
    obtain ⟨u, hphase, hpend, hstep⟩ := hwrite (.inl hp)
    have hbyte : v = packCtrl true (byteBit v 6) false false true := eq_packCtrl_of_masked hmask
    rw [hstep, hbyte, ← commandPhase_eq, ← hphase]
    exact writeCtrl_illegalContinue (hpend.trans hp) (hphase ▸ hph)
  case start =>
    intro hmask hp hph
    obtain ⟨u, hphase, hpend, hstep⟩ := hwrite (.inl hp)
    have hbyte : v = packCtrl true (byteBit v 6) true false true := eq_packCtrl_of_masked hmask
    rw [hstep, hbyte, writeCtrl_start_busErr (hpend.trans hp) (hphase.trans hph)]

/-- Settles O13: the reserved bits are judged before anything else of the state (60_exceptions.md R225). -/
theorem reservedBitsFaultFirst : Obligations.ReservedBitsFaultFirst := by
  intro v s hf hprim hcontract hc hturn hbit
  obtain ⟨u, -, -, hstep⟩ := step_writeCtrl hf hprim hcontract hturn hc
  have hres : v &&& 11#8 ≠ 0#8 := by
    intro hzero
    obtain ⟨h3, h1, h0⟩ := reserved_eq_zero_iff.1 hzero
    simp only [h3, h1, h0, Bool.false_eq_true, or_self] at hbit
  rw [hstep, writeCtrl_reserved hres]

/-! ### Unmapped offsets (R116) -/

/-- The offset is judged before the direction and the byte. -/
theorem runWord_unmapped {d : Bool} {off : BitVec 3} {v : Byte} {s : State} (h : regAt off = none) :
    runWord (accessWord d off v) s = .fault (.unmappedRegister off) := by
  have hbits : ¬4096 ≤ (accessWord d off v).toNat := not_le.2 (by simp)
  simp [runWord, decode, hbits, h, rejected, raiseFault]

/-- Settles O14. -/
theorem unmappedOffsetsFault : Obligations.UnmappedOffsetsFault := by
  intro d off v s hf hprim hcontract hturn hc hoff
  have hnone : regAt off = none := by rcases hoff with rfl | rfl | rfl | rfl <;> rfl
  obtain ⟨ts, hstep⟩ := step_stmt hf hprim hcontract hturn hc
  exact hstep.trans (runWord_unmapped hnone)

end Sys2Proof.Machine

/-! PROOFS. The controller's completions (41_controller_actions.md R130 to R139): which answers end an action, the state each leaves,
and that no step of the CPU takes an entry of the environment's queue. -/

namespace Sys2Proof.Machine

/-! ### The answers that end an action (R130) -/

/-- The admitted answers other than `Hold`, action by action. -/
theorem admitted_iff {a : Action} {r : Response} : (admitted a r = true ∧ r ≠ .hold) ↔
    (a = .start ∧ r = .startOk) ∨ (a = .stop ∧ r = .stopOk) ∨ (∃ b ack, a = .tx b ∧ r = .txAck ack) ∨
    (∃ ea x, a = .rx ea ∧ r = .rxByte x) ∨ (a ≠ .stop ∧ r = .busErr) := by
  cases a <;> cases r <;> simp [admitted]

/-- Every other answer reads as `Hold` (log 2). -/
theorem ctrlStep_of_not_admitted {a : Action} {r : Response} {s : State} (h : ¬(admitted a r = true ∧ r ≠ .hold)) :
    ctrlStep a r s = s := by
  rcases ctrlStep_cases a r s with hstay | ⟨hadm, hhold, -, -⟩
  · exact hstay
  · exact absurd ⟨hadm, hhold⟩ h

/-- A bus error ends every action but a Stop, whose answer it cannot be (R139). -/
theorem ctrlStep_busErr {a : Action} {s : State} (h : a ≠ .stop) : ctrlStep a .busErr s = completeBusErr s := by
  cases a
  case stop => exact absurd rfl h
  all_goals rfl

theorem completeTx_pending_ctrl (b : Byte) (ack : Bool) (s : State) :
    (completeTx b ack s).pending = none ∧ (completeTx b ack s).ctrl = { s.ctrl with int := true } := by
  unfold completeTx
  split <;> exact ⟨rfl, rfl⟩

/-- An answer that ends the action sets INT, but for a Stop's, which clears STO (R132, R138). -/
theorem ctrlStep_of_admitted {a : Action} {r : Response} (s : State) (h : admitted a r = true ∧ r ≠ .hold) :
    (ctrlStep a r s).pending = none ∧
    (ctrlStep a r s).ctrl = if a = .stop then { s.ctrl with sto := false } else { s.ctrl with int := true } := by
  rcases admitted_iff.1 h with ⟨rfl, rfl⟩ | ⟨rfl, rfl⟩ | ⟨b, ack, rfl, rfl⟩ | ⟨ea, x, rfl, rfl⟩ | ⟨hne, rfl⟩
  · exact ⟨rfl, rfl⟩
  · exact ⟨rfl, rfl⟩
  · exact completeTx_pending_ctrl b ack s
  · exact ⟨rfl, rfl⟩
  · rw [ctrlStep_busErr hne, if_neg hne]
    exact ⟨rfl, rfl⟩

/-- A controller step takes no further entry of the queue. -/
theorem ctrlStep_turns (a : Action) (r : Response) (s : State) : (ctrlStep a r s).turns = s.turns := by
  unfold ctrlStep completeTx
  (repeat' split) <;> rfl

/-! ### A CPU step takes no entry of the queue (20_memory.md R58) -/

/-- Where the outcome is a next state, the queue of turns there is `ts`. -/
def KeepsTurns (ts : List Turn) (o : Out) : Prop := ∀ t, o = .next t → t.turns = ts

theorem keepsTurns_next {ts : List Turn} {s : State} (h : s.turns = ts) : KeepsTurns ts (.next s) := by
  rintro _ ⟨⟩
  exact h

theorem keepsTurns_fault (ts : List Turn) (k : Fault) : KeepsTurns ts (.fault k) := fun _ h => nomatch h

theorem keepsTurns_refused (ts : List Turn) (r : Refusal) : KeepsTurns ts (.refused r) := fun _ h => nomatch h

theorem KeepsTurns.andThen {ts : List Turn} {o : Out} {f : State → State} (h : KeepsTurns ts o)
    (hf : ∀ u, (f u).turns = u.turns) : KeepsTurns ts (andThen o fun u => .next (f u)) := by
  intro t ht
  obtain ⟨u, hu, ⟨⟩⟩ := andThen_next_iff.1 ht
  exact (hf u).trans (h u hu)

theorem guardReady_keepsTurns {ts : List Turn} {op : DriverOp} {s : State} {go : State → Out}
    (h : KeepsTurns ts (go s)) : KeepsTurns ts (guardReady op s go) := fun t ht => by
  obtain ⟨-, -, hgo⟩ := guardReady_next ht
  exact h t hgo

theorem checkDevice_keepsTurns {ts : List Turn} {dev : Byte} {s : State} {go : State → Out}
    (h : KeepsTurns ts (go s)) : KeepsTurns ts (checkDevice dev s go) := fun t ht =>
  h t (checkDevice_next ht).2

theorem writeReg_keepsTurns (r : Reg) (v : Byte) (s : State) : KeepsTurns s.turns (writeReg r v s) := by
  intro t h
  rcases writeReg_cases h with ⟨_, rfl | rfl | rfl⟩ | h
  iterate 3 rfl
  rcases writeCtrl_cases h with ⟨_, rfl⟩ | ⟨_, rfl⟩ | ⟨_, rfl⟩ | ⟨_, rfl⟩ | ⟨_, rfl⟩ | ⟨_, _, rfl⟩ <;> rfl

theorem accessRead_turns (r : Reg) (s : State) : (accessRead r s).turns = s.turns := by
  cases r <;> simp only [accessRead, readReg, readData]
  split <;> rfl

theorem finishPrim_turns (r : Ret) (s : State) : (finishPrim r s).turns = s.turns := by
  obtain ⟨-, -, -, -, -, -, -, -, -, -, -, hturns, -, -⟩ := finishPrim_frame r s
  exact hturns

theorem pollStep_turns {b : Bool} {m : Byte} {f g : State → State} (hf : ∀ u, (f u).turns = u.turns)
    (hg : ∀ u, (g u).turns = u.turns) (s : State) : (pollStep b m f g s).turns = s.turns := by
  unfold pollStep
  dsimp only
  split
  · exact hf _
  · split
    · exact hg _
    · rfl

theorem primPoll_turns {b : Bool} {m : Byte} {f : State → State} (hf : ∀ u, (f u).turns = u.turns) (s : State) :
    (primPoll b m f s).turns = s.turns :=
  pollStep_turns hf (finishPrim_turns _) s

theorem beginStart_keepsTurns (s : State) : KeepsTurns s.turns (beginStart s) :=
  guardReady_keepsTurns ((writeReg_keepsTurns _ _ s).andThen
    (f := fun t => goOn .startPoll { t with txnOpen := true }) fun _ => rfl)

theorem beginStop_keepsTurns (s : State) : KeepsTurns s.turns (beginStop s) :=
  guardReady_keepsTurns ((writeReg_keepsTurns _ _ s).andThen fun _ => rfl)

theorem beginWrbyte_keepsTurns (b : Byte) (s : State) : KeepsTurns s.turns (beginWrbyte b s) :=
  guardReady_keepsTurns ((writeReg_keepsTurns _ _ s).andThen fun _ => rfl)

theorem beginRdbyte_keepsTurns (ack : Bool) (s : State) : KeepsTurns s.turns (beginRdbyte ack s) :=
  guardReady_keepsTurns ((writeReg_keepsTurns _ _ s).andThen fun _ => rfl)

theorem execInit_keepsTurns (s : State) : KeepsTurns s.turns (execInit s) := by
  unfold execInit
  split
  · exact keepsTurns_fault _ _
  · exact (writeReg_keepsTurns _ _ s).andThen fun _ => rfl

theorem execClose_keepsTurns (s : State) : KeepsTurns s.turns (execClose s) := by
  unfold execClose
  split
  · exact keepsTurns_fault _ _
  · exact (writeReg_keepsTurns _ _ s).andThen
      (f := fun t => finishPrim .unit { t with lifecycle := .closed, txnOpen := false, wedged := false })
      fun _ => finishPrim_turns _ _

theorem execWrCtrlIllegal_keepsTurns (ea sta : Bool) (s : State) : KeepsTurns s.turns (execWrCtrlIllegal ea sta s) := by
  unfold execWrCtrlIllegal
  split <;> exact keepsTurns_fault _ _

theorem exec_keepsTurns (i : Instr) (s : State) : KeepsTurns s.turns (exec i s) := by
  cases i
  case rdDiv | rdStatus | rdData | rdCtrl => exact keepsTurns_next (accessRead_turns _ s)
  case wrCtrlIllegal ea sta => exact execWrCtrlIllegal_keepsTurns ea sta s
  case init => exact execInit_keepsTurns s
  case close => exact execClose_keepsTurns s
  case start => exact beginStart_keepsTurns s
  case stop => exact beginStop_keepsTurns s
  case wrbyte b => exact beginWrbyte_keepsTurns b s
  case rdbyte ack => exact beginRdbyte_keepsTurns ack s
  case wrreg dev reg val => exact checkDevice_keepsTurns (beginStart_keepsTurns (wrStage dev reg val .start s))
  case rdreg dev reg => exact checkDevice_keepsTurns (beginStart_keepsTurns (rdStage dev reg .start s))
  all_goals
    simp only [exec]
    exact writeReg_keepsTurns _ _ s

theorem runWord_keepsTurns (w : Word) (s : State) : KeepsTurns s.turns (runWord w s) := fun t ht => by
  obtain ⟨i, -, hexec⟩ := runWord_next ht
  exact exec_keepsTurns i s t hexec

theorem jump_keepsTurns (l : Nat) (s : State) : KeepsTurns s.turns (jump l s) := fun t ht => by
  obtain ⟨n, rfl⟩ := jump_next ht
  rfl

theorem storeResult_turns (dst : Option Var) (s : State) : (storeResult dst s).turns = s.turns := by
  unfold storeResult
  split <;> rfl

theorem waitStmt_turns (b : Bool) (m : Byte) (s : State) : (waitStmt b m s).turns = s.turns :=
  pollStep_turns (f := advance) (g := fun t => advance { t with ret := some .busTimeout }) (fun _ => rfl) (fun _ => rfl) s

theorem busAccess_keepsTurns (k : BusKind) (addr width : Nat) (v : Byte) (s : State) :
    KeepsTurns s.turns (busAccess k addr width v s) := fun t ht => by
  obtain ⟨w, hw⟩ := busAccess_next ht
  exact runWord_keepsTurns w s t hw

theorem runStmt_keepsTurns (c : Stmt) (s : State) : KeepsTurns s.turns (runStmt c s) := by
  cases c
  case word w => exact runWord_keepsTurns w (advance s)
  case rd r dst => exact (runWord_keepsTurns (readWord r) (advance s)).andThen (storeResult_turns dst)
  case wr r e => exact runWord_keepsTurns _ (advance s)
  case waitSet m => exact keepsTurns_next (waitStmt_turns true m s)
  case waitClr m => exact keepsTurns_next (waitStmt_turns false m s)
  case ifGoto cond l =>
    simp only [runStmt]
    split
    · exact jump_keepsTurns l s
    · exact keepsTurns_next rfl
  case goto l => exact jump_keepsTurns l s
  case call p => exact exec_keepsTurns _ (advance s)
  case bus k addr width v => exact busAccess_keepsTurns k addr width v (advance s)
  case assign | test | label | ret => exact keepsTurns_next rfl

theorem startPolled_turns (s : State) : (startPolled s).turns = s.turns := by
  unfold startPolled
  split
  · rfl
  · exact finishPrim_turns _ s

theorem resumeRdbyteStatus_turns (s : State) : (resumeRdbyteStatus s).turns = s.turns := by
  simp only [resumeRdbyteStatus]
  split
  · rfl
  · exact finishPrim_turns _ _

theorem resumePrim_keepsTurns (p : PrimPoint) (s : State) : KeepsTurns s.turns (resumePrim p s) := by
  cases p
  case initDiv | wrbyteCtrl => exact (writeReg_keepsTurns _ _ s).andThen fun _ => rfl
  case initCtrl =>
    exact (writeReg_keepsTurns _ _ s).andThen (f := fun t => finishPrim .unit { t with lifecycle := .ready })
      fun _ => finishPrim_turns _ _
  case startPoll => exact keepsTurns_next (primPoll_turns startPolled_turns s)
  case stopPoll =>
    exact keepsTurns_next (primPoll_turns (f := fun t => finishPrim .unit { t with txnOpen := false })
      (fun _ => finishPrim_turns _ _) s)
  case wrbytePoll => exact keepsTurns_next (primPoll_turns (f := goOn .wrbyteStatus) (fun _ => rfl) s)
  case rdbytePoll => exact keepsTurns_next (primPoll_turns (f := goOn .rdbyteStatus) (fun _ => rfl) s)
  case startStatus | wrbyteStatus => exact keepsTurns_next (finishPrim_turns _ _)
  case rdbyteStatus => exact keepsTurns_next (resumeRdbyteStatus_turns s)
  case rdbyteData => exact keepsTurns_next ((finishPrim_turns _ _).trans (accessRead_turns .data s))

theorem resumeContract_keepsTurns (c : Contract) (s : State) : KeepsTurns s.turns (resumeContract c s) := by
  rcases c with ⟨dev, reg, val, st⟩ | ⟨dev, reg, st⟩ <;> cases st
  case wrreg.start | rdreg.start | rdreg.restart => exact beginStart_keepsTurns s
  case wrreg.stop | wrreg.abort | rdreg.stop | rdreg.abort => exact beginStop_keepsTurns s
  case rdreg.read => exact beginRdbyte_keepsTurns false s
  all_goals exact beginWrbyte_keepsTurns _ s

/-- Only the choice of who moves reads the queue, and it stands outside the CPU's step. -/
theorem cpuStep_keepsTurns (s : State) : KeepsTurns s.turns (cpuStep s) := by
  unfold cpuStep
  split
  · exact resumePrim_keepsTurns _ s
  split
  · exact resumeContract_keepsTurns _ s
  split
  · exact runStmt_keepsTurns _ s
  · exact keepsTurns_refused _ _

/-! ### When an action ends and INT is set -/

/-- Settles O24: an answer ends the action or is a stutter, and a quiet step is the CPU's. -/
theorem onlyAdmittedAnswersComplete : Obligations.OnlyAdmittedAnswersComplete := by
  refine ⟨?answer, ?quiet⟩
  case answer =>
    intro s a r ts hf hp ht
    refine ⟨_, step_ctrl hf hp ht, ctrlStep_turns a r _, ctrlStep_toDriver a r _, ⟨?ends, ?completes⟩, ?stutter⟩
    case ends =>
      intro hnone
      by_contra hnot
      rw [ctrlStep_of_not_admitted hnot] at hnone
      exact nomatch hp.symm.trans hnone
    case completes => exact fun hadm => (ctrlStep_of_admitted _ hadm).1
    case stutter =>
      intro hnot
      rw [ctrlStep_of_not_admitted hnot]
  case quiet =>
    intro s t hp hstep
    cases hf : s.fault with
    | none => exact cpuStep_keepsTurns s t ((step_quiet hf hp).symm.trans hstep)
    | some k => exact nomatch (step_faulted hf).symm.trans hstep

/-- Settles O25: INT is 0 while an action is pending, so a stutter and a Stop leave it 0. -/
theorem intSetExactlyByCompletions : Obligations.IntSetExactlyByCompletions := by
  intro s t a r ts k hf hp ht hstep
  obtain ⟨hint, -, -⟩ := k.pending_consistent a hp
  obtain rfl : ctrlStep a r { s with turns := ts } = t := by simpa [step_ctrl hf hp ht] using hstep
  by_cases hadm : admitted a r = true ∧ r ≠ .hold
  · rw [(ctrlStep_of_admitted _ hadm).2]
    by_cases hstop : a = .stop <;> simp [hstop, hint, hadm]
  · rw [ctrlStep_of_not_admitted hadm]
    simp [hint, hadm]

/-! ### The completions (R131 to R139) -/

theorem startCode_eq (ph : Phase) : startCode ph = if ph = .idle then 0x08 else 0x10 := by
  cases ph <;> rfl

/-- Bit 0 of the address byte is the direction: 0 for a write (R133). -/
theorem addressCode_eq (read ack : Bool) : addressCode read ack =
    if read = false then (if ack then 0x18 else 0x20) else (if ack then 0x40 else 0x48) := by
  cases read <;> cases ack <;> rfl

theorem addressPhase_eq (read ack : Bool) : addressPhase read ack =
    if read = false then (if ack then .mt else .mtNacked) else (if ack then .mr else .mrNacked) := by
  cases read <;> cases ack <;> rfl

/-- Settles O18. -/
theorem startCompletion : Obligations.StartCompletion := by
  intro s ts hf hp ht
  rw [step_ctrl hf hp ht, ← startCode_eq]
  rfl

/-- Settles O19: the phases in which STOP is on the bus are the owned ones. -/
theorem stopCompletion : Obligations.StopCompletion := by
  intro s ts hf hp ht
  simp only [step_ctrl hf hp ht, ← owned_iff]
  rfl

/-- Settles O20: the phase decides between an address and a data byte. -/
theorem transmitCompletion : Obligations.TransmitCompletion := by
  intro s b a ts hf hp ht
  rw [step_ctrl hf hp ht]
  constructor <;> intro hph
  · rw [← addressCode_eq, ← addressPhase_eq]
    exact congrArg _ (if_pos hph)
  · exact congrArg _ (if_neg (by simp [hph]))

/-- Settles O21. -/
theorem receptionCompletion : Obligations.ReceptionCompletion :=
  fun _ _ _ _ hf hp ht => step_ctrl hf hp ht

/-- Settles O22. -/
theorem busErrorCompletion : Obligations.BusErrorCompletion := by
  intro s a ts hf hp hne ht
  rw [step_ctrl hf hp ht, ctrlStep_busErr hne]
  rfl

/-- Settles O23: `Hold` is none of the answers that end an action. -/
theorem holdChangesNothing : Obligations.HoldChangesNothing := by
  intro s a ts hf hp ht
  rw [step_ctrl hf hp ht, ctrlStep_of_not_admitted (by simp)]

end Sys2Proof.Machine

/-! PROOFS. The lifecycle (42_bus_controller_lifecycle.md R160 to R162): what INIT and CLOSE do, the guard of the transaction
primitives, and that closing a controller that is off changes nothing INIT leaves. -/

namespace Sys2Proof.Machine

/-! ### The guard (R162) -/

theorem guardReady_blocked {op : DriverOp} {s : State} {go : State → Out} (h : s.lifecycle ≠ .ready ∨ s.wedged = true) :
    guardReady op s go = .fault (.lifecycleViolation op) :=
  if_pos h

/-- Settles O28: the guard comes before the first access. -/
theorem lifecycleGuardFaults : Obligations.LifecycleGuardFaults := by
  intro b ack s h
  simp only [exec, execStart, execStop, execWrbyte, execRdbyte, beginStart, beginStop, beginWrbyte, beginRdbyte,
    guardReady_blocked h, and_self]

/-! ### INIT (R160) -/

/-- The prescaler is bits 1:0 of the byte written for it (30_encoding.md R76). -/
theorem extractLsb'_prescalerByte (p : BitVec 2) : (prescalerByte p).extractLsb' 0 2 = p := by
  revert p; decide

theorem execInit_blocked {s : State} (h : s.txnOpen = true ∨ s.wedged = true) :
    execInit s = .fault (.lifecycleViolation .init) :=
  if_pos h

/-- Past its guard INIT is a write of STATUS. -/
theorem execInit_open {s : State} (htxn : s.txnOpen = false) (hwedged : s.wedged = false) :
    execInit s = andThen (writeReg .status (prescalerByte s.params.initPs) s) fun t => .next (goOn .initDiv t) := by
  simp [execInit, htxn, hwedged]

theorem execInit_quiet {s : State} (htxn : s.txnOpen = false) (hwedged : s.wedged = false) (hp : s.pending = none) :
    execInit s = .next { s with ps := s.params.initPs, prim := some .initDiv, polls := 0 } := by
  simp only [execInit_open htxn hwedged, writeReg, writeUnlessBusy_quiet hp, extractLsb'_prescalerByte]
  rfl

theorem execInit_busy {s : State} (htxn : s.txnOpen = false) (hwedged : s.wedged = false) (hp : s.pending ≠ none) :
    execInit s = .fault (.writeWhileBusy .status) := by
  simp only [execInit_open htxn hwedged, writeReg, writeUnlessBusy_busy hp, andThen_fault]

/-! ### Steps of a quiet driver -/

theorem run_succ_of_step {n : Nat} {s t : State} (h : step s = .next t) : run (n + 1) s = run n t := by
  simp [run, h]

/-- With no action pending the step is the next access of the primitive in progress (10_state.md R21). -/
theorem step_prim_quiet {p : PrimPoint} {s : State} (hf : s.fault = none) (hp : s.pending = none) (hprim : s.prim = some p) :
    step s = resumePrim p s := by
  rw [step_quiet hf hp, cpuStep, hprim]

/-- At a boundary with no action pending the step runs a call's instruction, the position advanced (30_encoding.md R86). -/
theorem step_call_quiet {c : Call} {s : State} (hb : atBoundary s) (hp : s.pending = none)
    (hc : s.program[s.pos]? = some (.call c)) : step s = exec (callInstr s.locals c) (advance s) :=
  step_stmt_quiet hb.1 hb.2.1 hb.2.2 hp hc

/-- INIT's second access, a write of DIV (R160). -/
theorem step_initDiv {s : State} (hf : s.fault = none) (hp : s.pending = none) (hprim : s.prim = some .initDiv) :
    step s = .next { s with div := s.params.initDiv, prim := some .initCtrl, polls := 0 } := by
  simp only [step_prim_quiet hf hp hprim, resumePrim, resumeInitDiv, writeReg, writeUnlessBusy_quiet hp]
  rfl

/-- INIT's third access, a CONFIG write with only EN set (R160, 40_register_access.md R103). -/
theorem step_initCtrl {s : State} (hf : s.fault = none) (hp : s.pending = none) (hprim : s.prim = some .initCtrl)
    (hcontract : s.contract = none) :
    step s = .next { s with
      ctrl := { int := s.ctrl.int, ea := false, sta := false, sto := false, en := true }
      phase := if s.phase = .off then .idle else s.phase
      code := if s.phase = .off then 0xF8 else s.code
      lifecycle := .ready, prim := none, polls := 0, ret := some .unit } := by
  have hwrite := (configStoresAndEnables false false false s).1 hp
  simp only [exec, execWrCtrlConfig, ← commandWords.1] at hwrite
  rw [step_prim_quiet hf hp hprim, resumePrim, resumeInitCtrl, hwrite]
  exact congrArg Host.Outcome.next (finishPrim_plain hcontract)

/-- Settles O26: the three steps of a call are the three accesses. -/
theorem initConfiguresAndEnables : Obligations.InitConfiguresAndEnables := by
  refine fun s => ⟨execInit_blocked, execInit_quiet, execInit_busy, fun htxn hwedged hp hb hc => ?_⟩
  have hfirst := (step_call_quiet hb hp hc).trans (execInit_quiet (s := advance s) htxn hwedged hp)
  obtain ⟨hf, -, hcontract⟩ := hb
  rw [run_succ_of_step hfirst, run_succ_of_step (step_initDiv ?_ ?_ rfl), run_succ_of_step (step_initCtrl ?_ ?_ rfl ?_)]
  · rfl
  all_goals assumption

/-! ### CLOSE (R161) -/

/-- Settles O27: past its guard CLOSE is a disable that clears every stored bit but INT (40_register_access.md R102). -/
theorem closeDisablesOrFaults : Obligations.CloseDisablesOrFaults := by
  refine fun s hcontract => ⟨fun htxn hwedged => if_pos ⟨htxn, hwedged⟩, fun hguard => ?_⟩
  have hwrite := disableAbortsAndKeepsData false false false false s
  simp only [exec, execWrCtrlDisable, ← commandWords.2.1, Bool.not_false, Bool.and_true] at hwrite
  have hopen : ¬(s.txnOpen = true ∧ s.wedged = false) := by
    rcases hguard with h | h <;> simp [h]
  rw [exec, execClose, if_neg hopen, hwrite]
  exact congrArg Host.Outcome.next (finishPrim_plain hcontract)

/-! ### Closing before initializing (95_test_vectors.md L1-4, program P4) -/

/-- A driver at a boundary that owes the bus nothing: the controller is off and quiet, no transaction is open. -/
structure OffQuiet (s : State) : Prop where
  boundary : atBoundary s
  quiet : s.pending = none
  closed : s.txnOpen = false
  not_wedged : s.wedged = false
  off : s.phase = .off

/-- The controller after the three accesses of INIT (R160). -/
def Controller.initialized (q : Params) (k : Controller) : Controller :=
  { k with
    ps := q.initPs, div := q.initDiv
    ctrl := { int := k.ctrl.int, ea := false, sta := false, sto := false, en := true }
    phase := if k.phase = .off then .idle else k.phase
    code := if k.phase = .off then 0xF8 else k.code }

/-- What INIT leaves of the controller `k`: its registers written, and a ready driver at a boundary. -/
structure InitLeaves (q : Params) (k : Controller) (u : State) : Prop where
  controller : u.toController = k.initialized q
  ready : u.lifecycle = .ready
  closed : u.txnOpen = false
  not_wedged : u.wedged = false
  boundary : atBoundary u

theorem run_init {s : State} (h : OffQuiet s) (hc : s.program[s.pos]? = some (.call .init)) :
    ∃ u, run 3 s = .next u ∧ InitLeaves s.params s.toController u := by
  obtain ⟨-, -, -, hrun⟩ := initConfiguresAndEnables s
  exact ⟨_, hrun h.closed h.not_wedged h.quiet h.boundary hc,
    rfl, rfl, h.closed, h.not_wedged, h.boundary.1, rfl, h.boundary.2.2⟩

/-- CLOSE with the controller off clears CTRL but for INT and sets the code to 0xF8, and INIT writes all of these. -/
theorem step_close_off {s : State} (h : OffQuiet s) (hc : s.program[s.pos]? = some (.call .close)) :
    ∃ t, step s = .next t ∧ OffQuiet t ∧ t.pos = s.pos + 1 ∧
      t.toController.initialized s.params = s.toController.initialized s.params := by
  obtain ⟨-, hclose⟩ := closeDisablesOrFaults (advance s) h.boundary.2.2
  refine ⟨_, (step_call_quiet h.boundary h.quiet hc).trans (hclose (.inl h.closed)),
    ⟨⟨h.boundary.1, rfl, h.boundary.2.2⟩, rfl, rfl, rfl, rfl⟩, rfl, ?_⟩
  simp [Controller.initialized, h.quiet, h.off]

/-- Any number of closes, then INIT: each close keeps the controller that INIT is going to leave. -/
theorem run_closes_init (n : Nat) {s : State} (h : OffQuiet s)
    (hc : s.program.drop s.pos = List.replicate n (.call .close) ++ [.call .init]) :
    ∃ u, run (n + 3) s = .next u ∧ InitLeaves s.params s.toController u := by
  induction n generalizing s with
  | zero =>
    rw [Nat.zero_add]
    exact run_init h (by rw [← List.head?_drop, hc]; rfl)
  | succ n ih =>
    obtain ⟨t, hstep, ht, hpos, hcontroller⟩ := step_close_off h (by rw [← List.head?_drop, hc]; rfl)
    obtain ⟨hparams, hprogram, -⟩ := stepKeepsParametersAndProgram s t hstep
    have htail : t.program.drop t.pos = List.replicate n (.call .close) ++ [.call .init] := by
      rw [hprogram, hpos, ← List.tail_drop, hc]; rfl
    obtain ⟨u, hrun, hu⟩ := ih ht htail
    refine ⟨u, ?_, { hu with controller := ?_ }⟩
    · rw [Nat.succ_add, run_succ_of_step hstep, hrun]
    · rw [hu.controller, hparams, hcontroller]

/-- Settles O29: with the closes and without them the run leaves what INIT makes of the same controller. -/
theorem repeatedCloseThenInitIsInit : Obligations.RepeatedCloseThenInitIsInit := by
  intro n s t hb hp htxn hwedged hoff hpos hprogram ht
  obtain ⟨t', ht', hdirect⟩ := run_init ⟨hb, hp, htxn, hwedged, hoff⟩ (by rw [hpos, hprogram]; rfl)
  obtain rfl : t = t' := by simpa [ht] using ht'
  obtain ⟨u, hu, hcloses⟩ := run_closes_init n
    (s := { s with program := List.replicate n (.call .close) ++ [.call .init] })
    ⟨hb, hp, htxn, hwedged, hoff⟩ (by simp [hpos])
  exact ⟨u, hu, hcloses.controller.trans hdirect.controller.symm, hcloses.ready, hcloses.closed, hcloses.not_wedged,
    hcloses.boundary⟩

end Sys2Proof.Machine

/-! PROOFS. The transaction primitives START and STOP (43_transaction_primitives.md R172, R173) and the poll loops every primitive
waits in (R170, R171): the first access, a wait under a schedule of polls and holds, its end by an answer, and its giving up. -/

namespace Sys2Proof.Machine

/-! ### The first access (R172, R173) -/

/-- Past its guard `start()` is the START command. -/
theorem beginStart_ready {s : State} (h : driverReady s) :
    beginStart s = andThen (exec (.wrCtrlStart false) s) fun t => .next (goOn .startPoll { t with txnOpen := true }) := by
  obtain ⟨-, -, hbyte, -⟩ := commandWords
  rw [beginStart, guardReady_ready h, hbyte]
  rfl

/-- Past its guard `stop()` is the STOP command. -/
theorem beginStop_ready {s : State} (h : driverReady s) :
    beginStop s = andThen (exec (.wrCtrlStop false) s) fun t => .next (goOn .stopPoll t) := by
  obtain ⟨-, -, -, hbyte, -⟩ := commandWords
  rw [beginStop, guardReady_ready h, hbyte]
  rfl

/-- Settles O30: past the guard the first access is the CTRL write of the START or of the STOP command. -/
theorem transactionPrimitivesBegin : Obligations.TransactionPrimitivesBegin := by
  intro s hready
  obtain ⟨hstart, hstartBusy, hstartBusErr⟩ := startCommandIssuesStart false s
  obtain ⟨hstop, hstopBusy⟩ := stopCommandIssuesStop false s
  have hexecStart : exec .start s = _ := beginStart_ready hready
  have hexecStop : exec .stop s = _ := beginStop_ready hready
  rw [hexecStart, hexecStop]
  refine ⟨fun hp hph => ?_, fun hp hph => ?_, fun hp => ?_, fun hp => ⟨?_, ?_⟩⟩
  · rw [hstart hp hph]; rfl
  · rw [hstartBusErr hp hph]; rfl
  · rw [hstop hp]; rfl
  · rw [hstartBusy hp]; rfl
  · rw [hstopBusy hp]; rfl

/-! ### One poll read (R170, R171) -/

/-- A wait on INT looks at bit 7 of CTRL. -/
theorem pollExits_int (s : State) : pollExits true 0x80 (ctrlByte s) = s.ctrl.int := by
  have hbit : ∀ int ea sta sto en, pollExits true 0x80 (packCtrl int ea sta sto en) = int := by decide
  exact hbit _ _ _ _ _

/-- A wait on STO looks at bit 4 of CTRL, which is to be clear. -/
theorem pollExits_sto (s : State) : pollExits false 0x10 (ctrlByte s) = !s.ctrl.sto := by
  have hbit : ∀ int ea sta sto en, pollExits false 0x10 (packCtrl int ea sta sto en) = !sto := by decide
  exact hbit _ _ _ _ _

/-- `s` with `rest` left of the queue and `k` poll reads made, of which the latest left `c` and the result `r`. -/
def polled (rest : List Turn) (k : Nat) (c : Byte) (r : Option Byte) (s : State) : State :=
  { s with turns := rest, polls := k, locals := { s.locals with c := c }, result := r }

theorem pollRead_eq (s : State) : pollRead s = polled s.turns (s.polls + 1) (ctrlByte s) (some (ctrlByte s)) s := rfl

/-- The point `p` is a poll loop whose flag CTRL does not show yet: INT is 0, or in `stop()` STO is 1. -/
def PollWaits (k : Ctrl) : PrimPoint → Prop
  | .startPoll | .wrbytePoll | .rdbytePoll => k.int = false
  | .stopPoll => k.sto = true
  | .initDiv | .initCtrl | .startStatus | .wrbyteCtrl | .wrbyteStatus | .rdbyteStatus | .rdbyteData => False

/-- What a read leaves that does not end the wait: the primitive stays, or gives up after the last read allowed (R171). -/
def pollFailed (s : State) : State :=
  if pollLimitReached (pollRead s) then finishPrim .busTimeout { pollRead s with polls := 0, wedged := true } else pollRead s

theorem primPoll_of_not_exits {b : Bool} {m : Byte} {f : State → State} {s : State} (h : pollExits b m (ctrlByte s) = false) :
    primPoll b m f s = pollFailed s :=
  if_neg (by simp [pollRead_eq, polled, h])

theorem primPoll_of_exits {b : Bool} {m : Byte} {f : State → State} {s : State} (h : pollExits b m (ctrlByte s) = true) :
    primPoll b m f s = f { pollRead s with polls := 0 } :=
  if_pos h

/-- While the flag is missing, the four poll loops do the same. -/
theorem resumePrim_of_pollWaits {p : PrimPoint} {s : State} (h : PollWaits s.ctrl p) : resumePrim p s = .next (pollFailed s) := by
  cases p
  case startPoll | wrbytePoll | rdbytePoll =>
    exact congrArg Host.Outcome.next (primPoll_of_not_exits ((pollExits_int s).trans h))
  case stopPoll =>
    have hsto : s.ctrl.sto = true := h
    exact congrArg Host.Outcome.next (primPoll_of_not_exits (by rw [pollExits_sto, hsto]; rfl))
  all_goals exact h.elim

/-- POLL_LIMIT allows `k` failing reads more without giving up (R171). -/
def ReadsLeft (k : Nat) (s : State) : Prop := ∀ n, s.params.pollLimit = some n → s.polls + k < n

theorem readsLeft_of_unlimited {s : State} (k : Nat) (h : s.params.pollLimit = none) : ReadsLeft k s := by
  simp [ReadsLeft, h]

theorem pollLimitReached_iff {s : State} :
    pollLimitReached s = true ↔ ∃ n, s.params.pollLimit = some n ∧ n ≤ s.polls := by
  unfold pollLimitReached
  split <;> simp [*]

theorem pollFailed_of_readsLeft {s : State} (h : ReadsLeft 1 s) : pollFailed s = pollRead s := by
  refine if_neg fun hreached => ?_
  obtain ⟨n, hn, hle⟩ := pollLimitReached_iff.1 hreached
  exact absurd (h n hn) (not_lt.2 hle)

theorem pollFailed_of_lastRead {s : State} (h : s.params.pollLimit = some (s.polls + 1)) :
    pollFailed s = finishPrim .busTimeout { pollRead s with polls := 0, wedged := true } :=
  if_pos ((pollLimitReached_iff (s := pollRead s)).2 ⟨_, h, le_rfl⟩)

theorem run_snoc {n : Nat} {s t u : State} (hrun : run n s = .next t) (hstep : step t = .next u) : run (n + 1) s = .next u := by
  rw [run_add, hrun]
  exact run_succ_of_step (n := 0) hstep

/-! ### A wait (R170, 41_controller_actions.md R137) -/

/-- The primitive in progress stands at the poll loop `p` and waits for the end of the action `a`. -/
structure Waiting (s : State) (p : PrimPoint) (a : Action) : Prop where
  no_fault : s.fault = none
  at_point : s.prim = some p
  in_flight : s.pending = some a
  waits : PollWaits s.ctrl p

/-- Under the hardware invariant a primitive at the poll loop of its own action waits: INT is 0, and STO is 1 for a Stop. -/
theorem HardwareInv.waiting {s : State} {p : PrimPoint} {a : Action} (k : HardwareInv s) (hf : s.fault = none)
    (hprim : s.prim = some p) (hp : s.pending = some a)
    (hown : (p = .stopPoll ∧ a = .stop) ∨ (p ∈ [.startPoll, .wrbytePoll, .rdbytePoll] ∧ a ≠ .stop)) : Waiting s p a := by
  refine ⟨hf, hprim, hp, ?_⟩
  rcases hown with ⟨rfl, rfl⟩ | ⟨hmem, -⟩
  · exact k.stop_requested hp
  · obtain ⟨hint, -, -⟩ := k.pending_consistent a hp
    simp only [List.mem_cons, List.not_mem_nil, or_false] at hmem
    rcases hmem with rfl | rfl | rfl <;> exact hint

theorem Waiting.after_polls {s : State} {p : PrimPoint} {a : Action} (h : Waiting s p a) (rest : List Turn) (k : Nat) (c : Byte)
    (r : Option Byte) : Waiting (polled rest k c r s) p a :=
  ⟨h.no_fault, h.at_point, h.in_flight, h.waits⟩

/-- On the CPU's turn a wait makes one read. -/
theorem Waiting.step_read {s : State} {p : PrimPoint} {a : Action} {ts : List Turn} (h : Waiting s p a)
    (hts : s.turns = .cpu :: ts) : step s = .next (pollFailed { s with turns := ts }) := by
  have hready : cpuReady { s with turns := ts } = true := by simp [cpuReady, h.at_point]
  rw [step_cpu h.no_fault h.in_flight hts hready, cpuStep]
  simp only [h.at_point]
  exact resumePrim_of_pollWaits h.waits

theorem Waiting.step_poll {s : State} {p : PrimPoint} {a : Action} {ts : List Turn} (h : Waiting s p a)
    (hts : s.turns = .cpu :: ts) (hleft : ReadsLeft 1 s) :
    step s = .next (polled ts (s.polls + 1) (ctrlByte s) (some (ctrlByte s)) s) := by
  rw [h.step_read hts]
  exact congrArg Host.Outcome.next (pollFailed_of_readsLeft hleft)

theorem Waiting.step_hold {s : State} {p : PrimPoint} {a : Action} {ts : List Turn} (h : Waiting s p a)
    (hts : s.turns = .ctrl .hold :: ts) : step s = .next (polled ts s.polls s.locals.c s.result s) :=
  holdChangesNothing s a ts h.no_fault h.in_flight hts

/-- While POLL_LIMIT allows it, polls and holds leave a wait where it is, and only the reads count. -/
theorem Waiting.run_idle {s : State} {p : PrimPoint} {a : Action} {ts rest : List Turn} (h : Waiting s p a)
    (hidle : idleTurns ts = true) (hts : s.turns = ts ++ rest) (hleft : ReadsLeft (cpuTurns ts) s) :
    ∃ c r, run ts.length s = .next (polled rest (s.polls + cpuTurns ts) c r s) := by
  induction ts generalizing s with
  | nil =>
    obtain rfl : s.turns = rest := hts
    exact ⟨s.locals.c, s.result, rfl⟩
  | cons t ts ih =>
    simp only [idleTurns, List.all_cons, Bool.and_eq_true, Bool.or_eq_true, beq_iff_eq] at hidle
    obtain ⟨rfl | rfl, hidle⟩ := hidle
    · have hcount : cpuTurns (.cpu :: ts) = 1 + cpuTurns ts := by simp [cpuTurns, Nat.add_comm]
      rw [hcount] at hleft ⊢
      have hnow : ReadsLeft 1 s := fun n hn => by have := hleft n hn; omega
      have hlater : ReadsLeft (cpuTurns ts) (polled (ts ++ rest) (s.polls + 1) (ctrlByte s) (some (ctrlByte s)) s) :=
        fun n hn => (Nat.add_assoc ..).trans_lt (hleft n hn)
      obtain ⟨c, r, hrun⟩ := ih (h.after_polls _ _ _ _) hidle rfl hlater
      refine ⟨c, r, ?_⟩
      rw [← Nat.add_assoc]
      exact (run_succ_of_step (h.step_poll hts hnow)).trans hrun
    · have hcount : cpuTurns (.ctrl .hold :: ts) = cpuTurns ts := by simp [cpuTurns]
      rw [hcount] at hleft ⊢
      obtain ⟨c, r, hrun⟩ := ih (h.after_polls (ts ++ rest) s.polls s.locals.c s.result) hidle rfl hleft
      exact ⟨c, r, (run_succ_of_step (h.step_hold hts)).trans hrun⟩

/-- Settles O47: without POLL_LIMIT every schedule of polls and holds leaves the wait where it is. -/
theorem holdForeverHangs : Obligations.HoldForeverHangs := by
  intro s p a ts rest k hf hprim hp hown hlimit hidle hts
  obtain ⟨c, r, hrun⟩ := (k.waiting hf hprim hp hown).run_idle hidle hts (readsLeft_of_unlimited _ hlimit)
  exact ⟨_, hrun, hprim, rfl, rfl, rfl⟩

/-! ### A bounded wait gives up (R171, 45_register_access_contract.md R203) -/

/-- What is returned when a wait of a primitive times out, in a contract call or called by a program. -/
def timeoutRet : Option Contract → Ret
  | none => .busTimeout
  | some (.wrreg _ _ _ _) => .bool false
  | some (.rdreg _ _ _) => .regValue none

theorem wrregReturn_timeout {dev reg val : Byte} {st : WrStage} {s : State} (h : s.wedged = true) :
    wrregReturn dev reg val st .busTimeout s = contractDone (.bool false) s := by
  cases st <;> simp [wrregReturn, succeeded, h]

theorem rdregReturn_timeout {dev reg : Byte} {st : RdStage} {s : State} (h : s.wedged = true) :
    rdregReturn dev reg st .busTimeout s = contractDone (.regValue none) s := by
  cases st <;> simp [rdregReturn, succeeded, h]

/-- A timeout ends the primitive and the contract call around it, whichever call of it this is. -/
theorem finishPrim_timeout {s : State} (h : s.wedged = true) : finishPrim .busTimeout s =
    { s with prim := none, contract := none, polls := 0, ret := some (timeoutRet s.contract) } := by
  rcases hc : s.contract with _ | ⟨dev, reg, val, st⟩ | ⟨dev, reg, st⟩
  · simp [finishPrim_plain hc, timeoutRet, hc]
  · simp [finishPrim, hc, wrregReturn_timeout, contractDone, timeoutRet, h]
  · simp [finishPrim, hc, rdregReturn_timeout, contractDone, timeoutRet, h]

/-- The last read allowed ends the primitive and the contract call around it, and leaves the controller as it is. -/
theorem Waiting.step_lastRead {s : State} {p : PrimPoint} {a : Action} {ts : List Turn} (h : Waiting s p a)
    (hts : s.turns = .cpu :: ts) (hlimit : s.params.pollLimit = some (s.polls + 1)) :
    step s = .next { polled ts 0 (ctrlByte s) (some (ctrlByte s)) s with
      wedged := true, prim := none, contract := none, ret := some (timeoutRet s.contract) } := by
  rw [h.step_read hts]
  exact congrArg Host.Outcome.next ((pollFailed_of_lastRead (s := { s with turns := ts }) hlimit).trans (finishPrim_timeout rfl))

/-- Settles O46: all reads but the last leave the wait where it is, and the last one times out. -/
theorem boundedWaitGivesUp : Obligations.BoundedWaitGivesUp := by
  intro s p a n rest k hf hprim hp hown hpolls hn hlimit hts
  obtain ⟨m, rfl⟩ := Nat.exists_eq_add_of_le' hn
  have hw := k.waiting hf hprim hp hown
  have hcount : s.polls + cpuTurns (List.replicate m .cpu) = m := by simp [cpuTurns, hpolls]
  have hidle : idleTurns (List.replicate m .cpu) = true := by simp [idleTurns]
  have hleft : ReadsLeft (cpuTurns (List.replicate m .cpu)) s := by simp [ReadsLeft, hcount, hlimit]
  rw [List.replicate_succ', List.append_assoc] at hts
  obtain ⟨c, r, hrun⟩ := hw.run_idle hidle hts hleft
  rw [List.length_replicate, hcount] at hrun
  refine ⟨_, run_snoc hrun ((hw.after_polls _ _ c r).step_lastRead rfl hlimit), rfl, rfl, rfl, rfl, ?_, rfl, rfl, rfl, rfl⟩
  change some (timeoutRet s.contract) = _
  rcases s.contract with _ | _ | _ <;> rfl

/-! ### A wait that the environment ends (41_controller_actions.md R142) -/

/-- Whatever polls and holds come first, the answer `r` meets the action in flight. -/
theorem Waiting.run_answer {s : State} {p : PrimPoint} {a : Action} {ts rest : List Turn} {r : Response} (h : Waiting s p a)
    (hlimit : s.params.pollLimit = none) (hidle : idleTurns ts = true) (hts : s.turns = thenAnswer ts r rest) :
    ∃ k c x, run (ts.length + 1) s = .next (ctrlStep a r (polled rest k c x s)) := by
  obtain ⟨c, x, hrun⟩ := h.run_idle hidle hts (readsLeft_of_unlimited _ hlimit)
  exact ⟨s.polls + cpuTurns ts, c, x, run_snoc hrun (step_ctrl h.no_fault h.in_flight rfl)⟩

/-- A first access that begins a wait, then the wait up to the answer. -/
theorem run_begin_answer {s t : State} {p : PrimPoint} {a : Action} {ts rest : List Turn} {r : Response}
    (hfirst : step s = .next t) (h : Waiting t p a) (hlimit : t.params.pollLimit = none) (hidle : idleTurns ts = true)
    (hts : t.turns = thenAnswer ts r rest) :
    ∃ k c x, run (ts.length + 2) s = .next (ctrlStep a r (polled rest k c x t)) := by
  obtain ⟨k, c, x, hrun⟩ := h.run_answer hlimit hidle hts
  exact ⟨k, c, x, (run_succ_of_step hfirst).trans hrun⟩

theorem commandPhase_eq_idle {ph : Phase} : commandPhase ph = .idle ↔ ph = .off ∨ ph = .idle := by
  cases ph <;> simp [commandPhase]

@[simp] theorem owned_commandPhase (ph : Phase) : owned (commandPhase ph) = owned ph := by cases ph <;> rfl

/-! ### `stop()` completes (R173) -/

/-- `s` after the STOP of a `stop()` has completed (41_controller_actions.md R132), the driver still at its poll. -/
def stopDone (s : State) : State :=
  { s with
    ctrl := { int := false, ea := false, sta := false, sto := false, en := true }
    code := 0xF8
    busLog := if owned s.phase = true then s.busLog ++ [.stop] else s.busLog
    phase := .idle, pending := none, prim := some .stopPoll }

theorem completeStop_issued (rest : List Turn) (k : Nat) (c : Byte) (x : Option Byte) (s : State) :
    completeStop (polled rest k c x { s with
      ctrl := { int := false, ea := false, sta := false, sto := true, en := true }
      phase := if s.phase = .off then .idle else s.phase
      pending := some .stop, code := 0xF8, prim := some .stopPoll, polls := 0 }) =
    polled rest k c x (stopDone s) := by
  simp only [← commandPhase_eq]
  simp [completeStop, polled, stopDone, codeNoInfo]

/-- The read that finds STO clear ends `stop()` (R173). -/
theorem step_stopPoll {s : State} (hf : s.fault = none) (hp : s.pending = none) (hprim : s.prim = some .stopPoll)
    (hsto : s.ctrl.sto = false) :
    step s = .next (finishPrim .unit { polled s.turns 0 (ctrlByte s) (some (ctrlByte s)) s with txnOpen := false }) := by
  rw [step_prim_quiet hf hp hprim, resumePrim, resumeStopPoll, primPoll_of_exits (by rw [pollExits_sto, hsto]; rfl)]
  rfl

/-- The STOP command, the wait up to the answer, and the read that finds STO clear, whoever called `stop()`. -/
theorem run_stop {s u : State} {ts rest : List Turn} (hfirst : step s = exec .stop u) (hf : u.fault = none)
    (hready : driverReady u) (hp : u.pending = none) (hlimit : u.params.pollLimit = none) (hidle : idleTurns ts = true)
    (hts : u.turns = thenAnswer ts .stopOk rest) :
    run (ts.length + 3) s =
      .next (finishPrim .unit { polled rest 0 0x04 (some 0x04) (stopDone u) with txnOpen := false }) := by
  obtain ⟨-, -, hstop, -⟩ := transactionPrimitivesBegin u hready
  obtain ⟨k, c, x, hrun⟩ :=
    run_begin_answer (p := .stopPoll) (hfirst.trans (hstop hp)) ⟨hf, rfl, rfl, rfl⟩ hlimit hidle hts
  have hdone := hrun.trans (congrArg Host.Outcome.next (completeStop_issued rest k c x u))
  have hread := step_stopPoll (s := polled rest k c x (stopDone u)) hf rfl rfl rfl
  have hbyte : ctrlByte (polled rest k c x (stopDone u)) = packCtrl false false false false true := rfl
  rw [hbyte, ← commandWords.1] at hread
  exact run_snoc hdone hread

/-- Settles O32: `stop()` called by a program. -/
theorem stopCompletesUnderEverySchedule : Obligations.StopCompletesUnderEverySchedule := by
  intro s ts rest hb hready hp hc hlimit hidle hts
  have hrun := run_stop (step_call_quiet hb hp hc) hb.1 hready hp hlimit hidle hts
  obtain ⟨-, hprim, hcontract⟩ := hb
  rw [finishPrim_plain] at hrun
  · simp [hrun, polled, stopDone, owned_iff, hp, hprim]
  · exact hcontract

/-! ### `start()` completes (R172) -/

theorem startCode_commandPhase (ph : Phase) :
    startCode (commandPhase ph) = if ph = .off ∨ ph = .idle then 0x08 else 0x10 := by
  simp only [startCode_eq, commandPhase_eq_idle]

/-- `s` after the START of a `start()` has completed (41_controller_actions.md R131), the driver still at its poll. -/
def startDone (s : State) : State :=
  { s with
    ctrl := { int := true, ea := false, sta := true, sto := false, en := true }
    code := if s.phase = .off ∨ s.phase = .idle then 0x08 else 0x10
    busLog := s.busLog ++ [if s.phase = .off ∨ s.phase = .idle then .start else .rstart]
    phase := .started, pending := none, txnOpen := true, prim := some .startPoll }

theorem completeStart_issued (rest : List Turn) (k : Nat) (c : Byte) (x : Option Byte) (s : State) :
    completeStart (polled rest k c x { s with
      ctrl := { int := false, ea := false, sta := true, sto := false, en := true }
      phase := if s.phase = .off then .idle else s.phase
      pending := some .start, code := 0xF8, txnOpen := true, prim := some .startPoll, polls := 0 }) =
    polled rest k c x (startDone s) := by
  simp only [← commandPhase_eq]
  simp [completeStart, complete, polled, startDone, startCode_commandPhase, commandPhase_eq_idle]

/-- The code of a completed START is one of START_OK (30_encoding.md R79), whatever the prescaler. -/
theorem startOk_startDone {s u : State} (hcode : u.code = (startDone s).code) : startOk (statusByte u) = true := by
  have hmask : ∀ ps : BitVec 2, startOk (0x08 ||| ps.setWidth 8) = true ∧ startOk (0x10 ||| ps.setWidth 8) = true := by decide
  obtain ⟨hfirst, hrepeated⟩ := hmask u.ps
  rw [statusByte, hcode]
  simp only [startDone]
  split_ifs <;> assumption

/-- The read that finds INT set ends the wait of `start()` (R172). -/
theorem step_startPoll {s : State} (hf : s.fault = none) (hp : s.pending = none) (hprim : s.prim = some .startPoll)
    (hint : s.ctrl.int = true) :
    step s = .next (startPolled (polled s.turns 0 (ctrlByte s) (some (ctrlByte s)) s)) := by
  rw [step_prim_quiet hf hp hprim, resumePrim, resumeStartPoll, primPoll_of_exits ((pollExits_int s).trans hint)]
  rfl

/-- The STATUS read of a checked `start()` that finds a code of START_OK (R172). -/
theorem step_startStatus {s : State} (hf : s.fault = none) (hp : s.pending = none) (hprim : s.prim = some .startStatus)
    (hok : startOk (statusByte s) = true) :
    step s = .next (finishPrim .startOk { s with
      locals := { s.locals with st := statusByte s, ok := 1, s := maskCode (statusByte s) }
      result := some (statusByte s) }) := by
  rw [step_prim_quiet hf hp hprim, resumePrim, resumeStartStatus, hok]
  rfl

/-- The START command, the wait up to the answer, and the read that finds INT set, whoever called `start()`. -/
theorem run_start {s u : State} {ts rest : List Turn} (hfirst : step s = exec .start u) (hf : u.fault = none)
    (hready : driverReady u) (hp : u.pending = none) (hph : u.phase ≠ .busErr) (hlimit : u.params.pollLimit = none)
    (hidle : idleTurns ts = true) (hts : u.turns = thenAnswer ts .startOk rest) :
    run (ts.length + 3) s = .next (startPolled (polled rest 0 0xA4 (some 0xA4) (startDone u))) := by
  obtain ⟨hstart, -⟩ := transactionPrimitivesBegin u hready
  obtain ⟨k, c, x, hrun⟩ :=
    run_begin_answer (p := .startPoll) (hfirst.trans (hstart hp hph)) ⟨hf, rfl, rfl, rfl⟩ hlimit hidle hts
  have hdone := hrun.trans (congrArg Host.Outcome.next (completeStart_issued rest k c x u))
  have hread := step_startPoll (s := polled rest k c x (startDone u)) hf rfl rfl rfl
  have hbyte : ctrlByte (polled rest k c x (startDone u)) = packCtrl true false true false true := rfl
  obtain ⟨-, -, hcommand, -⟩ := commandWords
  rw [hbyte, ← hcommand] at hread
  exact run_snoc hdone hread

/-- Settles O31: called by a program, an unchecked `start()` returns with the read that finds INT set, a checked one with its
STATUS read. -/
theorem startCompletesUnderEverySchedule : Obligations.StartCompletesUnderEverySchedule := by
  intro s ts rest hb hready hp hph hc hlimit hidle hts
  have hrun := run_start (step_call_quiet hb hp hc) hb.1 hready hp hph hlimit hidle hts
  obtain ⟨hf, hprim, hcontract⟩ := hb
  cases hcheck : s.params.startCheck with
  | false =>
    rw [startPolled, if_neg, finishPrim_plain] at hrun
    · refine ⟨{ s.locals with c := 0xA4 }, some 0xA4, hrun.trans ?_, rfl, rfl⟩
      simp [polled, startDone, hp, hprim]
    · exact hcontract
    · simp [polled, startDone, hcheck]
  | true =>
    rw [startPolled, if_pos] at hrun
    · have hstatus := run_snoc hrun (step_startStatus hf rfl rfl (startOk_startDone (s := s) rfl))
      rw [finishPrim_plain] at hstatus
      · refine ⟨{ s.locals with c := 0xA4, st := statusByte (startDone s), ok := 1, s := maskCode (statusByte (startDone s)) },
          some (statusByte (startDone s)), hstatus.trans ?_, rfl, rfl⟩
        simp [polled, startDone, goOn, statusByte, hp, hprim]
      · exact hcontract
    · exact hcheck

end Sys2Proof.Machine

/-! PROOFS. The byte transfers WRBYTE and RDBYTE (44_byte_transfer.md R180 to R186): the continue command both rest on, a byte's run
under a schedule of polls and holds up to its status read, whoever called it, and what each answer of the environment makes of it. -/

namespace Sys2Proof.Machine

/-! ### The continue command (30_encoding.md R74) -/

/-- The action a continue write with the ACK bit `ea` issues in STARTED, MT and MR. -/
def byteAction (ea : Bool) (s : State) : Action := if s.phase = .mr then .rx ea else .tx s.data

/-- `s` after a continue write with the ACK bit `ea` in STARTED, MT or MR. -/
def byteIssued (ea : Bool) (s : State) : State :=
  { s with
    ctrl := { int := false, ea := ea, sta := false, sto := false, en := true }
    pending := some (byteAction ea s), code := 0xF8 }

/-- In STARTED and MT a byte is sent, in MR one is received. -/
theorem mem_transferring {ph : Phase} : ph ∈ [.started, .mt, .mr] ↔ (ph = .started ∨ ph = .mt) ∨ ph = .mr := by
  simp [or_assoc]

theorem byteAction_mr {ea : Bool} {s : State} (hph : s.phase = .mr) : byteAction ea s = .rx ea := if_pos hph

theorem byteAction_tx {ea : Bool} {s : State} (hph : s.phase = .started ∨ s.phase = .mt) : byteAction ea s = .tx s.data :=
  if_neg (by rcases hph with h | h <;> simp [h])

theorem byteAction_ne_stop (ea : Bool) (s : State) : byteAction ea s ≠ .stop := by
  unfold byteAction
  split <;> nofun

/-- In STARTED and MT the continue write transmits, in MR it receives (40_register_access.md R106 to R108). -/
theorem writeCtrl_continue {ea : Bool} {s : State} (hp : s.pending = none) (hph : s.phase ∈ [.started, .mt, .mr]) :
    writeCtrl (packCtrl true ea false false true) s = .next (byteIssued ea s) := by
  rcases mem_transferring.1 hph with htx | hmr
  · rw [byteIssued, byteAction_tx htx]
    exact (transmitCommandIssuesTx ea s htx).1 hp
  · rw [writeCtrl_rx hmr hp, byteIssued, byteAction_mr hmr]

/-! ### The two-write form of `readByte` (R183) -/

/-- The reception command of an ACK policy writes its byte. -/
theorem exec_receive (ack : Bool) (s : State) :
    exec (if ack then .wrCtrlRxAck else .wrCtrlRxNack) s = writeCtrl (packCtrl true ack false false true) s := by
  cases ack <;> rfl

/-- Settles O17: what the CONFIG write stores, the reception command stores again. -/
theorem twoWriteReceiveReachesTheSameState : Obligations.TwoWriteReceiveReachesTheSameState := by
  intro ack s hph hp
  have hconfig := (configStoresAndEnables ack false false s).1 hp
  simp only [hph, reduceCtorEq, if_false] at hconfig
  simp only [exec_receive]
  refine ⟨_, _, hconfig, writeCtrl_rx ?_ hp, (writeCtrl_rx hph hp).trans ?_⟩
  · rfl
  · simp [hph]

/-! ### The first accesses (R180, R182) -/

/-- Past its guard `writeByte` is the write of DATA. -/
theorem beginWrbyte_ready {b : Byte} {s : State} (h : driverReady s) :
    beginWrbyte b s = andThen (exec (.wrData b) s) fun t => .next (goOn .wrbyteCtrl t) :=
  guardReady_ready h

/-- Past its guard `readByte` is the continue write that carries the ACK policy. -/
theorem beginRdbyte_ready {ack : Bool} {s : State} (h : driverReady s) :
    beginRdbyte ack s =
      andThen (writeCtrl (packCtrl true ack false false true) s) fun t => .next (goOn .rdbytePoll t) := by
  have hbyte : (if ack then 0xC4 else 0x84) = packCtrl true ack false false true := by cases ack <;> rfl
  rw [beginRdbyte, guardReady_ready h, hbyte, writeReg]

/-- `s` after a write of DATA. -/
def storeData (b : Byte) (s : State) : State := { s with data := b }

theorem exec_wrbyte_quiet {b : Byte} {s : State} (h : driverReady s) (hp : s.pending = none) :
    exec (.wrbyte b) s = .next (goOn .wrbyteCtrl (storeData b s)) := by
  rw [exec, execWrbyte, beginWrbyte_ready h, ((plainWritesStoreOrFaultBusy b s).1 hp).2.2, andThen_next]
  rfl

theorem exec_rdbyte_quiet {ack : Bool} {s : State} (h : driverReady s) (hp : s.pending = none)
    (hph : s.phase ∈ [.started, .mt, .mr]) :
    exec (.rdbyte ack) s = .next (goOn .rdbytePoll (byteIssued ack s)) := by
  rw [exec, execRdbyte, beginRdbyte_ready h, writeCtrl_continue hp hph, andThen_next]

/-- Settles O33. -/
theorem byteTransfersBegin : Obligations.ByteTransfersBegin := by
  refine fun b ack s h => ⟨exec_wrbyte_quiet h, exec_rdbyte_quiet h, fun hp => ⟨?_, ?_⟩⟩
  · rw [exec, execWrbyte, beginWrbyte_ready h, ((plainWritesStoreOrFaultBusy b s).2 hp).2.2, andThen_fault]
  · rw [exec, execRdbyte, beginRdbyte_ready h, writeCtrl_busy hp, andThen_fault]

/-- The second access of `writeByte`, a continue write with EA = 0 (R180). -/
theorem step_wrbyteCtrl {s : State} (hf : s.fault = none) (hp : s.pending = none) (hprim : s.prim = some .wrbyteCtrl) :
    step s = andThen (writeCtrl (packCtrl true false false false true) s) fun t => .next (goOn .wrbytePoll t) := by
  obtain ⟨-, -, -, -, hbyte, -⟩ := commandWords
  rw [step_prim_quiet hf hp hprim, resumePrim, resumeWrbyteCtrl, hbyte, writeReg]

theorem step_wrbyteCtrl_illegal {s : State} (hf : s.fault = none) (hp : s.pending = none) (hprim : s.prim = some .wrbyteCtrl)
    (hph : s.phase ∉ [.started, .mt, .mr]) : step s = .fault (.illegalCommand (commandPhase s.phase)) := by
  rw [step_wrbyteCtrl hf hp hprim, writeCtrl_illegalContinue hp hph, andThen_fault]

/-- Settles O38: both faults are the continue write's. -/
theorem transfersInTerminalPhasesFault : Obligations.TransfersInTerminalPhasesFault := by
  intro s b ack hb hready hp hph
  rw [← commandPhase_eq]
  constructor
  · rw [exec, execRdbyte, beginRdbyte_ready hready, writeCtrl_illegalContinue hp hph, andThen_fault]
  · intro hc
    have hfirst := (step_call_quiet hb hp hc).trans (exec_wrbyte_quiet (s := advance s) hready hp)
    have hsecond := step_wrbyteCtrl_illegal (s := goOn .wrbyteCtrl (storeData b (advance s))) hb.1 hp rfl hph
    exact ⟨run_succ_of_step hfirst, (run_succ_of_step hfirst).trans (congrArg (andThen · (run 0)) hsecond)⟩

/-! ### A byte's run up to its status read -/

/-- A state in which a byte transfer may begin and its waits are not bounded. -/
structure ByteStart (s : State) : Prop where
  no_fault : s.fault = none
  ready : driverReady s
  quiet : s.pending = none
  transferring : s.phase ∈ [.started, .mt, .mr]
  unlimited : s.params.pollLimit = none

theorem ByteStart.advance {s : State} (h : ByteStart s) : ByteStart (advance s) :=
  ⟨h.no_fault, h.ready, h.quiet, h.transferring, h.unlimited⟩

theorem ByteStart.storeData {s : State} (h : ByteStart s) (b : Byte) : ByteStart (storeData b s) :=
  ⟨h.no_fault, h.ready, h.quiet, h.transferring, h.unlimited⟩

/-- The controller and the bus after the answer `r` to the byte that a continue write issued in `s`. -/
def byteDone (ea : Bool) (r : Response) (s : State) : State := ctrlStep (byteAction ea s) r (byteIssued ea s)

/-- The answer `r` ends the byte that a continue write issues in `s`. -/
def EndsByte (ea : Bool) (r : Response) (s : State) : Prop := admitted (byteAction ea s) r = true ∧ r ≠ .hold

theorem EndsByte.quiet {ea : Bool} {r : Response} {s : State} (h : EndsByte ea r s) : (byteDone ea r s).pending = none :=
  (ctrlStep_of_admitted _ h).1

theorem byteDone_fault (ea : Bool) (r : Response) (s : State) : (byteDone ea r s).fault = s.fault :=
  (ctrlStep_stepFrame _ _ _).fault

theorem byteDone_contract (ea : Bool) (r : Response) (s : State) : (byteDone ea r s).contract = s.contract :=
  congrArg Driver.contract (ctrlStep_toDriver (byteAction ea s) r (byteIssued ea s))

/-- `s` after the poll read that finds INT set; the next access is `q`. -/
def byteSeen (rest : List Turn) (q : PrimPoint) (s : State) : State :=
  goOn q (polled rest 0 (ctrlByte s) (some (ctrlByte s)) s)

/-- `s` after the poll read that finds INT set and the STATUS read, of which the test `ok` was taken. -/
def byteJudged (rest : List Turn) (ok : Bool) (s : State) : State :=
  { s with
    turns := rest, polls := 0, result := some (statusByte s)
    locals := { s.locals with c := ctrlByte s, st := statusByte s, ok := flagByte ok } }

/-- `s` after the DATA read of a `readByte` whose status read found READ_OK. -/
def byteReceived (rest : List Turn) (s : State) : State :=
  { byteJudged rest true s with
    result := some s.data
    locals := { (byteJudged rest true s).locals with v := s.data } }

/-- A completion neither sees nor moves the driver and the queue. -/
theorem ctrlStep_polled (a : Action) (r : Response) (rest : List Turn) (k : Nat) (c : Byte) (x : Option Byte) (p : PrimPoint)
    (s : State) : ctrlStep a r (polled rest k c x (goOn p s)) = polled rest k c x (goOn p (ctrlStep a r s)) := by
  cases a with
  | tx b =>
    cases r with
    | txAck ack => by_cases hph : s.phase = .started <;> simp [ctrlStep, completeTx, polled, goOn, complete, hph]
    | _ => rfl
  | _ => cases r <;> rfl

/-- The read that finds INT set ends the wait of a byte (R180, R182). -/
theorem step_bytePoll {p q : PrimPoint} {s : State} (hpoll : ∀ u, resumePrim p u = .next (primPoll true 0x80 (goOn q) u))
    (hf : s.fault = none) (hp : s.pending = none) (hprim : s.prim = some p) (hint : s.ctrl.int = true) :
    step s = .next (byteSeen s.turns q s) := by
  rw [step_prim_quiet hf hp hprim, hpoll, primPoll_of_exits ((pollExits_int s).trans hint)]
  rfl

/-- From the continue write, whatever polls and holds come first, to the status read: `p` is the poll loop of the primitive, `q` the
access after it. -/
theorem run_byte {p q : PrimPoint} {ea : Bool} {r : Response} {s u : State} {ts rest : List Turn}
    (hfirst : step s = .next (goOn p (byteIssued ea u)))
    (hpoll : ∀ u, resumePrim p u = .next (primPoll true 0x80 (goOn q) u)) (hwaits : PollWaits (byteIssued ea u).ctrl p)
    (h : ByteStart u) (hidle : idleTurns ts = true) (hts : u.turns = thenAnswer ts r rest) (hends : EndsByte ea r u) :
    run (ts.length + 3) s = .next (byteSeen rest q (byteDone ea r u)) := by
  obtain ⟨k, c, x, hrun⟩ := run_begin_answer hfirst ⟨h.no_fault, rfl, rfl, hwaits⟩ h.unlimited hidle hts
  rw [ctrlStep_polled] at hrun
  obtain ⟨-, hctrl⟩ := ctrlStep_of_admitted (byteIssued ea u) hends
  rw [if_neg (byteAction_ne_stop ea u)] at hctrl
  have hfault : (byteDone ea r u).fault = none := (byteDone_fault ea r u).trans h.no_fault
  exact run_snoc hrun (step_bytePoll hpoll hfault hends.quiet rfl (congrArg Ctrl.int hctrl))

/-! ### `writeByte` and `readByte` under every schedule (R180, R182) -/

/-- The STATUS read ends `writeByte` (R180, R181). -/
theorem step_wrbyteStatus {rest : List Turn} {s : State} (hf : s.fault = none) (hp : s.pending = none) :
    step (byteSeen rest .wrbyteStatus s) =
      .next (finishPrim (.bool (writeOk (statusByte s))) (byteJudged rest (writeOk (statusByte s)) s)) :=
  step_prim_quiet (s := byteSeen rest .wrbyteStatus s) hf hp rfl

/-- The STATUS read of `readByte` leads to its DATA read, or ends it (R182, R184, R188). -/
theorem step_rdbyteStatus {rest : List Turn} {s : State} (hf : s.fault = none) (hp : s.pending = none) :
    step (byteSeen rest .rdbyteStatus s) = .next (if readOk (statusByte s)
      then goOn .rdbyteData (byteJudged rest (readOk (statusByte s)) s)
      else finishPrim (.read false none) (byteJudged rest (readOk (statusByte s)) s)) :=
  step_prim_quiet (s := byteSeen rest .rdbyteStatus s) hf hp rfl

/-- The DATA read ends `readByte` (R182). -/
theorem step_rdbyteData {s : State} (hf : s.fault = none) (hp : s.pending = none) :
    step (goOn .rdbyteData s) = .next (finishPrim (.read true (some s.data))
      { s with result := some s.data, locals := { s.locals with v := s.data } }) := by
  rw [step_prim_quiet (s := goOn .rdbyteData s) hf hp rfl, resumePrim, resumeRdbyteData]
  simp only [accessRead, readReg, readData_quiet (s := goOn .rdbyteData s) hp]
  rfl

/-- `writeByte` from its DATA write to its return, whoever called it. -/
theorem run_wrbyte {b : Byte} {r : Response} {ok : Bool} {s u : State} {ts rest : List Turn}
    (hfirst : step s = exec (.wrbyte b) u) (h : ByteStart u) (hidle : idleTurns ts = true) (hts : u.turns = thenAnswer ts r rest)
    (hends : EndsByte false r (storeData b u)) (hok : writeOk (statusByte (byteDone false r (storeData b u))) = ok) :
    run (ts.length + 5) s = .next (finishPrim (.bool ok) (byteJudged rest ok (byteDone false r (storeData b u)))) := by
  subst hok
  have hdata := hfirst.trans (exec_wrbyte_quiet h.ready h.quiet)
  have hcommand := step_wrbyteCtrl (s := goOn .wrbyteCtrl (storeData b u)) h.no_fault h.quiet rfl
  rw [writeCtrl_continue (s := goOn .wrbyteCtrl (storeData b u)) h.quiet h.transferring, andThen_next] at hcommand
  have hrun := run_byte (u := storeData b u) hcommand (fun _ => rfl) rfl (h.storeData b) hidle hts hends
  rw [run_succ_of_step hdata]
  exact run_snoc hrun (step_wrbyteStatus ((byteDone_fault _ _ _).trans h.no_fault) hends.quiet)

/-- `readByte` from its continue write to the read that finds INT set, whoever called it. -/
theorem run_rdbyte {ack : Bool} {r : Response} {s u : State} {ts rest : List Turn} (hfirst : step s = exec (.rdbyte ack) u)
    (h : ByteStart u) (hidle : idleTurns ts = true) (hts : u.turns = thenAnswer ts r rest) (hends : EndsByte ack r u) :
    run (ts.length + 3) s = .next (byteSeen rest .rdbyteStatus (byteDone ack r u)) :=
  run_byte (hfirst.trans (exec_rdbyte_quiet h.ready h.quiet h.transferring)) (fun _ => rfl) rfl h hidle hts hends

theorem run_rdbyte_failed {ack : Bool} {r : Response} {s u : State} {ts rest : List Turn}
    (hfirst : step s = exec (.rdbyte ack) u) (h : ByteStart u) (hidle : idleTurns ts = true) (hts : u.turns = thenAnswer ts r rest)
    (hends : EndsByte ack r u) (hok : readOk (statusByte (byteDone ack r u)) = false) :
    run (ts.length + 4) s = .next (finishPrim (.read false none) (byteJudged rest false (byteDone ack r u))) :=
  have hf : (byteDone ack r u).fault = none := (byteDone_fault _ _ _).trans h.no_fault
  run_snoc (run_rdbyte hfirst h hidle hts hends) ((step_rdbyteStatus hf hends.quiet).trans (by rw [hok]; rfl))

theorem run_rdbyte_ok {ack : Bool} {r : Response} {s u : State} {ts rest : List Turn} (hfirst : step s = exec (.rdbyte ack) u)
    (h : ByteStart u) (hidle : idleTurns ts = true) (hts : u.turns = thenAnswer ts r rest) (hends : EndsByte ack r u)
    (hok : readOk (statusByte (byteDone ack r u)) = true) :
    run (ts.length + 5) s =
      .next (finishPrim (.read true (some (byteDone ack r u).data)) (byteReceived rest (byteDone ack r u))) :=
  have hf : (byteDone ack r u).fault = none := (byteDone_fault _ _ _).trans h.no_fault
  run_snoc (run_snoc (run_rdbyte hfirst h hidle hts hends) ((step_rdbyteStatus hf hends.quiet).trans (by rw [hok]; rfl)))
    (step_rdbyteData (s := byteJudged rest true (byteDone ack r u)) hf hends.quiet)

/-! ### What each answer makes of a byte (41_controller_actions.md R133 to R139) -/

/-- The code of a byte sent in the phase `ph`: of an address byte in STARTED, else of a data byte (R133, R134). -/
def sentCode (ph : Phase) (b : Byte) (ack : Bool) : Byte :=
  if ph = .started then addressCode (byteBit b 0) ack else dataCode ack

/-- The phase after a byte sent in the phase `ph` (R133, R134). -/
def sentPhase (ph : Phase) (b : Byte) (ack : Bool) : Phase :=
  if ph = .started then addressPhase (byteBit b 0) ack else dataPhase ack

/-- A byte sent in the phase `ph`, as the bus log has it (10_state.md R31). -/
def sentEvent (ph : Phase) (b : Byte) (ack : Bool) : BusEvent := if ph = .started then .addr b ack else .txdata b ack

theorem byteDone_sent {ea ack : Bool} {s : State} (hph : s.phase = .started ∨ s.phase = .mt) :
    byteDone ea (.txAck ack) s = complete (sentCode s.phase s.data ack) (sentPhase s.phase s.data ack)
      (sentEvent s.phase s.data ack) (byteIssued ea s) := by
  have hphase : (byteIssued ea s).phase = s.phase := rfl
  rw [byteDone, byteAction_tx hph, ctrlStep, completeTx, hphase]
  rcases hph with h | h <;> simp [sentCode, sentPhase, sentEvent, h]

theorem byteDone_received {ea : Bool} {x : Byte} {s : State} (hph : s.phase = .mr) :
    byteDone ea (.rxByte x) s =
      complete (receiveCode ea) (receivePhase ea) (.rxdata x ea) { byteIssued ea s with data := x } := by
  rw [byteDone, byteAction_mr hph]
  rfl

theorem byteDone_busErr (ea : Bool) (s : State) :
    byteDone ea .busErr s = complete 0x00 .busErr .busError (byteIssued ea s) :=
  ctrlStep_busErr (byteAction_ne_stop ea s)

theorem endsByte_sent {ea ack : Bool} {s : State} (hph : s.phase = .started ∨ s.phase = .mt) : EndsByte ea (.txAck ack) s := by
  rw [EndsByte, byteAction_tx hph]
  exact ⟨rfl, nofun⟩

theorem endsByte_received {ea : Bool} {x : Byte} {s : State} (hph : s.phase = .mr) : EndsByte ea (.rxByte x) s := by
  rw [EndsByte, byteAction_mr hph]
  exact ⟨rfl, nofun⟩

theorem endsByte_busErr (ea : Bool) (s : State) : EndsByte ea .busErr s :=
  admitted_iff.2 (.inr (.inr (.inr (.inr ⟨byteAction_ne_stop ea s, rfl⟩))))

/-! ### The tests of the status read (R181, R184) -/

/-- WRITE_OK holds of a sent byte exactly when it was acknowledged, READ_OK never, whatever the prescaler. -/
theorem statusTests_sentCode (ph : Phase) (b : Byte) (ack : Bool) (ps : BitVec 2) :
    writeOk (sentCode ph b ack ||| ps.setWidth 8) = ack ∧ readOk (sentCode ph b ack ||| ps.setWidth 8) = false := by
  have haddress : ∀ read ack, ∀ ps : BitVec 2, writeOk (addressCode read ack ||| ps.setWidth 8) = ack ∧
      readOk (addressCode read ack ||| ps.setWidth 8) = false := by decide
  have hdata : ∀ ack, ∀ ps : BitVec 2, writeOk (dataCode ack ||| ps.setWidth 8) = ack ∧
      readOk (dataCode ack ||| ps.setWidth 8) = false := by decide
  unfold sentCode
  split
  · exact haddress _ _ _
  · exact hdata _ _

/-- READ_OK holds of a received byte, WRITE_OK does not. -/
theorem statusTests_receiveCode (ea : Bool) (ps : BitVec 2) :
    writeOk (receiveCode ea ||| ps.setWidth 8) = false ∧ readOk (receiveCode ea ||| ps.setWidth 8) = true := by
  revert ea ps; decide

/-- Neither holds of a bus error. -/
theorem statusTests_busErr (ps : BitVec 2) :
    writeOk (0x00 ||| ps.setWidth 8) = false ∧ readOk (0x00 ||| ps.setWidth 8) = false := by
  revert ps; decide

/-! ### The transfers called by a program -/

theorem run_wrbyte_call {b : Byte} {r : Response} {ok : Bool} {s : State} {ts rest : List Turn} (hb : atBoundary s)
    (h : ByteStart s) (hc : s.program[s.pos]? = some (.call (.wrbyte (.lit b)))) (hidle : idleTurns ts = true)
    (hts : s.turns = thenAnswer ts r rest) (hends : EndsByte false r (storeData b (advance s)))
    (hok : writeOk (statusByte (byteDone false r (storeData b (advance s)))) = ok) :
    run (ts.length + 5) s = .next { byteJudged rest ok (byteDone false r (storeData b (advance s))) with
      prim := none, ret := some (.bool ok) } := by
  rw [run_wrbyte (b := b) (step_call_quiet hb h.quiet hc) h.advance hidle hts hends hok]
  exact congrArg _ (finishPrim_plain ((byteDone_contract _ _ _).trans hb.2.2))

theorem run_rdbyte_call_failed {ack : Bool} {r : Response} {s : State} {ts rest : List Turn} (hb : atBoundary s)
    (h : ByteStart s) (hc : s.program[s.pos]? = some (.call (.rdbyte ack))) (hidle : idleTurns ts = true)
    (hts : s.turns = thenAnswer ts r rest) (hends : EndsByte ack r (advance s))
    (hok : readOk (statusByte (byteDone ack r (advance s))) = false) :
    run (ts.length + 4) s = .next { byteJudged rest false (byteDone ack r (advance s)) with
      prim := none, ret := some (.read false none) } := by
  rw [run_rdbyte_failed (step_call_quiet hb h.quiet hc) h.advance hidle hts hends hok]
  exact congrArg _ (finishPrim_plain ((byteDone_contract _ _ _).trans hb.2.2))

theorem run_rdbyte_call_ok {ack : Bool} {r : Response} {s : State} {ts rest : List Turn} (hb : atBoundary s)
    (h : ByteStart s) (hc : s.program[s.pos]? = some (.call (.rdbyte ack))) (hidle : idleTurns ts = true)
    (hts : s.turns = thenAnswer ts r rest) (hends : EndsByte ack r (advance s))
    (hok : readOk (statusByte (byteDone ack r (advance s))) = true) :
    run (ts.length + 5) s = .next { byteReceived rest (byteDone ack r (advance s)) with
      prim := none, ret := some (.read true (some (byteDone ack r (advance s)).data)) } := by
  rw [run_rdbyte_ok (step_call_quiet hb h.quiet hc) h.advance hidle hts hends hok]
  exact congrArg _ (finishPrim_plain ((byteDone_contract _ _ _).trans hb.2.2))

/-- Settles O34: the acknowledge decides the code, and the code the result. -/
theorem writeByteReportsTheAcknowledge : Obligations.WriteByteReportsTheAcknowledge := by
  intro s b a ts rest hb hready hp hph hc hlimit hidle hts
  have hstart : ByteStart s := ⟨hb.1, hready, hp, mem_transferring.2 (.inl hph), hlimit⟩
  have hdone : byteDone false (.txAck a) (storeData b (advance s)) = complete (sentCode s.phase b a) (sentPhase s.phase b a)
      (sentEvent s.phase b a) (byteIssued false (storeData b (advance s))) := byteDone_sent hph
  have hrun := run_wrbyte_call (ok := a) hb hstart hc hidle hts (endsByte_sent hph)
    (by rw [hdone]; exact (statusTests_sentCode s.phase b a s.ps).1)
  rw [hdone] at hrun
  obtain ⟨-, hprim, -⟩ := hb
  simp only [hp, hprim]
  refine ⟨_, _, sentCode s.phase b a, sentPhase s.phase b a, hrun, rfl, rfl, rfl, rfl, rfl, rfl, fun h => ?_, fun h => ?_⟩
  · rw [← addressCode_eq, ← addressPhase_eq]
    exact ⟨if_pos h, if_pos h⟩
  · exact ⟨if_neg (by simp [h]), if_neg (by simp [h])⟩

/-- Settles O35: a received byte is READ_OK with either ACK policy. -/
theorem readByteReturnsTheReceivedByte : Obligations.ReadByteReturnsTheReceivedByte := by
  intro s ack x ts rest hb hready hp hph hc hlimit hidle hts
  have hstart : ByteStart s := ⟨hb.1, hready, hp, mem_transferring.2 (.inr hph), hlimit⟩
  have hdone : byteDone ack (.rxByte x) (advance s) = _ := byteDone_received hph
  have hrun := run_rdbyte_call_ok hb hstart hc hidle hts (endsByte_received hph)
    (by rw [hdone]; exact (statusTests_receiveCode ack s.ps).2)
  rw [hdone] at hrun
  obtain ⟨-, hprim, -⟩ := hb
  simp only [hp, hprim]
  exact ⟨_, hrun, rfl, rfl, rfl, rfl, rfl⟩

/-- Settles O36: the code of a bus error is neither WRITE_OK nor READ_OK. -/
theorem busErrorFailsTheByte : Obligations.BusErrorFailsTheByte := by
  intro s b ack rest hb hready hp hph hlimit hts
  have hstart : ByteStart s := ⟨hb.1, hready, hp, hph, hlimit⟩
  constructor <;> intro hc
  · have hrun := run_wrbyte_call (ok := false) (ts := []) hb hstart hc rfl hts (endsByte_busErr _ _)
      (by rw [byteDone_busErr]; exact (statusTests_busErr s.ps).1)
    rw [byteDone_busErr] at hrun
    exact ⟨_, hrun, rfl, rfl, rfl, rfl, rfl, rfl, rfl⟩
  · have hrun := run_rdbyte_call_failed (ts := []) hb hstart hc rfl hts (endsByte_busErr _ _)
      (by rw [byteDone_busErr]; exact (statusTests_busErr s.ps).2)
    rw [byteDone_busErr] at hrun
    exact ⟨_, hrun, rfl, rfl, rfl, rfl, rfl, rfl, rfl⟩

/-- Settles O37: a received byte is not WRITE_OK, a sent byte not READ_OK. -/
theorem transfersOutsideTheirRole : Obligations.TransfersOutsideTheirRole := by
  intro s b x ack a rest hb hready hp hlimit
  constructor
  · intro hph hc hts
    have hstart : ByteStart s := ⟨hb.1, hready, hp, mem_transferring.2 (.inr hph), hlimit⟩
    have hdone : byteDone false (.rxByte x) (storeData b (advance s)) = _ := byteDone_received hph
    have hrun := run_wrbyte_call (ok := false) (ts := []) hb hstart hc rfl hts (endsByte_received hph)
      (by rw [hdone]; exact (statusTests_receiveCode false s.ps).1)
    rw [hdone] at hrun
    exact ⟨_, hrun, rfl, rfl, rfl, rfl, rfl, rfl, rfl, rfl⟩
  · intro hph hc hts
    have hstart : ByteStart s := ⟨hb.1, hready, hp, mem_transferring.2 (.inl hph), hlimit⟩
    have hdone : byteDone ack (.txAck a) (advance s) = _ := byteDone_sent hph
    have hrun := run_rdbyte_call_failed (ts := []) hb hstart hc rfl hts (endsByte_sent hph)
      (by rw [hdone]; exact (statusTests_sentCode s.phase s.data a s.ps).2)
    rw [hdone] at hrun
    exact ⟨_, hrun, rfl, rfl, rfl, rfl, rfl, rfl, rfl⟩

/-! ### The validation sets (R181, R184 to R186) -/

/-- A second mask changes nothing. -/
theorem maskCode_maskCode (st : Byte) : maskCode (maskCode st) = maskCode st := by
  simp [maskCode, BitVec.and_assoc]

theorem writeOk_iff {st : Byte} : writeOk st = true ↔ maskCode st ∈ [(0x18 : Byte), 0x28, 0x40] := by
  simp [writeOk, or_assoc]

theorem readOk_iff {st : Byte} : readOk st = true ↔ maskCode st ∈ [(0x50 : Byte), 0x58] := by
  simp [readOk]

theorem classifyWrite_eq_ok {c : Byte} : classifyWrite c = .ok ↔ c ∈ [(0x18 : Byte), 0x28, 0x40] := by
  unfold classifyWrite
  split_ifs <;> simp_all

theorem classifyRead_eq_ok {c : Byte} : classifyRead c = .ok ↔ c ∈ [(0x50 : Byte), 0x58] := by
  unfold classifyRead
  split_ifs <;> simp_all

/-- The address NACK class is that of the two address codes without an acknowledge, by their names (R186). -/
theorem classifyWrite_eq_addressNotAcknowledged {c : Byte} :
    classifyWrite c = .addressNotAcknowledged ↔ nameOfCode c ∈ [.slaWNack, .slaRNack] := by
  revert c; decide

theorem classifyWrite_eq_dataNotAcknowledged {c : Byte} :
    classifyWrite c = .dataNotAcknowledged ↔ nameOfCode c = .dataTxNack := by
  revert c; decide

/-- Settles O39: tests, classes and names all look at the masked code only. -/
theorem validationIgnoresThePrescaler : Obligations.ValidationIgnoresThePrescaler := fun st =>
  ⟨writeOk_iff, readOk_iff, classifyWrite_eq_ok.trans writeOk_iff.symm, classifyRead_eq_ok.trans readOk_iff.symm,
    classifyWrite_eq_addressNotAcknowledged, classifyWrite_eq_dataNotAcknowledged, congrArg nameOfCode (maskCode_maskCode st)⟩

end Sys2Proof.Machine

/-! PROOFS. The register-access contract (45_register_access_contract.md R200 to R203), call by call: the statement that begins it,
the primitives it calls, and what each of them makes of the controller. -/

namespace Sys2Proof.Machine

/-! ### The call that begins a contract (R202, R225) -/

theorem checkDevice_bad {dev : Byte} {s : State} {go : State → Out} (h : dev.toNat > 0x7F) :
    checkDevice dev s go = .fault (.badDeviceAddress dev) :=
  if_pos h

theorem checkDevice_seven {dev : Byte} {s : State} {go : State → Out} (h : dev.toNat ≤ 0x7F) : checkDevice dev s go = go s :=
  if_neg (Nat.not_lt.2 h)

/-- The state in which the first call of the contract `c` is made. -/
def inContract (c : Contract) (s : State) : State := { s with contract := some c }

theorem exec_wrreg {dev reg val : Byte} {s : State} (h : dev.toNat ≤ 0x7F) :
    exec (.wrreg dev reg val) s = exec .start (inContract (.wrreg dev reg val .start) s) :=
  checkDevice_seven h

theorem exec_rdreg {dev reg : Byte} {s : State} (h : dev.toNat ≤ 0x7F) :
    exec (.rdreg dev reg) s = exec .start (inContract (.rdreg dev reg .start) s) :=
  checkDevice_seven h

/-- Settles O40: the check of the address comes first. -/
theorem badDeviceAddressFaults : Obligations.BadDeviceAddressFaults := fun _ _ _ _ h =>
  ⟨checkDevice_bad h, checkDevice_bad h⟩

/-- Settles O41: past the check the call is `start()`, made in the contract. -/
theorem contractCallsBeginWithStart : Obligations.ContractCallsBeginWithStart := by
  intro dev reg val s hdev i c hic
  have hexec : exec i s = exec .start (inContract c s) := by
    rcases hic with ⟨rfl, rfl⟩ | ⟨rfl, rfl⟩
    · exact exec_wrreg hdev
    · exact exec_rdreg hdev
  rw [hexec]
  refine ⟨fun hready hp hph => ?_, fun hready => ?_, fun hready hp => ?_, fun hready hp hph => ?_⟩
  · exact (transactionPrimitivesBegin (inContract c s) hready).1 hp hph
  · have hclosed : s.lifecycle ≠ .ready ∨ s.wedged = true :=
      (not_and_or.1 hready).imp_right Bool.eq_true_of_not_eq_false
    exact (lifecycleGuardFaults 0 false (inContract c s) hclosed).1
  · obtain ⟨-, -, -, hbusy⟩ := transactionPrimitivesBegin (inContract c s) hready
    exact (hbusy hp).1
  · obtain ⟨-, hbusErr, -⟩ := transactionPrimitivesBegin (inContract c s) hready
    exact hbusErr hp hph

/-! ### The calls of a contract (R200, R201, R203) -/

/-- The primitive a contract in progress calls next. -/
def Contract.call : Contract → Instr
  | .wrreg dev reg val st =>
    match st with
    | .start => .start
    | .addr => .wrbyte (addressByte dev false)
    | .reg => .wrbyte reg
    | .val => .wrbyte val
    | .stop | .abort => .stop
  | .rdreg dev reg st =>
    match st with
    | .start | .restart => .start
    | .addrW => .wrbyte (addressByte dev false)
    | .reg => .wrbyte reg
    | .addrR => .wrbyte (addressByte dev true)
    | .read => .rdbyte false
    | .stop _ | .abort => .stop

/-- What becomes of a contract when its call returns `r` and the driver is not wedged: another call, or the contract's result. -/
def Contract.next (r : Ret) : Contract → Contract ⊕ Ret
  | .wrreg dev reg val st =>
    match st with
    | .start => .inl (.wrreg dev reg val .addr)
    | .addr => .inl (.wrreg dev reg val (if succeeded r then .reg else .abort))
    | .reg => .inl (.wrreg dev reg val (if succeeded r then .val else .abort))
    | .val => .inl (.wrreg dev reg val (if succeeded r then .stop else .abort))
    | .stop => .inr (.bool true)
    | .abort => .inr (.bool false)
  | .rdreg dev reg st =>
    match st with
    | .start => .inl (.rdreg dev reg .addrW)
    | .addrW => .inl (.rdreg dev reg (if succeeded r then .reg else .abort))
    | .reg => .inl (.rdreg dev reg (if succeeded r then .restart else .abort))
    | .restart => .inl (.rdreg dev reg .addrR)
    | .addrR => .inl (.rdreg dev reg (if succeeded r then .read else .abort))
    | .read => .inl (.rdreg dev reg (.stop (readValue r)))
    | .stop v => .inr (.regValue v)
    | .abort => .inr (.regValue none)

theorem resumeContract_eq_exec (c : Contract) (s : State) : resumeContract c s = exec c.call s := by
  cases c with
  | wrreg dev reg val st => cases st <;> rfl
  | rdreg dev reg st => cases st <;> rfl

theorem step_contract_quiet {c : Contract} {s : State} (hf : s.fault = none) (hp : s.pending = none) (hprim : s.prim = none)
    (hcontract : s.contract = some c) : step s = exec c.call s := by
  rw [step_quiet hf hp, cpuStep, hprim, ← resumeContract_eq_exec]
  simp only [hcontract]

/-- The driver after a call that returned `r`, at the contract's next call or with the contract's result. -/
def afterCall (r : Ret) (s : State) : Contract ⊕ Ret → State
  | .inl c => { s with prim := none, polls := 0, ret := some r, contract := some c }
  | .inr v => { s with prim := none, polls := 0, ret := some v, contract := none }

theorem finishPrim_contract {c : Contract} (r : Ret) {s : State} (hcontract : s.contract = some c) (hwedged : s.wedged = false) :
    finishPrim r s = afterCall r s (c.next r) := by
  cases c with
  | wrreg dev reg val st =>
    cases st <;> cases hr : succeeded r <;>
      simp [finishPrim, hcontract, hwedged, wrregReturn, wrStage, contractDone, Contract.next, afterCall, hr]
  | rdreg dev reg st =>
    cases st <;> cases hr : succeeded r <;>
      simp [finishPrim, hcontract, hwedged, rdregReturn, rdStage, contractDone, Contract.next, afterCall, hr]

/-! ### What the calls make of the controller -/

/-- The controller after a completed START (41_controller_actions.md R131). -/
def Controller.started (k : Controller) : Controller :=
  { k with
    ctrl := { int := true, ea := false, sta := true, sto := false, en := true }
    code := if k.phase = .off ∨ k.phase = .idle then 0x08 else 0x10
    busLog := k.busLog ++ [if k.phase = .off ∨ k.phase = .idle then .start else .rstart]
    phase := .started, pending := none }

/-- The controller after a completed STOP (R132). -/
def Controller.stopped (k : Controller) : Controller :=
  { k with
    ctrl := { int := false, ea := false, sta := false, sto := false, en := true }
    code := 0xF8
    busLog := if owned k.phase = true then k.busLog ++ [.stop] else k.busLog
    phase := .idle, pending := none }

/-- The controller after a byte of the continue command with the ACK bit `ea`, ended with a code (R133 to R139). -/
def Controller.byteEnded (ea : Bool) (code : Byte) (ph : Phase) (e : BusEvent) (k : Controller) : Controller :=
  { k with
    ctrl := { int := true, ea := ea, sta := false, sto := false, en := true }
    code := code, phase := ph, pending := none, busLog := k.busLog ++ [e] }

/-- The byte in DATA has been sent and acknowledged or not (R133, R134). -/
def Controller.sent (ea ack : Bool) (k : Controller) : Controller :=
  k.byteEnded ea (sentCode k.phase k.data ack) (sentPhase k.phase k.data ack) (sentEvent k.phase k.data ack)

/-- The byte `x` has been received (R136). -/
def Controller.received (ea : Bool) (x : Byte) (k : Controller) : Controller :=
  { k with data := x }.byteEnded ea (receiveCode ea) (receivePhase ea) (.rxdata x ea)

/-- The byte has ended in a bus error (R139). -/
def Controller.byteFailed (ea : Bool) (k : Controller) : Controller := k.byteEnded ea 0x00 .busErr .busError

/-- A write of DATA. -/
def Controller.withData (b : Byte) (k : Controller) : Controller := { k with data := b }

/-- What a STATUS read of the controller returns (30_encoding.md R77). -/
def Controller.status (k : Controller) : Byte := k.code ||| k.ps.setWidth 8

/-- A byte that a continue command issues with the controller at `k`, the answer that ends it, and the controller then. -/
inductive ByteEnds (ea : Bool) (k : Controller) : Response → Controller → Prop
  | sent (ack : Bool) (hph : k.phase = .started ∨ k.phase = .mt) : ByteEnds ea k (.txAck ack) (k.sent ea ack)
  | received (x : Byte) (hph : k.phase = .mr) : ByteEnds ea k (.rxByte x) (k.received ea x)
  | busErr (hph : k.phase ∈ [.started, .mt, .mr]) : ByteEnds ea k .busErr (k.byteFailed ea)

theorem ByteEnds.transferring {ea : Bool} {k k' : Controller} {r : Response} (h : ByteEnds ea k r k') :
    k.phase ∈ [.started, .mt, .mr] := by
  cases h with
  | sent ack hph => exact mem_transferring.2 (.inl hph)
  | received x hph => exact mem_transferring.2 (.inr hph)
  | busErr hph => exact hph

theorem ByteEnds.endsByte {ea : Bool} {k' : Controller} {r : Response} {s : State} (h : ByteEnds ea s.toController r k') :
    EndsByte ea r s := by
  cases h with
  | sent ack hph => exact endsByte_sent hph
  | received x hph => exact endsByte_received hph
  | busErr hph => exact endsByte_busErr ea s

theorem ByteEnds.byteDone_toController {ea : Bool} {k' : Controller} {r : Response} {s : State}
    (h : ByteEnds ea s.toController r k') : (byteDone ea r s).toController = k' := by
  cases h with
  | sent ack hph => rw [byteDone_sent hph]; rfl
  | received x hph => rw [byteDone_received hph]; rfl
  | busErr hph => rw [byteDone_busErr]; rfl

/-- One action on the bus: the phase it is issued in, the action, and the answer that ends it. -/
structure Exchange where
  phase : Phase
  action : Action
  answer : Response

/-- The exchange of a byte that a continue command issues with the controller at `k`. -/
def byteExchange (ea : Bool) (k : Controller) (r : Response) : Exchange :=
  ⟨k.phase, if k.phase = .mr then .rx ea else .tx k.data, r⟩

/-- What `writeByte` and `readByte` make of the controller `k` and return, by the exchange their byte is (44_byte_transfer.md R180,
R182). -/
inductive ByteReturns (k : Controller) : Instr → Exchange → Controller → Ret → Prop
  | write {b : Byte} {r : Response} {k' : Controller} {ok : Bool} (hends : ByteEnds false (k.withData b) r k')
      (hok : writeOk k'.status = ok) : ByteReturns k (.wrbyte b) (byteExchange false (k.withData b) r) k' (.bool ok)
  | read {ack : Bool} {r : Response} {k' : Controller} (hends : ByteEnds ack k r k') (hok : readOk k'.status = true) :
      ByteReturns k (.rdbyte ack) (byteExchange ack k r) k' (.read true (some k'.data))
  | readFailed {ack : Bool} {r : Response} {k' : Controller} (hends : ByteEnds ack k r k') (hok : readOk k'.status = false) :
      ByteReturns k (.rdbyte ack) (byteExchange ack k r) k' (.read false none)

/-! ### The driver between two calls of a contract -/

/-- The contract `c`, called by the statement that `o` stands at, is in progress; the controller is at `k`, the coming choices are
`queue`. -/
structure Serving (o : State) (c : Contract) (k : Controller) (queue : List Turn) (s : State) : Prop where
  controller : s.toController = k
  contract : s.contract = some c
  no_fault : s.fault = none
  ready : driverReady s
  program : s.program = o.program
  params : s.params = o.params
  pos : s.pos = o.pos + 1
  turns : s.turns = queue

/-- The contract `c` is in progress and its next call has not begun. -/
structure AtCall (o : State) (c : Contract) (k : Controller) (queue : List Turn) (s : State) : Prop
    extends Serving o c k queue s where
  no_prim : s.prim = none
  quiet : s.pending = none

/-- The contract called by the statement that `o` stands at has returned `v`; its `stop()` found the controller at `m`. -/
structure Returned (o : State) (v : Ret) (m : Controller) (queue : List Turn) (s : State) : Prop where
  controller : s.toController = m.stopped
  boundary : atBoundary s
  ready : driverReady s
  closed : s.txnOpen = false
  ret : s.ret = some v
  program : s.program = o.program
  params : s.params = o.params
  pos : s.pos = o.pos + 1
  turns : s.turns = queue

section
variable {o s : State} {c c' : Contract} {k k' m : Controller} {queue : List Turn} {r v : Ret}

theorem Serving.goesOn (h : Serving o c k queue s) (hp : s.pending = none) (hnext : c.next r = .inl c') :
    AtCall o c' k queue (finishPrim r s) := by
  rw [finishPrim_contract r h.contract h.ready.2, hnext]
  exact ⟨⟨h.controller, rfl, h.no_fault, h.ready, h.program, h.params, h.pos, h.turns⟩, rfl, hp⟩

theorem Serving.returns (h : Serving o c m.stopped queue s) (htxn : s.txnOpen = false) (hnext : c.next r = .inr v) :
    Returned o v m queue (finishPrim r s) := by
  rw [finishPrim_contract r h.contract h.ready.2, hnext]
  exact ⟨h.controller, ⟨h.no_fault, rfl, rfl⟩, h.ready, htxn, rfl, h.program, h.params, h.pos, h.turns⟩

theorem AtCall.step_eq (h : AtCall o c k queue s) : step s = exec c.call s :=
  step_contract_quiet h.no_fault h.quiet h.no_prim h.contract

theorem AtCall.byteStart (h : AtCall o c k queue s) (hlimit : o.params.pollLimit = none) (hph : s.phase ∈ [.started, .mt, .mr]) :
    ByteStart s :=
  ⟨h.no_fault, h.ready, h.quiet, hph, h.params ▸ hlimit⟩

theorem Serving.polled (h : Serving o c k queue s) (rest : List Turn) (n : Nat) (b : Byte) (x : Option Byte) :
    Serving o c k rest (polled rest n b x s) :=
  ⟨h.controller, h.contract, h.no_fault, h.ready, h.program, h.params, h.pos, rfl⟩

theorem Serving.startDone (h : Serving o c k queue s) : Serving o c k.started queue (startDone s) :=
  ⟨congrArg Controller.started h.controller, h.contract, h.no_fault, h.ready, h.program, h.params, h.pos, h.turns⟩

theorem Serving.stopDone (h : Serving o c k queue s) : Serving o c k.stopped queue (stopDone s) :=
  ⟨congrArg Controller.stopped h.controller, h.contract, h.no_fault, h.ready, h.program, h.params, h.pos, h.turns⟩

theorem Serving.txnClosed (h : Serving o c k queue s) : Serving o c k queue { s with txnOpen := false } :=
  ⟨h.controller, h.contract, h.no_fault, h.ready, h.program, h.params, h.pos, h.turns⟩

theorem Serving.storeData (h : Serving o c k queue s) (b : Byte) : Serving o c (k.withData b) queue (storeData b s) :=
  ⟨congrArg (Controller.withData b) h.controller, h.contract, h.no_fault, h.ready, h.program, h.params, h.pos, h.turns⟩

/-- A byte's completion leaves the driver and the program alone. -/
theorem Serving.byteDone {ea : Bool} {x : Response} (h : Serving o c k queue s) (hends : ByteEnds ea s.toController x k') :
    Serving o c k' (byteDone ea x s).turns (byteDone ea x s) := by
  have hdriver : (Machine.byteDone ea x s).toDriver = s.toDriver := ctrlStep_toDriver _ _ _
  have hframe := ctrlStep_stepFrame (byteAction ea s) x (byteIssued ea s)
  refine ⟨hends.byteDone_toController, ?_, ?_, ?_, ?_, ?_, ?_, rfl⟩
  · exact (congrArg Driver.contract hdriver).trans h.contract
  · exact hframe.fault.trans h.no_fault
  · exact ⟨(congrArg Driver.lifecycle hdriver).trans h.ready.1, (congrArg Driver.wedged hdriver).trans h.ready.2⟩
  · exact hframe.program.trans h.program
  · exact hframe.params.trans h.params
  · exact (congrArg Driver.pos hdriver).trans h.pos

theorem Serving.byteJudged (h : Serving o c k queue s) (rest : List Turn) (ok : Bool) :
    Serving o c k rest (byteJudged rest ok s) :=
  ⟨h.controller, h.contract, h.no_fault, h.ready, h.program, h.params, h.pos, rfl⟩

theorem Serving.byteReceived (h : Serving o c k queue s) (rest : List Turn) : Serving o c k rest (byteReceived rest s) :=
  ⟨h.controller, h.contract, h.no_fault, h.ready, h.program, h.params, h.pos, rfl⟩

/-- What `start()` leaves whose poll has ended in `s`: a checked one has read a code of START_OK (43_transaction_primitives.md
R172). -/
def startReturned (s : State) : State :=
  if s.params.startCheck then finishPrim .startOk { s with
    locals := { s.locals with st := statusByte s, ok := 1, s := maskCode (statusByte s) }, result := some (statusByte s) }
  else finishPrim .unit s

/-- When its poll has ended, `start()` returns, or has its STATUS read to make first. -/
theorem startPolled_returns (hf : s.fault = none) (hp : s.pending = none) (hok : startOk (statusByte s) = true) :
    startPolled s = startReturned s ∨
      (startPolled s).pending = none ∧ step (startPolled s) = .next (startReturned s) := by
  unfold startPolled startReturned
  split
  · exact .inr ⟨hp, step_startStatus (s := goOn .startStatus s) hf hp rfl hok⟩
  · exact .inl rfl

theorem Serving.startReturned (h : Serving o c k queue s) (hp : s.pending = none) (hnext : ∀ r, c.next r = .inl c') :
    AtCall o c' k queue (startReturned s) := by
  unfold Machine.startReturned
  split
  · exact Serving.goesOn ⟨h.controller, h.contract, h.no_fault, h.ready, h.program, h.params, h.pos, h.turns⟩ hp (hnext _)
  · exact h.goesOn hp (hnext _)

end

end Sys2Proof.Machine

/-! PROOFS. The machine closed with the reference slave (95_test_vectors.md section 4, schedule S0): its steps, and the primitives'
runs in it. -/

namespace Sys2Proof.Machine

theorem systemStep_quiet {s t : State} (d : Slave) (hp : s.pending = none) (h : step s = .next t) :
    systemStep (s, d) = some (t, d) := by
  simp [systemStep, hp, h]

theorem systemStep_answer {s : State} {d e : Slave} {a : Action} {r : Response} (hf : s.fault = none) (hp : s.pending = some a)
    (hanswer : slaveAnswer s.phase a d = (r, e)) : systemStep (s, d) = some (ctrlStep a r s, e) := by
  simp only [systemStep, hp, hanswer]
  rw [step_ctrl (s := { s with turns := .ctrl r :: s.turns }) hf hp rfl]

theorem systemRun_succ {n : Nat} {p q : State × Slave} (h : systemStep p = some q) : systemRun (n + 1) p = systemRun n q := by
  simp [systemRun, h]

theorem systemRun_add (m n : Nat) (p : State × Slave) : systemRun (m + n) p = (systemRun m p).bind (systemRun n) := by
  induction m generalizing p with
  | zero => simp [systemRun]
  | succ m ih =>
    rw [Nat.succ_add]
    cases h : systemStep p <;> simp [systemRun, h, ih]

theorem systemRun_trans {m n : Nat} {p q w : State × Slave} (h : systemRun m p = some q) (h' : systemRun n q = some w) :
    systemRun (m + n) p = some w := by
  rw [systemRun_add, h]
  exact h'

theorem systemRun_snoc {n : Nat} {p q w : State × Slave} (h : systemRun n p = some q) (h' : systemStep q = some w) :
    systemRun (n + 1) p = some w :=
  systemRun_trans h ((systemRun_succ (n := 0) h').trans rfl)

/-- A first access that issues an action, and the slave's answer to it. -/
theorem systemRun_begin_answer {s t : State} {d e : Slave} {a : Action} {r : Response} (hp : s.pending = none)
    (hfirst : step s = .next t) (hf : t.fault = none) (hissued : t.pending = some a)
    (hanswer : slaveAnswer t.phase a d = (r, e)) : systemRun 2 (s, d) = some (ctrlStep a r t, e) := by
  rw [systemRun_succ (systemStep_quiet d hp hfirst), systemRun_succ (systemStep_answer hf hissued hanswer)]
  rfl

/-- The slave's answer to a byte and the read that finds INT set: `p` is the poll loop of the primitive, `q` the access after it. -/
theorem systemRun_byte {p q : PrimPoint} {ea : Bool} {r : Response} {u : State} {d e : Slave}
    (hpoll : ∀ u, resumePrim p u = .next (primPoll true 0x80 (goOn q) u)) (hf : u.fault = none) (hends : EndsByte ea r u)
    (hanswer : slaveAnswer u.phase (byteAction ea u) d = (r, e)) :
    systemRun 2 (goOn p (byteIssued ea u), d) = some (byteSeen u.turns q (byteDone ea r u), e) := by
  have hstep := systemStep_answer (s := goOn p (byteIssued ea u)) hf rfl hanswer
  have hdone : ctrlStep (byteAction ea u) r (goOn p (byteIssued ea u)) =
      polled u.turns 0 u.locals.c u.result (goOn p (byteDone ea r u)) :=
    ctrlStep_polled _ r u.turns 0 u.locals.c u.result p (byteIssued ea u)
  obtain ⟨-, hctrl⟩ := ctrlStep_of_admitted (byteIssued ea u) hends
  rw [if_neg (byteAction_ne_stop ea u)] at hctrl
  have hfault : (byteDone ea r u).fault = none := (byteDone_fault ea r u).trans hf
  rw [hdone] at hstep
  rw [systemRun_succ hstep]
  have hread := step_bytePoll (s := polled u.turns 0 u.locals.c u.result (goOn p (byteDone ea r u))) hpoll hfault hends.quiet rfl
    (congrArg Ctrl.int hctrl)
  exact systemRun_snoc (n := 0) rfl (systemStep_quiet e hends.quiet hread)

section
variable {s : State} {b : Byte} {ack ok : Bool} {r : Response} {d e : Slave}

/-- The START command, the slave's answer, and the read that finds INT set. -/
theorem systemRun_start (hexec : step s = exec .start s) (hf : s.fault = none) (hready : driverReady s) (hp : s.pending = none)
    (hph : s.phase ≠ .busErr) (hanswer : slaveAnswer (commandPhase s.phase) .start d = (.startOk, e)) :
    systemRun 3 (s, d) = some (startPolled (polled s.turns 0 0xA4 (some 0xA4) (startDone s)), e) := by
  obtain ⟨hstart, -⟩ := transactionPrimitivesBegin s hready
  rw [commandPhase_eq] at hanswer
  have hissued := systemRun_begin_answer hp (hexec.trans (hstart hp hph)) hf rfl hanswer
  have hdone := hissued.trans (congrArg (fun t => some (t, e)) (completeStart_issued s.turns 0 s.locals.c s.result s))
  have hpoll := step_startPoll (s := polled s.turns 0 s.locals.c s.result (startDone s)) hf rfl rfl rfl
  have hbyte : ctrlByte (polled s.turns 0 s.locals.c s.result (startDone s)) = packCtrl true false true false true := rfl
  obtain ⟨-, -, hcommand, -⟩ := commandWords
  rw [hbyte, ← hcommand] at hpoll
  exact systemRun_snoc hdone (systemStep_quiet e rfl hpoll)

/-- The STOP command, the slave's answer, and the read that finds STO clear. -/
theorem systemRun_stop (hexec : step s = exec .stop s) (hf : s.fault = none) (hready : driverReady s) (hp : s.pending = none)
    (hanswer : slaveAnswer (commandPhase s.phase) .stop d = (.stopOk, e)) :
    systemRun 3 (s, d) =
      some (finishPrim .unit { polled s.turns 0 0x04 (some 0x04) (stopDone s) with txnOpen := false }, e) := by
  obtain ⟨-, -, hstop, -⟩ := transactionPrimitivesBegin s hready
  rw [commandPhase_eq] at hanswer
  have hissued := systemRun_begin_answer hp (hexec.trans (hstop hp)) hf rfl hanswer
  have hdone := hissued.trans (congrArg (fun t => some (t, e)) (completeStop_issued s.turns 0 s.locals.c s.result s))
  have hpoll := step_stopPoll (s := polled s.turns 0 s.locals.c s.result (stopDone s)) hf rfl rfl rfl
  have hbyte : ctrlByte (polled s.turns 0 s.locals.c s.result (stopDone s)) = packCtrl false false false false true := rfl
  rw [hbyte, ← commandWords.1] at hpoll
  exact systemRun_snoc hdone (systemStep_quiet e rfl hpoll)

/-- `writeByte` from its DATA write to its return. -/
theorem systemRun_wrbyte (hexec : step s = exec (.wrbyte b) s) (h : ByteStart s) (hends : EndsByte false r (storeData b s))
    (hanswer : slaveAnswer s.phase (byteAction false (storeData b s)) d = (r, e))
    (hok : writeOk (statusByte (byteDone false r (storeData b s))) = ok) :
    systemRun 5 (s, d) = some (finishPrim (.bool ok) (byteJudged s.turns ok (byteDone false r (storeData b s))), e) := by
  subst hok
  have hcommand := step_wrbyteCtrl (s := goOn .wrbyteCtrl (storeData b s)) h.no_fault h.quiet rfl
  rw [writeCtrl_continue (s := goOn .wrbyteCtrl (storeData b s)) h.quiet h.transferring, andThen_next] at hcommand
  have hbyte := systemRun_byte (u := storeData b s) (p := .wrbytePoll) (q := .wrbyteStatus) (fun _ => rfl) h.no_fault hends hanswer
  have hf : (byteDone false r (storeData b s)).fault = none := (byteDone_fault _ _ _).trans h.no_fault
  have hstatus := step_wrbyteStatus (rest := s.turns) hf hends.quiet
  rw [systemRun_succ (systemStep_quiet d h.quiet (hexec.trans (exec_wrbyte_quiet h.ready h.quiet))),
    systemRun_succ (systemStep_quiet (s := goOn .wrbyteCtrl (storeData b s)) d h.quiet hcommand)]
  exact systemRun_snoc hbyte (systemStep_quiet e hends.quiet hstatus)

/-- `readByte` from its continue write to the read that finds INT set. -/
theorem systemRun_rdbyte (hexec : step s = exec (.rdbyte ack) s) (h : ByteStart s) (hends : EndsByte ack r s)
    (hanswer : slaveAnswer s.phase (byteAction ack s) d = (r, e)) :
    systemRun 3 (s, d) = some (byteSeen s.turns .rdbyteStatus (byteDone ack r s), e) := by
  rw [systemRun_succ (systemStep_quiet d h.quiet (hexec.trans (exec_rdbyte_quiet h.ready h.quiet h.transferring)))]
  exact systemRun_byte (fun _ => rfl) h.no_fault hends hanswer

theorem systemRun_rdbyte_failed (hexec : step s = exec (.rdbyte ack) s) (h : ByteStart s) (hends : EndsByte ack r s)
    (hanswer : slaveAnswer s.phase (byteAction ack s) d = (r, e)) (hok : readOk (statusByte (byteDone ack r s)) = false) :
    systemRun 4 (s, d) = some (finishPrim (.read false none) (byteJudged s.turns false (byteDone ack r s)), e) := by
  have hstatus := step_rdbyteStatus (rest := s.turns) ((byteDone_fault _ _ _).trans h.no_fault) hends.quiet
  rw [hok, if_neg Bool.false_ne_true] at hstatus
  exact systemRun_snoc (systemRun_rdbyte hexec h hends hanswer) (systemStep_quiet e hends.quiet hstatus)

theorem systemRun_rdbyte_ok (hexec : step s = exec (.rdbyte ack) s) (h : ByteStart s) (hends : EndsByte ack r s)
    (hanswer : slaveAnswer s.phase (byteAction ack s) d = (r, e)) (hok : readOk (statusByte (byteDone ack r s)) = true) :
    systemRun 5 (s, d) =
      some (finishPrim (.read true (some (byteDone ack r s).data)) (byteReceived s.turns (byteDone ack r s)), e) := by
  have hf : (byteDone ack r s).fault = none := (byteDone_fault _ _ _).trans h.no_fault
  have hstatus := step_rdbyteStatus (rest := s.turns) hf hends.quiet
  rw [hok, if_pos rfl] at hstatus
  have hdata := step_rdbyteData (s := byteJudged s.turns true (byteDone ack r s)) hf hends.quiet
  exact systemRun_snoc (systemRun_snoc (systemRun_rdbyte hexec h hends hanswer) (systemStep_quiet e hends.quiet hstatus))
    (systemStep_quiet e hends.quiet hdata)

end

end Sys2Proof.Machine

/-! PROOFS. A contract call as a list of exchanges on the bus: every schedule and every slave that give their answers lead it to its
return. -/

namespace Sys2Proof.Machine

/-! ### A contract call by its exchanges -/

/-- The next call of the contract `c`, made with the controller at `k`, is the exchange `x`; the contract then goes on at `c'` with
the controller at `m`. -/
inductive CallGoesOn (c : Contract) (k : Controller) : Exchange → Contract → Controller → Prop
  | start {c' : Contract} (hcall : c.call = .start) (hnext : ∀ r, c.next r = .inl c') (hph : k.phase ≠ .busErr) :
      CallGoesOn c k ⟨commandPhase k.phase, .start, .startOk⟩ c' k.started
  | byte {c' : Contract} {m : Controller} {x : Exchange} {r : Ret} (hbyte : ByteReturns k c.call x m r)
      (hnext : c.next r = .inl c') : CallGoesOn c k x c' m

/-- The contract `c`, about to make its next call with the controller at `k`, makes the exchanges of the list, of which the last is
its `stop()`, and returns `v`; that `stop()` finds the controller at `m`. The driver is not wedged. -/
inductive Transacts : Contract → Controller → List Exchange → Ret → Controller → Prop
  | call {c c' : Contract} {k k' m : Controller} {x : Exchange} {xs : List Exchange} {v : Ret} (hcall : CallGoesOn c k x c' k')
      (hmore : Transacts c' k' xs v m) : Transacts c k (x :: xs) v m
  | stop {c : Contract} {k : Controller} {v : Ret} (hcall : c.call = .stop) (hnext : c.next .unit = .inr v) :
      Transacts c k [⟨commandPhase k.phase, .stop, .stopOk⟩] v k

/-! ### A call of a contract -/

/-- The call that `s` is about to make ends in `t rest` under every schedule that gives the answer of the exchange `x` and leaves
`rest` of the queue, and with every slave that gives this answer, where the queue stays as it is. -/
structure CallEnds (x : Exchange) (s : State) (t : List Turn → State) : Prop where
  scheduled : ∀ ts rest, idleTurns ts = true → s.turns = thenAnswer ts x.answer rest → ∃ n, run (n + 1) s = .next (t rest)
  answered : ∀ d e, slaveAnswer x.phase x.action d = (x.answer, e) → ∃ n, systemRun (n + 1) (s, d) = some (t s.turns, e)

section
variable {o s : State} {c c' : Contract} {k k' : Controller} {queue : List Turn} {x : Exchange} {r v : Ret}

theorem AtCall.start_ends (h : AtCall o c k queue s) (hlimit : o.params.pollLimit = none) (hcall : c.call = .start)
    (hnext : ∀ r, c.next r = .inl c') (hph : k.phase ≠ .busErr) :
    ∃ t, CallEnds ⟨commandPhase k.phase, .start, .startOk⟩ s t ∧ ∀ rest, AtCall o c' k.started rest (t rest) := by
  obtain rfl := h.controller
  have hexec : step s = exec .start s := hcall ▸ h.step_eq
  have hserving rest := h.toServing.startDone.polled rest 0 0xA4 (some 0xA4)
  have hreturns rest := startPolled_returns (hserving rest).no_fault rfl (startOk_startDone (s := s) rfl)
  refine ⟨_, ⟨fun ts rest hidle hts => ?_, fun d e hanswer => ?_⟩, fun rest => (hserving rest).startReturned rfl hnext⟩
  · have hrun := run_start hexec h.no_fault h.ready h.quiet hph (h.params ▸ hlimit) hidle hts
    rcases hreturns rest with hunchecked | ⟨-, hstatus⟩
    · exact ⟨_, hunchecked ▸ hrun⟩
    · exact ⟨_, run_snoc hrun hstatus⟩
  · have hrun := systemRun_start hexec h.no_fault h.ready h.quiet hph hanswer
    rcases hreturns s.turns with hunchecked | ⟨hp, hstatus⟩
    · exact ⟨_, hunchecked ▸ hrun⟩
    · exact ⟨_, systemRun_snoc hrun (systemStep_quiet e hp hstatus)⟩

theorem AtCall.byte_ends (h : AtCall o c k queue s) (hlimit : o.params.pollLimit = none) (hbyte : ByteReturns k c.call x k' r)
    (hnext : c.next r = .inl c') : ∃ t, CallEnds x s t ∧ ∀ rest, AtCall o c' k' rest (t rest) := by
  obtain rfl := h.controller
  have hexec := h.step_eq
  generalize c.call = i at hbyte hexec
  cases hbyte with
  | @write b r k' ok hends hok =>
    have hends : ByteEnds false (storeData b s).toController r k' := hends
    have hserving := (h.toServing.storeData b).byteDone hends
    have hstart := h.byteStart hlimit hends.transferring
    obtain rfl := hserving.controller
    exact ⟨_, ⟨fun ts rest hidle hts => ⟨_, run_wrbyte hexec hstart hidle hts hends.endsByte hok⟩,
        fun d e hanswer => ⟨_, systemRun_wrbyte hexec hstart hends.endsByte hanswer hok⟩⟩,
      fun rest => (hserving.byteJudged rest ok).goesOn hends.endsByte.quiet hnext⟩
  | @read ack r k' hends hok =>
    have hserving := h.toServing.byteDone hends
    have hstart := h.byteStart hlimit hends.transferring
    obtain rfl := hserving.controller
    exact ⟨_, ⟨fun ts rest hidle hts => ⟨_, run_rdbyte_ok hexec hstart hidle hts hends.endsByte hok⟩,
        fun d e hanswer => ⟨_, systemRun_rdbyte_ok hexec hstart hends.endsByte hanswer hok⟩⟩,
      fun rest => (hserving.byteReceived rest).goesOn hends.endsByte.quiet hnext⟩
  | @readFailed ack r k' hends hok =>
    have hserving := h.toServing.byteDone hends
    have hstart := h.byteStart hlimit hends.transferring
    obtain rfl := hserving.controller
    exact ⟨_, ⟨fun ts rest hidle hts => ⟨_, run_rdbyte_failed hexec hstart hidle hts hends.endsByte hok⟩,
        fun d e hanswer => ⟨_, systemRun_rdbyte_failed hexec hstart hends.endsByte hanswer hok⟩⟩,
      fun rest => (hserving.byteJudged rest false).goesOn hends.endsByte.quiet hnext⟩

theorem AtCall.call_ends (h : AtCall o c k queue s) (hlimit : o.params.pollLimit = none) (hcall : CallGoesOn c k x c' k') :
    ∃ t, CallEnds x s t ∧ ∀ rest, AtCall o c' k' rest (t rest) := by
  cases hcall with
  | start hcall hnext hph => exact h.start_ends hlimit hcall hnext hph
  | byte hbyte hnext => exact h.byte_ends hlimit hbyte hnext

theorem AtCall.stop_ends (h : AtCall o c k queue s) (hlimit : o.params.pollLimit = none) (hcall : c.call = .stop)
    (hnext : c.next .unit = .inr v) :
    ∃ t, CallEnds ⟨commandPhase k.phase, .stop, .stopOk⟩ s t ∧ ∀ rest, Returned o v k rest (t rest) := by
  obtain rfl := h.controller
  have hexec : step s = exec .stop s := hcall ▸ h.step_eq
  exact ⟨_, ⟨fun ts rest hidle hts => ⟨_, run_stop hexec h.no_fault h.ready h.quiet (h.params ▸ hlimit) hidle hts⟩,
      fun d e hanswer => ⟨_, systemRun_stop hexec h.no_fault h.ready h.quiet hanswer⟩⟩,
    fun rest => (h.toServing.stopDone.polled rest 0 0x04 (some 0x04)).txnClosed.returns rfl hnext⟩

end

/-! ### A contract call returns -/

theorem run_trans {m n : Nat} {s t u : State} (h : run m s = .next t) (h' : run n t = .next u) : run (m + n) s = .next u := by
  rw [run_add, h]
  exact h'

/-- The slave `d` gives the answers of the exchanges, and is `e` after them. -/
inductive SlaveAnswers : Slave → List Exchange → Slave → Prop
  | nil (d : Slave) : SlaveAnswers d [] d
  | cons {d e f : Slave} {x : Exchange} {xs : List Exchange} (hanswer : slaveAnswer x.phase x.action d = (x.answer, e))
      (hmore : SlaveAnswers e xs f) : SlaveAnswers d (x :: xs) f

section
variable {o s : State} {c : Contract} {k m : Controller} {queue rest : List Turn} {xs : List Exchange} {v : Ret}
  {sched : List (List Turn × Response)} {d e : Slave}

/-- Under every schedule that gives the answers of its exchanges, a contract in progress returns. -/
theorem Transacts.returns (htrans : Transacts c k xs v m) (hlimit : o.params.pollLimit = none)
    (hidle : ∀ q ∈ sched, idleTurns q.1 = true) (hanswers : sched.map Prod.snd = xs.map Exchange.answer)
    (h : AtCall o c k (answerTurns sched rest) s) : ∃ n t, run (n + 1) s = .next t ∧ Returned o v m rest t := by
  induction htrans generalizing s sched with
  | call hcall _ ih =>
    obtain ⟨⟨ts, _⟩, more, rfl, rfl, hmore⟩ := List.map_eq_cons_iff.1 hanswers
    obtain ⟨hts, hidle⟩ := List.forall_mem_cons.1 hidle
    obtain ⟨t, hends, hat⟩ := h.call_ends hlimit hcall
    obtain ⟨n, hrun⟩ := hends.scheduled ts _ hts h.turns
    obtain ⟨n', u, hrest, hreturned⟩ := ih hidle hmore (hat _)
    exact ⟨n + 1 + n', u, run_trans (n := n' + 1) hrun hrest, hreturned⟩
  | stop hcall hnext =>
    obtain ⟨⟨ts, _⟩, more, rfl, rfl, hmore⟩ := List.map_eq_cons_iff.1 hanswers
    obtain rfl := List.map_eq_nil_iff.1 hmore
    obtain ⟨t, hends, hreturned⟩ := h.stop_ends hlimit hcall hnext
    obtain ⟨n, hrun⟩ := hends.scheduled ts rest (hidle _ List.mem_cons_self) h.turns
    exact ⟨n, _, hrun, hreturned rest⟩

/-- With a slave that gives the answers of its exchanges, a contract in progress returns. -/
theorem Transacts.system_returns (htrans : Transacts c k xs v m) (hlimit : o.params.pollLimit = none)
    (hslave : SlaveAnswers d xs e) (h : AtCall o c k queue s) :
    ∃ n t, systemRun (n + 1) (s, d) = some (t, e) ∧ Returned o v m queue t := by
  induction htrans generalizing s d with
  | call hcall _ ih =>
    cases hslave with
    | cons hanswer hmore =>
      obtain ⟨t, hends, hat⟩ := h.call_ends hlimit hcall
      obtain ⟨n, hrun⟩ := hends.answered d _ hanswer
      rw [h.turns] at hrun
      obtain ⟨n', u, hrest, hreturned⟩ := ih hmore (hat queue)
      exact ⟨n + 1 + n', u, systemRun_trans (n := n' + 1) hrun hrest, hreturned⟩
  | stop hcall hnext =>
    cases hslave with
    | cons hanswer hmore =>
      cases hmore
      obtain ⟨t, hends, hreturned⟩ := h.stop_ends hlimit hcall hnext
      obtain ⟨n, hrun⟩ := hends.answered d _ hanswer
      exact ⟨n, _, hrun, h.turns ▸ hreturned s.turns⟩

end

/-! ### The statement that calls a contract -/

theorem readyState.quiet {s : State} (h : readyState s) : s.pending = none := h.2.2.2.2

theorem readyState.idle {s : State} (h : readyState s) : s.phase = .idle := h.2.2.2.1

theorem readyState.ne_busErr {s : State} (h : readyState s) : s.phase ≠ .busErr := by
  simp [h.idle]

theorem readyState.atCall {s : State} (h : readyState s) (c : Contract) :
    AtCall s c s.toController s.turns (inContract c (advance s)) := by
  obtain ⟨⟨hf, hprim, -⟩, hready, -, -, hp⟩ := h
  exact ⟨⟨rfl, rfl, hf, hready, rfl, rfl, rfl, rfl⟩, hprim, hp⟩

/-- The statement calls `writeRegister`: its step is the first of the contract's `start()`. -/
theorem step_wrreg {dev reg val : Byte} {s : State} (h : readyState s) (hdev : dev.toNat ≤ 0x7F)
    (hc : s.program[s.pos]? = some (.call (.wrreg (.lit dev) (.lit reg) (.lit val)))) :
    step s = step (inContract (.wrreg dev reg val .start) (advance s)) := by
  rw [(h.atCall _).step_eq, step_call_quiet h.1 h.quiet hc]
  exact exec_wrreg hdev

/-- The statement calls `readRegister`: its step is the first of the contract's `start()`. -/
theorem step_rdreg {dev reg : Byte} {s : State} (h : readyState s) (hdev : dev.toNat ≤ 0x7F)
    (hc : s.program[s.pos]? = some (.call (.rdreg (.lit dev) (.lit reg)))) :
    step s = step (inContract (.rdreg dev reg .start) (advance s)) := by
  rw [(h.atCall _).step_eq, step_call_quiet h.1 h.quiet hc]
  exact exec_rdreg hdev

/-- A statement that calls a contract, under every schedule that gives the answers of its exchanges. -/
theorem Transacts.call_returns {c : Contract} {m : Controller} {xs : List Exchange} {v : Ret} {s : State} {rest : List Turn}
    {sched : List (List Turn × Response)} (htrans : Transacts c s.toController xs v m) (h : readyState s)
    (hstep : step s = step (inContract c (advance s))) (hlimit : s.params.pollLimit = none)
    (hidle : ∀ q ∈ sched, idleTurns q.1 = true) (hanswers : sched.map Prod.snd = xs.map Exchange.answer)
    (hts : s.turns = answerTurns sched rest) : ∃ n t, run n s = .next t ∧ Returned s v m rest t := by
  obtain ⟨n, t, hrun, hreturned⟩ := htrans.returns hlimit hidle hanswers (hts ▸ h.atCall c)
  refine ⟨n + 1, t, ?_, hreturned⟩
  rw [run, hstep]
  exact hrun

/-- A statement that calls a contract, with a slave that gives the answers of its exchanges. -/
theorem Transacts.system_call_returns {c : Contract} {m : Controller} {xs : List Exchange} {v : Ret} {s : State} {d e : Slave}
    (htrans : Transacts c s.toController xs v m) (h : readyState s) (hstep : step s = step (inContract c (advance s)))
    (hlimit : s.params.pollLimit = none) (hslave : SlaveAnswers d xs e) :
    ∃ n t, systemRun n (s, d) = some (t, e) ∧ Returned s v m s.turns t := by
  have hat := h.atCall c
  obtain ⟨n, t, hrun, hreturned⟩ := htrans.system_returns hlimit hslave hat
  have hfirst : systemStep (s, d) = systemStep (inContract c (advance s), d) := by
    simp only [systemStep, h.quiet, hat.quiet, hstep]
  refine ⟨n + 1, t, ?_, hreturned⟩
  rw [systemRun, hfirst]
  exact hrun

end Sys2Proof.Machine

/-! PROOFS. What `writeRegister` and `readRegister` put on the bus and return (45_register_access_contract.md R200, R201, R203), and
the round trip with the reference slave (R204). -/

namespace Sys2Proof.Machine

/-! ### The bytes of a contract, by the phase they are sent in (R133 to R136, 30_encoding.md R80) -/

theorem byteBit_addressByte (dev : Byte) (read : Bool) : byteBit (addressByte dev read) 0 = read := by
  cases read <;> simp [byteBit, addressByte, bitAt]

/-- The controller after an address byte. -/
def Controller.addressed (dev : Byte) (read ack : Bool) (k : Controller) : Controller :=
  (k.withData (addressByte dev read)).byteEnded false (addressCode read ack) (addressPhase read ack)
    (.addr (addressByte dev read) ack)

/-- The controller after a data byte sent. -/
def Controller.transmitted (b : Byte) (ack : Bool) (k : Controller) : Controller :=
  (k.withData b).byteEnded false (dataCode ack) (dataPhase ack) (.txdata b ack)

section
variable {k : Controller} {b dev x : Byte} {read ack : Bool}

theorem ByteReturns.address (hph : k.phase = .started) :
    ByteReturns k (.wrbyte (addressByte dev read)) ⟨.started, .tx (addressByte dev read), .txAck ack⟩ (k.addressed dev read ack)
      (.bool ack) := by
  have h : ByteReturns k _ _ _ _ :=
    .write (.sent (k := k.withData (addressByte dev read)) ack (.inl hph)) (statusTests_sentCode _ _ _ _).1
  simpa [byteExchange, Controller.sent, Controller.withData, Controller.addressed, sentCode, sentPhase, sentEvent, hph,
    byteBit_addressByte] using h

theorem ByteReturns.data (hph : k.phase = .mt) :
    ByteReturns k (.wrbyte b) ⟨.mt, .tx b, .txAck ack⟩ (k.transmitted b ack) (.bool ack) := by
  have h : ByteReturns k _ _ _ _ := .write (.sent (k := k.withData b) ack (.inr hph)) (statusTests_sentCode _ _ _ _).1
  simpa [byteExchange, Controller.sent, Controller.withData, Controller.transmitted, sentCode, sentPhase, sentEvent, hph] using h

theorem ByteReturns.writeError (hph : k.phase = .started ∨ k.phase = .mt) :
    ByteReturns k (.wrbyte b) (byteExchange false (k.withData b) .busErr) ((k.withData b).byteFailed false) (.bool false) :=
  .write (.busErr (mem_transferring.2 (.inl hph))) (statusTests_busErr _).1

theorem ByteReturns.reception (hph : k.phase = .mr) :
    ByteReturns k (.rdbyte ack) ⟨.mr, .rx ack, .rxByte x⟩ (k.received ack x) (.read true (some x)) := by
  have h : ByteReturns k _ _ _ (.read true (some x)) := .read (.received (ea := ack) x hph) (statusTests_receiveCode _ _).2
  simpa [byteExchange, hph] using h

theorem ByteReturns.readError (hph : k.phase = .mr) :
    ByteReturns k (.rdbyte ack) (byteExchange ack k .busErr) (k.byteFailed ack) (.read false none) :=
  .readFailed (.busErr (mem_transferring.2 (.inr hph))) (statusTests_busErr _).2

end

/-! ### The exchanges of `writeRegister` and `readRegister` (R200, R201) -/

@[simp] theorem Controller.started_frame (k : Controller) : k.started.phase = .started ∧
    k.started.busLog = k.busLog ++ [if k.phase = .off ∨ k.phase = .idle then .start else .rstart] := ⟨rfl, rfl⟩

@[simp] theorem Controller.stopped_busLog (k : Controller) :
    k.stopped.busLog = if owned k.phase = true then k.busLog ++ [.stop] else k.busLog := rfl

@[simp] theorem Controller.byteEnded_frame (ea : Bool) (code : Byte) (ph : Phase) (e : BusEvent) (k : Controller) :
    (k.byteEnded ea code ph e).phase = ph ∧ (k.byteEnded ea code ph e).busLog = k.busLog ++ [e] := ⟨rfl, rfl⟩

@[simp] theorem Controller.withData_frame (b : Byte) (k : Controller) :
    (k.withData b).phase = k.phase ∧ (k.withData b).busLog = k.busLog := ⟨rfl, rfl⟩

@[simp] theorem Controller.addressed_frame (dev : Byte) (read ack : Bool) (k : Controller) :
    (k.addressed dev read ack).phase = addressPhase read ack ∧
    (k.addressed dev read ack).busLog = k.busLog ++ [.addr (addressByte dev read) ack] := ⟨rfl, rfl⟩

@[simp] theorem Controller.transmitted_frame (b : Byte) (ack : Bool) (k : Controller) :
    (k.transmitted b ack).phase = dataPhase ack ∧ (k.transmitted b ack).busLog = k.busLog ++ [.txdata b ack] := ⟨rfl, rfl⟩

@[simp] theorem Controller.received_frame (ea : Bool) (x : Byte) (k : Controller) :
    (k.received ea x).phase = receivePhase ea ∧ (k.received ea x).busLog = k.busLog ++ [.rxdata x ea] := ⟨rfl, rfl⟩

@[simp] theorem Controller.byteFailed_frame (ea : Bool) (k : Controller) :
    (k.byteFailed ea).phase = .busErr ∧ (k.byteFailed ea).busLog = k.busLog ++ [.busError] := ⟨rfl, rfl⟩

@[simp] theorem addressByte_write (dev : Byte) : addressByte dev false = dev <<< 1 := by simp [addressByte, bitAt]

@[simp] theorem addressByte_read (dev : Byte) : addressByte dev true = dev <<< 1 ||| 1 := by simp [addressByte, bitAt]

/-- The controller after the START, the address for writing and the register number. -/
def Controller.selected (dev reg : Byte) (k : Controller) : Controller :=
  (k.started.addressed dev false true).transmitted reg true

/-- The exchanges that select a register of a slave: the START, the address for writing and the register number. -/
def selectExchanges (dev reg : Byte) (k : Controller) : List Exchange :=
  [⟨commandPhase k.phase, .start, .startOk⟩, ⟨.started, .tx (addressByte dev false), .txAck true⟩,
    ⟨.mt, .tx reg, .txAck true⟩]

/-- The exchanges of the successful `writeRegister` (R200). -/
def writeExchanges (dev reg val : Byte) (k : Controller) : List Exchange :=
  selectExchanges dev reg k ++ [⟨.mt, .tx val, .txAck true⟩, ⟨.mt, .stop, .stopOk⟩]

/-- The exchanges of the successful `readRegister`, the slave sending `x` (R201). -/
def readExchanges (dev reg x : Byte) (k : Controller) : List Exchange :=
  selectExchanges dev reg k ++
    [⟨.mt, .start, .startOk⟩, ⟨.started, .tx (addressByte dev true), .txAck true⟩, ⟨.mr, .rx false, .rxByte x⟩,
      ⟨.mrDone, .stop, .stopOk⟩]

/-- The controller after a register has been selected and the slave addressed again, for reading. -/
def Controller.addressedAgain (dev reg : Byte) (k : Controller) : Controller :=
  (k.selected dev reg).started.addressed dev true true

section
variable {k m : Controller} {dev reg val x : Byte} {xs : List Exchange} {v : Ret}

theorem Transacts.wrreg_selects (hph : k.phase ≠ .busErr) (h : Transacts (.wrreg dev reg val .val) (k.selected dev reg) xs v m) :
    Transacts (.wrreg dev reg val .start) k (selectExchanges dev reg k ++ xs) v m :=
  .call (.start rfl (fun _ => rfl) hph) (.call (.byte (.address rfl) rfl) (.call (.byte (.data rfl) rfl) h))

theorem Transacts.rdreg_selects (hph : k.phase ≠ .busErr) (h : Transacts (.rdreg dev reg .restart) (k.selected dev reg) xs v m) :
    Transacts (.rdreg dev reg .start) k (selectExchanges dev reg k ++ xs) v m :=
  .call (.start rfl (fun _ => rfl) hph) (.call (.byte (.address rfl) rfl) (.call (.byte (.data rfl) rfl) h))

theorem transacts_wrreg (hph : k.phase ≠ .busErr) :
    Transacts (.wrreg dev reg val .start) k (writeExchanges dev reg val k) (.bool true)
      ((k.selected dev reg).transmitted val true) :=
  .wrreg_selects hph (.call (.byte (.data rfl) rfl) (.stop rfl rfl))

theorem transacts_rdreg (hph : k.phase ≠ .busErr) :
    Transacts (.rdreg dev reg .start) k (readExchanges dev reg x k) (.regValue (some x))
      ((k.addressedAgain dev reg).received false x) :=
  .rdreg_selects hph (.call (.start rfl (fun _ => rfl) nofun) (.call (.byte (.address rfl) rfl)
    (.call (.byte (.reception rfl) rfl) (.stop rfl rfl))))

end

/-! ### The contract's calls under every schedule -/

/-- After its `stop()` a contract leaves a complete run (70_reset_and_hazards.md R264), the controller idle. -/
theorem Returned.complete {o t : State} {v : Ret} {m : Controller} {rest : List Turn} (h : Returned o v m rest t) :
    completeRun t ∧ t.fault = none ∧ t.phase = .idle ∧ t.code = 0xF8 := by
  obtain ⟨hf, hprim, hcontract⟩ := h.boundary
  exact ⟨⟨hprim, hcontract, congrArg Controller.pending h.controller, h.closed, h.ready.2⟩, hf,
    congrArg Controller.phase h.controller, congrArg Controller.code h.controller⟩

/-- Settles O42: the exchanges of the successful `writeRegister`. -/
theorem writeRegisterPutsItsTransactionOnTheBus : Obligations.WriteRegisterPutsItsTransactionOnTheBus := by
  intro s dev reg val t1 t2 t3 t4 t5 rest h hdev hlimit hc hidle hts
  obtain ⟨n, t, hrun, hreturned⟩ := (transacts_wrreg h.ne_busErr).call_returns h (step_wrreg h hdev hc) hlimit
    (sched := [(t1, .startOk), (t2, .txAck true), (t3, .txAck true), (t4, .txAck true), (t5, .stopOk)])
    (by simpa using hidle) rfl hts
  obtain ⟨hcomplete, hf, hph, hcode⟩ := hreturned.complete
  have hk := hreturned.controller
  refine ⟨n, t, hrun, hreturned.ret, ?_, hcomplete, hf, hph, hcode, congrArg Controller.data hk, (congrArg Controller.div hk :),
    (congrArg Controller.ps hk :), congrArg Controller.ctrl hk, hreturned.pos, hreturned.turns, hreturned.ready.1⟩
  rw [hk]
  simp [Controller.selected, dataPhase, owned, h.idle]

/-- Settles O44: the exchanges of the successful `readRegister`. -/
theorem readRegisterReturnsTheByte : Obligations.ReadRegisterReturnsTheByte := by
  intro s dev reg x t1 t2 t3 t4 t5 t6 t7 rest h hdev hlimit hc hidle hts
  obtain ⟨n, t, hrun, hreturned⟩ := (transacts_rdreg h.ne_busErr).call_returns h (step_rdreg h hdev hc) hlimit
    (sched := [(t1, .startOk), (t2, .txAck true), (t3, .txAck true), (t4, .startOk), (t5, .txAck true), (t6, .rxByte x),
      (t7, .stopOk)])
    (by simpa using hidle) rfl hts
  obtain ⟨hcomplete, hf, hph, hcode⟩ := hreturned.complete
  have hk := hreturned.controller
  refine ⟨n, t, hrun, hreturned.ret, ?_, hcomplete, hf, hph, hcode, congrArg Controller.data hk, hreturned.pos, hreturned.turns⟩
  rw [hk]
  simp [Controller.addressedAgain, Controller.selected, dataPhase, receivePhase, owned, h.idle]

/-- Called with the controller at `k`, the contract `c` returns `v` under the answers `answers` between StartOk and StopOk, and its
bus events after the START are `log`. -/
def FailsWith (c : Contract) (k : Controller) (v : Ret) (answers : List Response) (log : List BusEvent) : Prop :=
  ∃ xs m, Transacts c k xs v m ∧ xs.map Exchange.answer = .startOk :: (answers ++ [.stopOk]) ∧
    m.stopped.busLog = k.busLog ++ .start :: log

theorem FailsWith.call_returns {c : Contract} {v : Ret} {answers : List Response} {log : List BusEvent} {s : State}
    {sched : List (List Turn × Response)} {rest : List Turn} (hfails : FailsWith c s.toController v answers log)
    (h : readyState s) (hstep : step s = step (inContract c (advance s))) (hlimit : s.params.pollLimit = none)
    (hidle : ∀ q ∈ sched, idleTurns q.1 = true) (hts : s.turns = answerTurns sched rest)
    (hanswers : sched.map Prod.snd = .startOk :: (answers ++ [.stopOk])) :
    ∃ n t, run n s = .next t ∧ t.ret = some v ∧ t.busLog = s.busLog ++ .start :: log ∧
      completeRun t ∧ t.fault = none ∧ t.phase = .idle ∧ t.code = 0xF8 ∧ t.lifecycle = .ready ∧
      t.pos = s.pos + 1 ∧ t.turns = rest := by
  obtain ⟨xs, m, htrans, hxs, hlog⟩ := hfails
  obtain ⟨n, t, hrun, hreturned⟩ := htrans.call_returns h hstep hlimit hidle (hanswers.trans hxs.symm) hts
  obtain ⟨hcomplete, hf, hph, hcode⟩ := hreturned.complete
  exact ⟨n, t, hrun, hreturned.ret, (congrArg Controller.busLog hreturned.controller).trans hlog, hcomplete, hf, hph, hcode,
    hreturned.ready.1, hreturned.pos, hreturned.turns⟩

/-- The answers between StartOk and StopOk under which a byte of `writeRegister` fails, with the bus events after the START. -/
def wrregFailures (dev reg val : Byte) : List (List Response × List BusEvent) :=
  [([.txAck false], [.addr (dev <<< 1) false, .stop]),
   ([.txAck true, .txAck false], [.addr (dev <<< 1) true, .txdata reg false, .stop]),
   ([.txAck true, .txAck true, .txAck false], [.addr (dev <<< 1) true, .txdata reg true, .txdata val false, .stop]),
   ([.busErr], [.busError]),
   ([.txAck true, .busErr], [.addr (dev <<< 1) true, .busError]),
   ([.txAck true, .txAck true, .busErr], [.addr (dev <<< 1) true, .txdata reg true, .busError])]

/-- The answers between StartOk and StopOk under which a byte of `readRegister` fails, with the bus events after the START. -/
def rdregFailures (dev reg : Byte) : List (List Response × List BusEvent) :=
  [([.txAck false], [.addr (dev <<< 1) false, .stop]),
   ([.txAck true, .txAck false], [.addr (dev <<< 1) true, .txdata reg false, .stop]),
   ([.txAck true, .txAck true, .startOk, .txAck false],
     [.addr (dev <<< 1) true, .txdata reg true, .rstart, .addr (dev <<< 1 ||| 1) false, .stop]),
   ([.busErr], [.busError]),
   ([.txAck true, .busErr], [.addr (dev <<< 1) true, .busError]),
   ([.txAck true, .txAck true, .startOk, .busErr], [.addr (dev <<< 1) true, .txdata reg true, .rstart, .busError]),
   ([.txAck true, .txAck true, .startOk, .txAck true, .busErr],
     [.addr (dev <<< 1) true, .txdata reg true, .rstart, .addr (dev <<< 1 ||| 1) true, .busError])]

section
variable {k : Controller} {dev reg val : Byte} {answers : List Response} {log : List BusEvent}

/-- `writeRegister` aborts at its address, its register or its value byte (R200, R203). -/
theorem wrreg_failsWith (hph : k.phase = .idle) (h : (answers, log) ∈ wrregFailures dev reg val) :
    FailsWith (.wrreg dev reg val .start) k (.bool false) answers log := by
  have hne : k.phase ≠ .busErr := by simp [hph]
  have hstart : CallGoesOn (.wrreg dev reg val .start) k _ (.wrreg dev reg val .addr) k.started := .start rfl (fun _ => rfl) hne
  have haddr : CallGoesOn (.wrreg dev reg val .addr) k.started _ (.wrreg dev reg val .reg) (k.started.addressed dev false true) :=
    .byte (.address rfl) rfl
  simp only [wrregFailures, List.mem_cons, Prod.mk.injEq, List.not_mem_nil, or_false] at h
  rcases h with ⟨rfl, rfl⟩ | ⟨rfl, rfl⟩ | ⟨rfl, rfl⟩ | ⟨rfl, rfl⟩ | ⟨rfl, rfl⟩ | ⟨rfl, rfl⟩
  · refine ⟨_, _, .call hstart (.call (.byte (.address rfl) rfl) (.stop rfl rfl)), rfl, ?_⟩
    simp [hph, addressPhase, owned]
  · refine ⟨_, _, .call hstart (.call haddr (.call (.byte (.data rfl) rfl) (.stop rfl rfl))), rfl, ?_⟩
    simp [hph, dataPhase, owned]
  · refine ⟨_, _, .wrreg_selects hne (.call (.byte (.data rfl) rfl) (.stop rfl rfl)), rfl, ?_⟩
    simp [Controller.selected, hph, dataPhase, owned]
  · refine ⟨_, _, .call hstart (.call (.byte (.writeError (.inl rfl)) rfl) (.stop rfl rfl)), rfl, ?_⟩
    simp [hph, owned]
  · refine ⟨_, _, .call hstart (.call haddr (.call (.byte (.writeError (.inr rfl)) rfl) (.stop rfl rfl))), rfl, ?_⟩
    simp [hph, owned]
  · refine ⟨_, _, .wrreg_selects hne (.call (.byte (.writeError (.inr rfl)) rfl) (.stop rfl rfl)), rfl, ?_⟩
    simp [Controller.selected, hph, owned]

/-- `readRegister` aborts at its first address, its register or its second address byte, and stops without a value when its
reception fails (R201, R203). -/
theorem rdreg_failsWith (hph : k.phase = .idle) (h : (answers, log) ∈ rdregFailures dev reg) :
    FailsWith (.rdreg dev reg .start) k (.regValue none) answers log := by
  have hne : k.phase ≠ .busErr := by simp [hph]
  have hstart : CallGoesOn (.rdreg dev reg .start) k _ (.rdreg dev reg .addrW) k.started := .start rfl (fun _ => rfl) hne
  have haddr : CallGoesOn (.rdreg dev reg .addrW) k.started _ (.rdreg dev reg .reg) (k.started.addressed dev false true) :=
    .byte (.address rfl) rfl
  have hrestart : CallGoesOn (.rdreg dev reg .restart) (k.selected dev reg) _ (.rdreg dev reg .addrR)
      (k.selected dev reg).started := .start rfl (fun _ => rfl) nofun
  have haddrR : CallGoesOn (.rdreg dev reg .addrR) (k.selected dev reg).started _ (.rdreg dev reg .read)
      (k.addressedAgain dev reg) := .byte (.address rfl) rfl
  simp only [rdregFailures, List.mem_cons, Prod.mk.injEq, List.not_mem_nil, or_false] at h
  rcases h with ⟨rfl, rfl⟩ | ⟨rfl, rfl⟩ | ⟨rfl, rfl⟩ | ⟨rfl, rfl⟩ | ⟨rfl, rfl⟩ | ⟨rfl, rfl⟩ | ⟨rfl, rfl⟩
  · refine ⟨_, _, .call hstart (.call (.byte (.address rfl) rfl) (.stop rfl rfl)), rfl, ?_⟩
    simp [hph, addressPhase, owned]
  · refine ⟨_, _, .call hstart (.call haddr (.call (.byte (.data rfl) rfl) (.stop rfl rfl))), rfl, ?_⟩
    simp [hph, dataPhase, owned]
  · refine ⟨_, _, .rdreg_selects hne (.call hrestart (.call (.byte (.address rfl) rfl) (.stop rfl rfl))), rfl, ?_⟩
    simp [Controller.selected, hph, addressPhase, dataPhase, owned]
  · refine ⟨_, _, .call hstart (.call (.byte (.writeError (.inl rfl)) rfl) (.stop rfl rfl)), rfl, ?_⟩
    simp [hph, owned]
  · refine ⟨_, _, .call hstart (.call haddr (.call (.byte (.writeError (.inr rfl)) rfl) (.stop rfl rfl))), rfl, ?_⟩
    simp [hph, owned]
  · refine ⟨_, _, .rdreg_selects hne (.call hrestart (.call (.byte (.writeError (.inl rfl)) rfl) (.stop rfl rfl))), rfl, ?_⟩
    simp [Controller.selected, hph, dataPhase, owned]
  · refine ⟨_, _, .rdreg_selects hne (.call hrestart (.call haddrR (.call (.byte (.readError rfl) rfl) (.stop rfl rfl)))),
      rfl, ?_⟩
    simp [Controller.addressedAgain, Controller.selected, hph, dataPhase, owned]

end

/-- Settles O43: whichever byte fails, the contract's next call is its last `stop()`. -/
theorem contractCallsAbortOnAFailedByte : Obligations.ContractCallsAbortOnAFailedByte := by
  intro s dev reg sched rest h hdev hlimit hidle hts
  have hph : s.phase = .idle := h.idle
  exact ⟨fun val hc answers log hmem => (wrreg_failsWith hph hmem).call_returns h (step_wrreg h hdev hc) hlimit hidle hts,
    fun hc answers log hmem => (rdreg_failsWith hph hmem).call_returns h (step_rdreg h hdev hc) hlimit hidle hts⟩

/-! ### The reference slave's answers to the contract -/

theorem slaveAddressed_addressByte {d : Slave} {a : BitVec 7} (hpresent : d.present = true) (haddr : d.addr = a) (read : Bool) :
    slaveAddressed d (addressByte (a.setWidth 8) read) = true := by
  have hbits : (addressByte (a.setWidth 8) read).extractLsb' 1 7 = a := by
    ext i hi
    have hbounds : 1 + i < 8 ∧ i < 8 := by omega
    cases read <;> simp [addressByte, bitAt, hbounds, hi]
  simp [slaveAddressed, hpresent, hbits, haddr]

/-- `d` addressed, with its pointer at `reg` for the next byte. -/
def Slave.pointed (reg : Byte) (d : Slave) : Slave := { d with ptr := reg, mode := .w }

/-- `d` after a `writeRegister`: it stores what was sent. -/
def Slave.written (reg val : Byte) (d : Slave) : Slave :=
  { d with regs := Cells.write reg.toNat val d.regs, ptr := reg + 1, mode := .none }

/-- `d` after a `readRegister`. -/
def Slave.readOut (reg : Byte) (d : Slave) : Slave := { d with ptr := reg + 1, mode := .none }

section
variable {d e : Slave} {a : BitVec 7} {reg val : Byte} {k : Controller} {xs : List Exchange}

theorem slaveAnswer_address (hpresent : d.present = true) (haddr : d.addr = a) (read : Bool) :
    slaveAnswer .started (.tx (addressByte (a.setWidth 8) read)) d =
      (.txAck true, { d with mode := if read then .r else .wFirst }) := by
  simp only [slaveAnswer, slaveAddress, slaveAddressed_addressByte hpresent haddr, byteBit_addressByte, if_true]

theorem slaveAnswers_select (hpresent : d.present = true) (haddr : d.addr = a) (hmore : SlaveAnswers (d.pointed reg) xs e) :
    SlaveAnswers d (selectExchanges (a.setWidth 8) reg k ++ xs) e :=
  .cons rfl (.cons (slaveAnswer_address hpresent haddr false) (.cons rfl hmore))

theorem slaveAnswers_wrreg (hpresent : d.present = true) (haddr : d.addr = a) :
    SlaveAnswers d (writeExchanges (a.setWidth 8) reg val k) (d.written reg val) :=
  slaveAnswers_select hpresent haddr (.cons rfl (.cons rfl (.nil _)))

theorem slaveAnswers_rdreg (hpresent : d.present = true) (haddr : d.addr = a) :
    SlaveAnswers d (readExchanges (a.setWidth 8) reg (Cells.read reg.toNat d.regs) k) (d.readOut reg) :=
  have hread := slaveAnswer_address (d := { d.pointed reg with mode := .none }) hpresent haddr true
  slaveAnswers_select hpresent haddr (.cons rfl (.cons hread (.cons rfl (.cons rfl (.nil _)))))

end

/-- Settles O45: after `writeRegister` the driver is ready again and the slave holds the value, which it then sends. -/
theorem registerRoundTrip : Obligations.RegisterRoundTrip := by
  intro s d a r v h hlimit hpresent haddr hwf hcw hcr
  have hdev : (a.setWidth 8).toNat ≤ 0x7F := by bv_omega
  obtain ⟨m, t, hwrite, hwritten⟩ := (transacts_wrreg h.ne_busErr).system_call_returns h (step_wrreg h hdev hcw) hlimit
    (slaveAnswers_wrreg hpresent haddr)
  have hheld : Cells.read r.toNat (d.written r v).regs = v := Cells.read_write_same _ _ hwf
  obtain ⟨hcomplete, -, hph, -⟩ := hwritten.complete
  have ht : readyState t := ⟨hwritten.boundary, hwritten.ready, hwritten.closed, hph, hcomplete.2.2.1⟩
  have hcr' : t.program[t.pos]? = some (.call (.rdreg (.lit (a.setWidth 8)) (.lit r))) := by
    rw [hwritten.program, hwritten.pos, hcr]
  have hreads := slaveAnswers_rdreg (d := d.written r v) (reg := r) (k := t.toController) hpresent haddr
  rw [hheld] at hreads
  obtain ⟨n, u, hread, hreturned⟩ :=
    (transacts_rdreg ht.ne_busErr).system_call_returns ht (step_rdreg ht hdev hcr') (hwritten.params ▸ hlimit) hreads
  refine ⟨m, n, (t, _), (u, _), hwrite, hwritten.ret, hwritten.pos, hcomplete, hheld, hread, hreturned.ret, ?_,
    hreturned.complete.1⟩
  rw [hreturned.pos, hwritten.pos]

end Sys2Proof.Machine

/-! PROOFS. Recorded faults: sticky and precise (60_exceptions.md R220, 10_state.md R32). -/

namespace Sys2Proof.Machine

section
variable {s : State} {j k : Fault}

/-- The first fault is the one kept. -/
theorem recordFault_of_faulted (h : s.fault = some j) : recordFault k s = s := by
  cases s
  cases h
  rfl

theorem recordFault_of_running (h : s.fault = none) : recordFault k s = { s with fault := some k } := by
  rw [recordFault, h, Option.getD_none]

theorem recordStep_of_fault (h : step s = .fault k) : recordStep s = recordFault k s := by
  rw [recordStep, h]

end

/-- Settles O55: a recorded step that faults is `recordFault`, which keeps a fault already there. -/
theorem faultsAreStickyAndPrecise : Obligations.FaultsAreStickyAndPrecise := by
  refine fun s => ⟨fun k hfaulted => ?sticky, fun k hrunning hstep => ?precise⟩
  case sticky =>
    have hstep : step s = .fault k := step_faulted hfaulted
    exact ⟨hstep, (recordStep_of_fault hstep).trans (recordFault_of_faulted hfaulted)⟩
  case precise => exact (recordStep_of_fault hstep).trans (recordFault_of_running hrunning)

end Sys2Proof.Machine

/-! PROOFS. Hazards (70_reset_and_hazards.md R257, R262): a wait on INT that nothing can end, and the quiet primitive boundary of a
driver that reaches the controller only through the primitives. -/

namespace Sys2Proof.Machine

/-! ### A wait on INT with nothing pending (R257) -/

/-- The program stands at a wait on INT, INT is clear, and neither an action nor POLL_LIMIT can end the wait. -/
structure WaitsForNothing (s : State) : Prop where
  boundary : atBoundary s
  quiet : s.pending = none
  int_clear : s.ctrl.int = false
  unlimited : s.params.pollLimit = none
  at_wait : s.program[s.pos]? = some (.waitSet 0x80)

/-- A poll read moves nothing such a wait depends on. -/
theorem WaitsForNothing.after_read {s : State} (h : WaitsForNothing s) : WaitsForNothing (pollRead s) :=
  ⟨h.boundary, h.quiet, h.int_clear, h.unlimited, h.at_wait⟩

theorem waitStmt_of_not_exits {b : Bool} {m : Byte} {s : State} (h : pollExits b m (ctrlByte s) = false)
    (hlimit : s.params.pollLimit = none) : waitStmt b m s = pollRead s := by
  have hleft : pollLimitReached (pollRead s) = false := by simp [pollLimitReached, pollRead_eq, polled, hlimit]
  have hstays : pollExits b m (pollRead s).locals.c = false := h
  simp [waitStmt, pollStep, hstays, hleft]

theorem WaitsForNothing.step_eq {s : State} (h : WaitsForNothing s) : step s = .next (pollRead s) := by
  obtain ⟨hf, hprim, hcontract⟩ := h.boundary
  rw [step_stmt_quiet hf hprim hcontract h.quiet h.at_wait, runStmt,
    waitStmt_of_not_exits ((pollExits_int s).trans h.int_clear) h.unlimited]

theorem WaitsForNothing.run_stays {s : State} (n : Nat) (h : WaitsForNothing s) :
    ∃ t, run n s = .next t ∧ t.pos = s.pos ∧ SameHardware s t ∧ WaitsForNothing t := by
  induction n generalizing s with
  | zero => exact ⟨s, rfl, rfl, rfl, h⟩
  | succ n ih =>
    obtain ⟨t, hrun, hpos, hsame, ht⟩ := ih h.after_read
    exact ⟨t, (run_succ_of_step h.step_eq).trans hrun, hpos, hsame, ht⟩

/-- Settles O48: each read leaves the wait and the controller as they are. -/
theorem waitOnIntAfterStopHangs : Obligations.WaitOnIntAfterStopHangs := by
  intro s n hb hp hint hlimit hc
  obtain ⟨t, hrun, hpos, hsame, ht⟩ := WaitsForNothing.run_stays n ⟨hb, hp, hint, hlimit, hc⟩
  exact ⟨t, hrun, hpos, hsame, ht.boundary⟩

/-! ### What the driver invariant depends on (R262) -/

theorem boundaryQuiet_inside {s : State} {p : PrimPoint} (hprim : s.prim = some p) : boundaryQuiet s ↔ pointPending s p := by
  simp only [boundaryQuiet, hprim]

theorem boundaryQuiet_between {s : State} (hprim : s.prim = none) :
    boundaryQuiet s ↔ (s.wedged = false → s.pending = none) := by
  simp only [boundaryQuiet, hprim]

/-- What may be pending at a point is a matter of the controller only. -/
theorem pointPending_of_sameHardware {s t : State} {p : PrimPoint} (h : SameHardware s t) (k : pointPending s p) :
    pointPending t p := by
  cases p <;> simpa only [pointPending, h] using k

theorem boundaryQuiet_of_same {s t : State} (h : SameHardware s t) (hprim : t.prim = s.prim) (hwedged : t.wedged = s.wedged)
    (k : boundaryQuiet s) : boundaryQuiet t := by
  cases hp : s.prim with
  | none =>
    rw [boundaryQuiet_between hp] at k
    rwa [boundaryQuiet_between (hprim.trans hp), hwedged, h]
  | some p =>
    exact (boundaryQuiet_inside (hprim.trans hp)).2 (pointPending_of_sameHardware h ((boundaryQuiet_inside hp).1 k))

theorem goOn_boundaryQuiet {s : State} {p : PrimPoint} (h : pointPending s p) : boundaryQuiet (goOn p s) :=
  (boundaryQuiet_inside rfl).2 (pointPending_of_sameHardware (goOn_sameHardware p s) h)

/-- A primitive may return with an action pending only where it has wedged the driver. -/
theorem finishPrim_boundaryQuiet {s : State} (r : Ret) (h : s.wedged = false → s.pending = none) :
    boundaryQuiet (finishPrim r s) := by
  obtain ⟨hsame, hprim, -, -, -, hwedged, -⟩ := finishPrim_frame r s
  rwa [boundaryQuiet_between hprim, hwedged, hsame]

/-! ### What the driver's writes leave pending -/

/-- A write of DIV, STATUS or DATA goes through only while nothing is pending (40_register_access.md R111, R113, R115). -/
theorem writeReg_plain_pending {r : Reg} {v : Byte} {s t : State} (hr : r ≠ .ctrl) (h : writeReg r v s = .next t) :
    t.pending = none := by
  obtain ⟨hp, rfl | rfl | rfl⟩ := writeReg_plain_cases hr h <;> exact hp

/-- A CTRL write with bit 7 clear issues no action (30_encoding.md R72). -/
theorem writeReg_ctrl_pending {v : Byte} {s t : State} (hv : byteBit v 7 = false) (h : writeReg .ctrl v s = .next t) :
    t.pending = none := by
  rw [writeReg] at h
  have means := classifyCtrl_means v s.phase s.pending
  rcases writeCtrl_cases h with ⟨hc, rfl⟩ | ⟨hc, rfl⟩ | ⟨hc, rfl⟩ | ⟨hc, rfl⟩ | ⟨hc, rfl⟩ | ⟨ea, hc, rfl⟩ <;>
    rw [hc] at means
  · rfl
  · exact means.1
  all_goals
    obtain ⟨-, -, hint, -⟩ := means
    rw [hv] at hint
    cases hint

theorem startCommand_pending {ea : Bool} {s t : State} (h : exec (.wrCtrlStart ea) s = .next t) : t.pending = some .start := by
  obtain ⟨hissue, hbusy, hbusErr⟩ := startCommandIssuesStart ea s
  by_cases hp : s.pending = none
  · by_cases hph : s.phase = .busErr
    · rw [hbusErr hp hph] at h; cases h
    · rw [hissue hp hph] at h; cases h; rfl
  · rw [hbusy hp] at h; cases h

theorem stopCommand_pending {ea : Bool} {s t : State} (h : exec (.wrCtrlStop ea) s = .next t) : t.pending = some .stop := by
  obtain ⟨hissue, hbusy⟩ := stopCommandIssuesStop ea s
  by_cases hp : s.pending = none
  · rw [hissue hp] at h; cases h; rfl
  · rw [hbusy hp] at h; cases h

/-- A continue write that goes through leaves a byte transfer pending. -/
theorem continueCommand_pending {ea : Bool} {s t : State} (h : writeCtrl (packCtrl true ea false false true) s = .next t) :
    (∃ b, t.pending = some (.tx b)) ∨ ∃ e, t.pending = some (.rx e) := by
  by_cases hp : s.pending = none
  · by_cases hph : s.phase ∈ [.started, .mt, .mr]
    · rw [writeCtrl_continue hp hph] at h
      cases h
      by_cases hmr : s.phase = .mr
      · exact .inr ⟨ea, congrArg some (byteAction_mr hmr)⟩
      · exact .inl ⟨s.data, congrArg some (if_neg hmr)⟩
    · rw [writeCtrl_illegalContinue hp hph] at h; cases h
  · rw [writeCtrl_busy hp] at h; cases h

/-! ### A called primitive's first access -/

theorem beginStart_boundaryQuiet {s t : State} (h : beginStart s = .next t) : boundaryQuiet t := by
  obtain ⟨hready, hwedged, -⟩ := guardReady_next h
  rw [beginStart_ready ⟨hready, hwedged⟩] at h
  obtain ⟨w, hw, ⟨⟩⟩ := andThen_next_iff.1 h
  have hp : w.pending = some .start := startCommand_pending hw
  exact goOn_boundaryQuiet (.inl hp)

theorem beginStop_boundaryQuiet {s t : State} (h : beginStop s = .next t) : boundaryQuiet t := by
  obtain ⟨hready, hwedged, -⟩ := guardReady_next h
  rw [beginStop_ready ⟨hready, hwedged⟩] at h
  obtain ⟨w, hw, ⟨⟩⟩ := andThen_next_iff.1 h
  exact goOn_boundaryQuiet (.inl (stopCommand_pending hw))

theorem beginWrbyte_boundaryQuiet {b : Byte} {s t : State} (h : beginWrbyte b s = .next t) : boundaryQuiet t := by
  obtain ⟨-, -, h⟩ := guardReady_next h
  obtain ⟨w, hw, ⟨⟩⟩ := andThen_next_iff.1 h
  exact goOn_boundaryQuiet (writeReg_plain_pending (by decide) hw)

/-- The continue write, and the poll loop it begins. -/
theorem continue_boundaryQuiet {p : PrimPoint} {ea : Bool} {s t : State} (hp : p = .wrbytePoll ∨ p = .rdbytePoll)
    (h : andThen (writeCtrl (packCtrl true ea false false true) s) (fun w => .next (goOn p w)) = .next t) :
    boundaryQuiet t := by
  obtain ⟨w, hw, ⟨⟩⟩ := andThen_next_iff.1 h
  have hbyte := continueCommand_pending hw
  refine goOn_boundaryQuiet ?_
  rcases hp with rfl | rfl <;> exact hbyte.imp_right .inl

theorem beginRdbyte_boundaryQuiet {ack : Bool} {s t : State} (h : beginRdbyte ack s = .next t) : boundaryQuiet t := by
  obtain ⟨hready, hwedged, -⟩ := guardReady_next h
  rw [beginRdbyte_ready ⟨hready, hwedged⟩] at h
  exact continue_boundaryQuiet (.inr rfl) h

theorem execInit_boundaryQuiet {s t : State} (h : execInit s = .next t) : boundaryQuiet t := by
  unfold execInit at h
  split at h
  · simp at h
  · obtain ⟨w, hw, ⟨⟩⟩ := andThen_next_iff.1 h
    exact goOn_boundaryQuiet (writeReg_plain_pending (by decide) hw)

/-- CLOSE is the one primitive a wedged driver may call: its disable ends whatever is pending (R161). -/
theorem execClose_boundaryQuiet {s t : State} (h : execClose s = .next t) : boundaryQuiet t := by
  unfold execClose at h
  split at h
  · simp at h
  · obtain ⟨w, hw, ⟨⟩⟩ := andThen_next_iff.1 h
    have hp : w.pending = none := writeReg_ctrl_pending (by decide) hw
    exact finishPrim_boundaryQuiet _ fun _ => hp

/-- Whatever was pending, a called pseudo-instruction that does not fault leaves what its next point allows. -/
theorem exec_call_boundaryQuiet {c : Call} {l : Locals} {s t : State} (h : exec (callInstr l c) s = .next t) :
    boundaryQuiet t := by
  cases c
  case init => exact execInit_boundaryQuiet h
  case close => exact execClose_boundaryQuiet h
  case start => exact beginStart_boundaryQuiet h
  case stop => exact beginStop_boundaryQuiet h
  case wrbyte => exact beginWrbyte_boundaryQuiet h
  case rdbyte => exact beginRdbyte_boundaryQuiet h
  case wrreg | rdreg => exact beginStart_boundaryQuiet (checkDevice_next h).2

theorem resumeContract_boundaryQuiet {c : Contract} {s t : State} (h : resumeContract c s = .next t) : boundaryQuiet t := by
  rcases c with ⟨dev, reg, val, st⟩ | ⟨dev, reg, st⟩ <;> cases st
  case wrreg.start | rdreg.start | rdreg.restart => exact beginStart_boundaryQuiet h
  case wrreg.stop | wrreg.abort | rdreg.stop | rdreg.abort => exact beginStop_boundaryQuiet h
  case rdreg.read => exact beginRdbyte_boundaryQuiet h
  all_goals exact beginWrbyte_boundaryQuiet h

/-! ### A primitive's later accesses -/

/-- A read that does not end the wait leaves it where it is, or wedges the driver (R171). -/
theorem pollFailed_boundaryQuiet {s : State} (h : boundaryQuiet s) : boundaryQuiet (pollFailed s) := by
  unfold pollFailed
  split
  · exact finishPrim_boundaryQuiet _ nofun
  · exact boundaryQuiet_of_same rfl rfl rfl h

/-- A poll loop is left with nothing pending: the flag it saw is not there while its action is in flight. -/
theorem primPoll_boundaryQuiet {b : Bool} {m : Byte} {f : State → State} {s : State} (h : boundaryQuiet s)
    (hexit : pollExits b m (ctrlByte s) = true → s.pending = none) (hf : ∀ u, u.pending = none → boundaryQuiet (f u)) :
    boundaryQuiet (primPoll b m f s) := by
  cases hx : pollExits b m (ctrlByte s)
  case false =>
    rw [primPoll_of_not_exits hx]
    exact pollFailed_boundaryQuiet h
  case true =>
    rw [primPoll_of_exits hx]
    exact hf _ (hexit hx)

/-- INT is set only while nothing is pending (10_state.md R34.2). -/
theorem HardwareInv.quiet_of_int {s : State} (k : HardwareInv s) (hint : s.ctrl.int = true) : s.pending = none := by
  by_contra hp
  obtain ⟨a, ha⟩ := Option.ne_none_iff_exists'.1 hp
  obtain ⟨hclear, -, -⟩ := k.pending_consistent a ha
  simp [hclear] at hint

/-- At the poll of `stop()`, STO clear means that the STOP has ended (R34.4). -/
theorem HardwareInv.quiet_of_sto {s : State} (k : HardwareInv s) (h : pointPending s .stopPoll) (hsto : s.ctrl.sto = false) :
    s.pending = none := by
  rcases h with hp | ⟨hp, -⟩
  · simp [k.stop_requested hp] at hsto
  · exact hp

theorem startPolled_boundaryQuiet {s : State} (hp : s.pending = none) : boundaryQuiet (startPolled s) := by
  unfold startPolled
  split
  · exact goOn_boundaryQuiet hp
  · exact finishPrim_boundaryQuiet _ fun _ => hp

theorem resumePrim_boundaryQuiet {p : PrimPoint} {s t : State} (k : HardwareInv s) (hprim : s.prim = some p)
    (hb : boundaryQuiet s) (h : resumePrim p s = .next t) : boundaryQuiet t := by
  have hpoint : pointPending s p := (boundaryQuiet_inside hprim).1 hb
  have hint : pollExits true 0x80 (ctrlByte s) = true → s.pending = none := fun hx =>
    k.quiet_of_int ((pollExits_int s).symm.trans hx)
  cases p
  case initDiv =>
    obtain ⟨w, hw, ⟨⟩⟩ := andThen_next_iff.1 h
    exact goOn_boundaryQuiet (writeReg_plain_pending (by decide) hw)
  case initCtrl =>
    obtain ⟨w, hw, ⟨⟩⟩ := andThen_next_iff.1 h
    have hp : w.pending = none := writeReg_ctrl_pending (by decide) hw
    exact finishPrim_boundaryQuiet _ fun _ => hp
  case wrbyteCtrl =>
    obtain ⟨-, -, -, -, hbyte, -⟩ := commandWords
    rw [resumePrim, resumeWrbyteCtrl, hbyte] at h
    exact continue_boundaryQuiet (.inl rfl) h
  case startPoll => cases h; exact primPoll_boundaryQuiet hb hint fun _ => startPolled_boundaryQuiet
  case stopPoll =>
    cases h
    refine primPoll_boundaryQuiet hb (fun hx => k.quiet_of_sto hpoint ?_) fun _ hp => finishPrim_boundaryQuiet _ fun _ => hp
    rw [pollExits_sto] at hx
    simpa using hx
  case wrbytePoll | rdbytePoll => cases h; exact primPoll_boundaryQuiet hb hint fun _ hp => goOn_boundaryQuiet hp
  case startStatus | wrbyteStatus => cases h; exact finishPrim_boundaryQuiet _ fun _ => hpoint
  case rdbyteStatus =>
    cases h
    simp only [resumeRdbyteStatus]
    split
    · exact goOn_boundaryQuiet hpoint
    · exact finishPrim_boundaryQuiet _ fun _ => hpoint
  case rdbyteData =>
    cases h
    have hread : (accessRead .data s).pending = none := by rwa [accessRead_sameHardware .data s]
    exact finishPrim_boundaryQuiet _ fun _ => hread

/-! ### A step of each agent -/

/-- A statement that makes no register access of its own leaves the boundary as it is, or calls a pseudo-instruction. -/
theorem runStmt_boundaryQuiet {c : Stmt} {s t : State} (hcalls : Stmt.onlyCalls c = true) (hb : boundaryQuiet s)
    (h : runStmt c s = .next t) : boundaryQuiet t := by
  cases c <;> simp only [Stmt.onlyCalls, Bool.false_eq_true] at hcalls <;> simp only [runStmt] at h
  case call p => exact exec_call_boundaryQuiet h
  case goto l =>
    obtain ⟨n, rfl⟩ := jump_next h
    exact boundaryQuiet_of_same rfl rfl rfl hb
  case ifGoto x l =>
    split at h
    · obtain ⟨n, rfl⟩ := jump_next h
      exact boundaryQuiet_of_same rfl rfl rfl hb
    · cases h; exact boundaryQuiet_of_same rfl rfl rfl hb
  all_goals cases h; exact boundaryQuiet_of_same rfl rfl rfl hb

theorem onlyCalls_fetch {c : Stmt} {s : State} (h : onlyCalls s) (hc : fetch s = some c) : Stmt.onlyCalls c = true :=
  List.all_eq_true.1 h c (List.mem_of_getElem? hc)

theorem cpuStep_boundaryQuiet {s t : State} (k : HardwareInv s) (d : DriverInv s) (h : cpuStep s = .next t) :
    boundaryQuiet t := by
  unfold cpuStep at h
  split at h
  next p hprim => exact resumePrim_boundaryQuiet k hprim d.boundary_quiet h
  split at h
  next => exact resumeContract_boundaryQuiet h
  split at h
  next c hc => exact runStmt_boundaryQuiet (onlyCalls_fetch d.only_calls hc) d.boundary_quiet h
  next => simp at h

/-- At its own poll an action ends with the flag the poll waits for: INT, or STO clear for a Stop (41_controller_actions.md R132,
R138). -/
theorem ctrlStep_pointPending {a : Action} {r : Response} {p : PrimPoint} {s : State} (hp : s.pending = some a)
    (h : pointPending s p) : pointPending (ctrlStep a r s) p := by
  by_cases hadm : admitted a r = true ∧ r ≠ .hold
  · obtain ⟨hquiet, hctrl⟩ := ctrlStep_of_admitted s hadm
    cases p
    case startPoll =>
      obtain rfl : a = .start := by simpa [pointPending, hp] using h
      exact .inr ⟨hquiet, by rw [hctrl]; rfl⟩
    case stopPoll =>
      obtain rfl : a = .stop := by simpa [pointPending, hp] using h
      exact .inr ⟨hquiet, by rw [hctrl]; rfl⟩
    case wrbytePoll | rdbytePoll =>
      have hbyte : a ≠ .stop := by rintro rfl; simp [pointPending, hp] at h
      exact .inr (.inr ⟨hquiet, by rw [hctrl, if_neg hbyte]⟩)
    all_goals simp [pointPending, hp] at h
  · rwa [ctrlStep_of_not_admitted hadm]

theorem ctrlStep_boundaryQuiet {a : Action} {s : State} (r : Response) (hp : s.pending = some a) (h : boundaryQuiet s) :
    boundaryQuiet (ctrlStep a r s) := by
  have hdrv := ctrlStep_toDriver a r s
  cases hprim : s.prim with
  | none =>
    have hwedged : s.wedged = true := by
      by_contra hnot
      simp [(boundaryQuiet_between hprim).1 h (by simpa using hnot)] at hp
    rw [boundaryQuiet_between ((congrArg Driver.prim hdrv).trans hprim)]
    simp [hdrv, hwedged]
  | some p =>
    rw [boundaryQuiet_inside ((congrArg Driver.prim hdrv).trans hprim)]
    exact ctrlStep_pointPending hp ((boundaryQuiet_inside hprim).1 h)

/-- Past the choice of the turn, which neither the controller nor the driver sees, a step is the CPU's, nothing, or the controller's
(20_memory.md R58). -/
theorem step_agent {s t : State} (h : step s = .next t) : ∃ u, SameHardware s u ∧ u.toDriver = s.toDriver ∧
    (cpuStep u = .next t ∨ t = u ∨ ∃ a r, u.pending = some a ∧ t = ctrlStep a r u) := by
  unfold step machineStep at h
  split at h
  · simp at h
  unfold liveStep at h
  split at h
  · exact ⟨s, rfl, rfl, .inl h⟩
  next a ha =>
    have hsame := takeTurn_sameHardware s
    refine ⟨(takeTurn s).2, hsame, takeTurn_toDriver s, ?_⟩
    unfold busyStep at h
    split at h <;> rename_i hu <;> rw [hu] at hsame ⊢
    · split at h
      · exact .inl h
      · cases h; exact .inr (.inl rfl)
    · cases h
      exact .inr (.inr ⟨a, _, by rw [hsame, ha], rfl⟩)

/-- Settles O51: a called primitive leaves its own action pending, its poll loop is left with nothing pending or the driver wedged,
and the program text never changes. -/
theorem stepKeepsDriverInv : Obligations.StepKeepsDriverInv := by
  intro s t k d h
  have hprogram : t.program = s.program := (step_stepFrame h).program
  refine ⟨by simpa only [onlyCalls, hprogram] using d.only_calls, ?_⟩
  obtain ⟨u, hsame, hdrv, hagent⟩ := step_agent h
  have ku : HardwareInv u := hardwareInv_of_sameHardware hsame k
  have du : DriverInv u :=
    ⟨by simpa only [onlyCalls, hdrv] using d.only_calls,
      boundaryQuiet_of_same hsame (congrArg Driver.prim hdrv) (congrArg Driver.wedged hdrv) d.boundary_quiet⟩
  rcases hagent with hcpu | rfl | ⟨a, r, hp, rfl⟩
  · exact cpuStep_boundaryQuiet ku du hcpu
  · exact du.boundary_quiet
  · exact ctrlStep_boundaryQuiet r hp du.boundary_quiet

end Sys2Proof.Machine
